-- ==== Sys2Proof/Word.lean ====
section
/-! DEFINITION. The value types of the block: bytes, bus words, bus addresses.

"Every value in this spec is unsigned" (00 R8); bit 0 is the least significant bit. -/

namespace Sys2Proof

/-- A field element, and an entry of a polynomial buffer: 8 bits (40 R100). -/
abbrev Byte := BitVec 8

/-- A bus data word, a command word, a register as the host sees it: 32 bits (20 R50, 30 R80). -/
abbrev Word := BitVec 32

/-- A host bus byte address: 12 bits (20 R50). -/
abbrev Addr := BitVec 12

end Sys2Proof
end

