-- ==== Sys2Proof/Machine/Operands.lean ====
section
/-! DEFINITION. The fields of a command word and the operand forms read from them (30 R80, R81). -/

namespace Sys2Proof.Machine

/-- OP, bits 31:28 (30 R80). -/
def opField (w : Word) : Nat := (w.extractLsb' 28 4).toNat

/-- RSV, bits 27:16 (30 R80). -/
def rsvField (w : Word) : BitVec 12 := w.extractLsb' 16 12

/-- FA, bits 15:8 (30 R80). -/
def faField (w : Word) : Byte := w.extractLsb' 8 8

/-- FB, bits 7:0 (30 R80). -/
def fbField (w : Word) : Byte := w.extractLsb' 0 8

/-- An operand field read as an element: "the byte itself" (30 R81). -/
def elementOperand (f : Byte) : Byte := f

/-- An operand field read as an exponent: "an unsigned integer 0..255" (30 R81). -/
def exponentOperand (f : Byte) : Nat := f.toNat

/-- An operand field read as a length or a degree: "an unsigned integer 0..255" (30 R81). -/
def lengthOperand (f : Byte) : Nat := f.toNat

/-- An unsigned integer put into an 8-bit operand field (30 R86). -/
def toField (n : Nat) : Byte := BitVec.ofNat 8 n

/-- A command word with RSV = 0: `op << 28 | fa << 8 | fb` (30 R80, R86). -/
def packFields (op : BitVec 4) (fa fb : Byte) : Word := op ++ 0#12 ++ fa ++ fb

end Sys2Proof.Machine
end

