-- ==== Sys2Proof/Syntax.lean ====
section
/-! DEFINITION. The commands, one constructor per row of spec/opcode_table.json.

The spec says "command" where an ISA would say "instruction" (00 R11). An operand is typed by its kind in
30 R81: a field element is a byte; an exponent, a length and a degree are unsigned integers. -/

namespace Sys2Proof

/-- The seven commands of 30 R82. -/
inductive Instr where
  /-- `nop` (40 R105) -/
  | nop
  /-- `gf.add a, b` (40 R106) -/
  | gfAdd (a b : Byte)
  /-- `gf.mul a, b` (40 R107) -/
  | gfMul (a b : Byte)
  /-- `gf.log a` (40 R108) -/
  | gfLog (a : Byte)
  /-- `gf.exp e` (40 R109) -/
  | gfExp (e : Nat)
  /-- `poly.mul la, lb` (41 R134) -/
  | polyMul (la lb : Nat)
  /-- `poly.gen n` (41 R135) -/
  | polyGen (n : Nat)
deriving DecidableEq, Repr

end Sys2Proof
end

