-- ==== Sys2Proof/WellFormed.lean ====
section
/-! DEFINITION. Which commands have an encoding.

FA and FB are unsigned 8-bit immediates (30 R81), so an exponent, a length or a degree must be at most 255. An element is a
byte by its type. Whether a length fits `POLY_MAX` "is checked by the command, not by decode" (30 R81), so it is no matter of
well-formedness. -/

namespace Sys2Proof

/-- The value fits an 8-bit operand field (30 R81). -/
def fitsField (n : Nat) : Bool := decide (n < 256)

/-- The command can be written as a command word. -/
def Instr.wf : Instr → Bool
  | .nop => true
  | .gfAdd _ _ => true
  | .gfMul _ _ => true
  | .gfLog _ => true
  | .gfExp e => fitsField e
  | .polyMul la lb => fitsField la && fitsField lb
  | .polyGen n => fitsField n

end Sys2Proof
end

