-- ==== Sys2Proof/Decode.lean ====
section
/-! DEFINITION. Decoding command words, total, refusing by name; and the encoder (30 R80 to R86). -/

namespace Sys2Proof

open Sys2Proof.Machine

/-- Why a word is no command (30 R83, R84). The block answers each with ERR_ILLEGAL (60 R163); the name only says which
clause of 30 R85 failed first. -/
inductive DecodeError where
  /-- opcode 0x7 to 0xF (30 R83) -/
  | reservedOpcode
  /-- bits 27:16 not zero (30 R84) -/
  | reservedField
  /-- a field the opcode does not use is not zero (30 R84) -/
  | unusedField
deriving DecidableEq, Repr

/-- A word with a defined opcode selects `i` exactly when RSV and the fields `unused` by the opcode are zero (30 R84). -/
def acceptFields (w : Word) (unused : Byte) (i : Instr) : Except DecodeError Instr :=
  if rsvField w ≠ 0 then .error .reservedField
  else if unused ≠ 0 then .error .unusedField
  else .ok i

/-- "Decode is total: every 32-bit word either selects one command or raises ERR_ILLEGAL" (30 R85). -/
def decode (w : Word) : Except DecodeError Instr :=
  match opField w with
  | 0 => acceptFields w (faField w ||| fbField w) .nop
  | 1 => acceptFields w 0 (.gfAdd (elementOperand (faField w)) (elementOperand (fbField w)))
  | 2 => acceptFields w 0 (.gfMul (elementOperand (faField w)) (elementOperand (fbField w)))
  | 3 => acceptFields w (fbField w) (.gfLog (elementOperand (faField w)))
  | 4 => acceptFields w (fbField w) (.gfExp (exponentOperand (faField w)))
  | 5 => acceptFields w 0 (.polyMul (lengthOperand (faField w)) (lengthOperand (fbField w)))
  | 6 => acceptFields w (fbField w) (.polyGen (lengthOperand (faField w)))
  | _ => .error .reservedOpcode

/-- The command word of a command (30 R86), for a well-formed command; an integer operand that does not fit its field is cut
to 8 bits (log entry 13). -/
def encode : Instr → Word
  | .nop => packFields 0x0 0 0
  | .gfAdd a b => packFields 0x1 a b
  | .gfMul a b => packFields 0x2 a b
  | .gfLog a => packFields 0x3 a 0
  | .gfExp e => packFields 0x4 (toField e) 0
  | .polyMul la lb => packFields 0x5 (toField la) (toField lb)
  | .polyGen n => packFields 0x6 (toField n) 0

/-- One row of the match and mask table of 30 R82. -/
structure OpcodeRow where
  mnemonic : String
  pattern  : Word
  mask     : Word
deriving DecidableEq, Repr

/-- The match and mask table of 30 R82. -/
def opcodeRows : List OpcodeRow :=
  [⟨"NOP", 0x00000000, 0xFFFFFFFF⟩, ⟨"GF.ADD", 0x10000000, 0xFFFF0000⟩, ⟨"GF.MUL", 0x20000000, 0xFFFF0000⟩,
   ⟨"GF.LOG", 0x30000000, 0xFFFF00FF⟩, ⟨"GF.EXP", 0x40000000, 0xFFFF00FF⟩, ⟨"POLY.MUL", 0x50000000, 0xFFFF0000⟩,
   ⟨"POLY.GEN", 0x60000000, 0xFFFF00FF⟩]

/-- "a word w selects the command when `(w & mask) = match`" (30 R82). -/
def OpcodeRow.selects (r : OpcodeRow) (w : Word) : Bool := w &&& r.mask == r.pattern

/-- The mnemonic of a command, as the opcode table spells it. -/
def Instr.mnemonic : Instr → String
  | .nop => "NOP"
  | .gfAdd _ _ => "GF.ADD"
  | .gfMul _ _ => "GF.MUL"
  | .gfLog _ => "GF.LOG"
  | .gfExp _ => "GF.EXP"
  | .polyMul _ _ => "POLY.MUL"
  | .polyGen _ => "POLY.GEN"

/-- What the decoder reads from an instruction whose `nbits` bits are `w`; every command is one 32-bit word (30 R80), so the
bits above `nbits` are zero and a longer instruction is none. -/
def decodeTableWord (nbits w : Nat) : Option Instr :=
  if nbits ≤ 32 then (decode (BitVec.ofNat 32 (w % 2 ^ nbits))).toOption else none

end Sys2Proof
end

