-- ==== Sys2Proof/Machine/Flags.lean ====
section
/-! DEFINITION. The flags of STATUS (10 R27): their places, setting them, and write-1-to-clear. -/

namespace Sys2Proof.Machine

/-- The defined bits of STATUS (10 R27). -/
inductive StatusBit where
  | done
  | errIllegal
  | errLen
  | errLog0
  | errBus
deriving DecidableEq, Repr

/-- The bit number, which for an error is its cause code (10 R27, 60 R161). -/
def StatusBit.number : StatusBit → Nat
  | .done => 0
  | .errIllegal => 1
  | .errLen => 2
  | .errLog0 => 3
  | .errBus => 4

/-- The flag is 1. -/
def flagIsSet (status : BitVec 5) (b : StatusBit) : Bool := status.getLsbD b.number

/-- `STATUS[b] <- 1`, every other flag kept. -/
def setFlag (b : StatusBit) (status : BitVec 5) : BitVec 5 := status ||| (1#5 <<< b.number)

/-- The host's write of `v` to STATUS: `STATUS[4:0] & ~v[4:0]` (20 R56). -/
def clearFlags (v : Word) (status : BitVec 5) : BitVec 5 := status &&& ~~~(v.setWidth 5)

end Sys2Proof.Machine
end

