-- ==== Sys2Proof/Machine/Field.lean ====
section
/-! DEFINITION. Carry-less multiplication and the antilog table that a reduction polynomial and α generate (10 R32), and the
check of a configuration (00 R6, R7). -/

namespace Sys2Proof.Machine

/-- Continue with a byte once its value is known: equal to `k x` (`withByte_eq`). Written by cases on the number, so that
Lean's kernel computes the byte once before it goes on. -/
def withByte {α : Type} (x : Byte) (k : Byte → α) : α :=
  match x.toNat with
  | 0 => k 0
  | n + 1 => k (BitVec.ofNat 8 (n + 1))

/-- The 15-bit carry-less product of two bytes: the first loop of `clmulmod` (10 R32). -/
def clmul (a b : Byte) : BitVec 15 :=
  [0, 1, 2, 3, 4, 5, 6, 7].foldl (fun p k => if b.getLsbD k then p ^^^ (a.setWidth 15 <<< k) else p) 0

/-- The reduction modulo the reduction polynomial: the second loop of `clmulmod` (10 R32). -/
def reduceBy (fieldPoly : BitVec 9) (p : BitVec 15) : BitVec 15 :=
  [14, 13, 12, 11, 10, 9, 8].foldl
    (fun p k => if p.getLsbD k then p ^^^ (fieldPoly.setWidth 15 <<< (k - 8)) else p) p

/-- `clmulmod(a, b)`, the product of two bytes as polynomials over GF(2), reduced modulo `FIELD_POLY` (10 R32). -/
def clmulmod (fieldPoly : BitVec 9) (a b : Byte) : Byte := (reduceBy fieldPoly (clmul a b)).setWidth 8

/-- `n` entries of the antilog table, from the entry `x` on: each next one is `clmulmod(EXP[i], ALPHA)` (10 R32). -/
def powersFrom (fieldPoly : BitVec 9) (alpha : Byte) : Nat → Byte → List Byte
  | 0, _ => []
  | n + 1, x => withByte x fun x => x :: powersFrom fieldPoly alpha n (clmulmod fieldPoly x alpha)

/-- The table `EXP[0..254]`, with `EXP[0] = 0x01` (10 R32). -/
def expTable (fieldPoly : BitVec 9) (alpha : Byte) : List Byte := powersFrom fieldPoly alpha 255 1

/-- The set of bytes that a table holds, bit `x` for the byte `x`. -/
def bytesIn (table : List Byte) : Nat := table.foldl (fun seen x => seen ||| 2 ^ x.toNat) 0

/-- The configurations the model accepts: the ranges of 00 R6 and the check of 00 R7. The table has 255 entries, so it holds
each of the 255 nonzero bytes exactly once when the bytes it holds are all the nonzero ones and no other. -/
def acceptsConfig (fieldPoly : BitVec 9) (alpha : Byte) (polyMax : Nat) : Bool :=
  fieldPoly.getLsbD 8 && alpha != 0 && decide (1 ≤ polyMax) && decide (polyMax ≤ 64) &&
    bytesIn (expTable fieldPoly alpha) == 2 ^ 256 - 2

end Sys2Proof.Machine
end

