-- ==== Sys2Proof/Config.lean ====
section
/-! DEFINITION. The configuration of the block (00 R6) and its free value `BUF_INIT`. -/

namespace Sys2Proof

/-- The three polynomial buffers (10 R34, R35). -/
inductive BufferId where
  | pa
  | pb
  | pr
deriving DecidableEq, Repr

/-- The parameters of 00 R6 that a rule depends on. "A model must refuse a configuration that fails this check" (00 R7): no
value of this type fails it (log entry 6). `CMD_LATENCY` and `RESET_STYLE` are unobservable (log entry 9). -/
structure Config where
  fieldPoly : BitVec 9
  alpha     : Byte
  polyMax   : Nat
  accepted  : Machine.acceptsConfig fieldPoly alpha polyMax = true
deriving DecidableEq, Repr

/-- The default configuration of 00 R6. -/
def Config.default : Config where
  fieldPoly := 0x11D
  alpha := 0x02
  polyMax := 32
  accepted := by decide +kernel

/-- The configuration with these parameters, or none where 00 R6 and R7 refuse it. -/
def Config.make (fieldPoly : BitVec 9) (alpha : Byte) (polyMax : Nat) : Option Config :=
  if h : Machine.acceptsConfig fieldPoly alpha polyMax = true then some ⟨fieldPoly, alpha, polyMax, h⟩ else none

/-- FREE VALUE `BUF_INIT` (00 R6, 93 U1; log entry 4): the byte that entry `i` of a buffer holds after the reset number
`draw`, until it is written. It has no body: nothing can be proved of it but that it is some byte. -/
opaque Config.bufInit (draw : Nat) (buffer : BufferId) (i : Nat) : Byte

end Sys2Proof
end

