-- ==== Sys2Proof/Machine/State.lean ====
section
/-! DEFINITION. The state of the block (10 R20), the host's events, the outcomes' reasons, and the state after reset. -/

namespace Sys2Proof.Machine

/-- The written entries of one polynomial buffer: cells (entry index, byte), indices strictly rising (`Memory.wf`). An entry
with no cell holds its `BUF_INIT` draw (log entry 4). -/
abbrev Memory := List Host.Cell

/-- What can happen at the block's pins: the bus transactions of 20 R52 and the reset of 70 R190. -/
inductive HostEvent where
  /-- `MemRead(addr, 4)` (20 R55) -/
  | read (addr : Addr)
  /-- `MemWrite(addr, 4, v)` with byte enables `be` (20 R56) -/
  | write (addr : Addr) (be : BitVec 4) (v : Word)
  /-- reset between two transactions (70 R190) -/
  | reset
  /-- reset while the command `w`, just written to CMD, runs (70 R190, 93 U13) -/
  | resetDuringCommand (w : Word)
deriving DecidableEq, Repr

/-- What the block answers on the bus. There is no error response (20 R52). -/
inductive Response where
  /-- the 32 bits a read returns (20 R55) -/
  | data (v : Word)
  /-- a write has completed (20 R52) -/
  | written
deriving DecidableEq, Repr

/-- The state of the block (10 R20). `ID`, `PARAM`, `CMD`, `EXP` and `LOG` are constants or hold nothing; they are computed
where they are read (`readReg`, `expRom`, `logRom`). The last four fields are the model's own. -/
structure State where
  /-- `STATUS[4:0]` (10 R27) -/
  status   : BitVec 5
  /-- `RESULT[7:0]` (10 R28) -/
  result   : Byte
  /-- `RLEN[6:0]` (10 R29) -/
  rlen     : BitVec 7
  /-- `ERRCMD` (10 R30) -/
  errcmd   : Word
  /-- `ERRADDR[11:0]` (10 R31) -/
  erraddr  : Addr
  /-- the written entries of `PA` (10 R34) -/
  pa       : Memory
  /-- the written entries of `PB` (10 R34) -/
  pb       : Memory
  /-- the written entries of `PR` (10 R35) -/
  pr       : Memory
  /-- the configuration in force (00 R6; log entry 5) -/
  cfg      : Config
  /-- the number of the last reset, which `Config.bufInit` is applied to (log entry 4) -/
  draws    : Nat
  /-- the events the host has yet to be served, oldest first (10 R20; log entry 2) -/
  pending  : List HostEvent
  /-- the answer to the last transaction since reset (20 R52; log entry 3) -/
  response : Option Response
deriving DecidableEq, Repr

/-- Why the machine would stop with a fault: never. "The block has no traps" (60 R160), no command can run forever (70 R206),
and after every error it "goes on accepting commands" (60 R178); its errors are bits of STATUS. Raised by nothing (safe). -/
inductive Fault where
deriving DecidableEq, Repr

/-- Why an instruction would be refused. -/
inductive Refusal where
  /-- An instruction with no meaning yet, by its mnemonic; raised by an arm of exec only, and none is left (safe). -/
  | notModelled (mnemonic : String)
deriving DecidableEq, Repr

/-- The state after reset (10 R38), in the default configuration (log entry 5), with no event pending. -/
def State.reset : State where
  status := 0
  result := 0
  rlen := 0
  errcmd := 0
  erraddr := 0
  pa := []
  pb := []
  pr := []
  cfg := Config.default
  draws := 0
  pending := []
  response := none

end Sys2Proof.Machine
end

