-- ==== Sys2Proof/Machine/Ops.lean ====
section
/-! DEFINITION. The named operations the commands share: buffer entries, the field and polynomial functions, raising an
error and completing a command. -/

namespace Sys2Proof.Machine

/-! ### Buffer entries -/

/-- The byte of a written entry. -/
def lookupCell : Memory → Nat → Option Byte
  | [], _ => none
  | (j, v) :: m, i => if i = j then some v else lookupCell m i

/-- Write an entry, keeping the indices strictly rising. -/
def insertCell : Memory → Nat → Byte → Memory
  | [], i, v => [(i, v)]
  | (j, u) :: m, i, v =>
    if i < j then (i, v) :: (j, u) :: m
    else if i = j then (i, v) :: m
    else (j, u) :: insertCell m i v

/-- Write the bytes of a list to the entries `i`, `i + 1`, … -/
def insertCells : Memory → Nat → List Byte → Memory
  | m, _, [] => m
  | m, i, v :: vs => insertCells (insertCell m i v) (i + 1) vs

/-- The indices are strictly rising. -/
def rising : Memory → Bool
  | [] => true
  | [_] => true
  | c :: d :: m => decide (c.1 < d.1) && rising (d :: m)

/-- The canonical form of a buffer of `capacity` entries: indices strictly rising and below the capacity. -/
def Memory.wf (capacity : Nat) (m : Memory) : Bool := rising m && m.all fun c => decide (c.1 < capacity)

/-- The written entries of a buffer. -/
def State.buffer (s : State) : BufferId → Memory
  | .pa => s.pa
  | .pb => s.pb
  | .pr => s.pr

/-- Replace the written entries of a buffer. -/
def State.setBuffer (s : State) (b : BufferId) (m : Memory) : State :=
  match b with
  | .pa => { s with pa := m }
  | .pb => { s with pb := m }
  | .pr => { s with pr := m }

/-- `PA[i]`, `PB[i]` or `PR[i]`: the byte written last, or the `BUF_INIT` draw (10 R34, R35, R38). -/
def State.entry (s : State) (b : BufferId) (i : Nat) : Byte :=
  match lookupCell (s.buffer b) i with
  | some v => v
  | none => Config.bufInit s.draws b i

/-- `P[0..n-1]` of a buffer, most-significant coefficient first (00 R10). -/
def State.entries (s : State) (b : BufferId) (n : Nat) : List Byte := (List.range n).map (s.entry b)

/-- Write one buffer entry. -/
def State.writeEntry (s : State) (b : BufferId) (i : Nat) (v : Byte) : State :=
  s.setBuffer b (insertCell (s.buffer b) i v)

/-! ### Field functions -/

/-- `EXP[i]`, for `i` in 0..254 (10 R32). -/
def expRom (c : Config) (i : Nat) : Byte := (expTable c.fieldPoly c.alpha).getD i 0

/-- `LOG[a]`, for `a` in 1..255: the index at which `EXP` holds `a`, "`LOG[EXP[i]] = i`" (10 R32). `LOG[0]` does not exist,
and no operation reads it (log entry 14). -/
def logRom (c : Config) (a : Byte) : Nat := (expTable c.fieldPoly c.alpha).idxOf a

/-- Field addition (40 R101). -/
def gfadd (a b : Byte) : Byte := a ^^^ b

/-- The antilogarithm `EXP[e mod 255]` (40 R102). -/
def gfexp (c : Config) (e : Nat) : Byte := expRom c (e % 255)

/-- The logarithm `LOG[a]`, for `a ≠ 0` (40 R102). -/
def gflog (c : Config) (a : Byte) : Nat := logRom c a

/-- Field multiplication through the tables; a zero factor gives 0 (40 R103, 90 C1). -/
def gfmul (c : Config) (a b : Byte) : Byte :=
  if a = 0 ∨ b = 0 then 0 else expRom c ((logRom c a + logRom c b) % 255)

/-! ### Polynomial functions -/

/-- Coefficient `k` of the product: the XOR of `gfmul(A[i], B[j])` over all `i + j = k` (41 R130). -/
def polyCoeff (c : Config) (A B : List Byte) (k : Nat) : Byte :=
  (List.range A.length).foldl
    (fun t i => if i ≤ k ∧ k - i < B.length then gfadd t (gfmul c (A.getD i 0) (B.getD (k - i) 0)) else t) 0

/-- The coefficients `k`, `k + 1`, …, `n` of them. -/
def polyCoeffs (c : Config) (A B : List Byte) : Nat → Nat → List Byte
  | _, 0 => []
  | k, n + 1 => withByte (polyCoeff c A B k) fun t => t :: polyCoeffs c A B (k + 1) n

/-- `polymul(A, B)`, with exactly `LA + LB − 1` coefficients, for LA ≥ 1 and LB ≥ 1 (41 R130). -/
def polymul (c : Config) (A B : List Byte) : List Byte := polyCoeffs c A B 0 (A.length + B.length - 1)

/-- The generator polynomial `∏(x − α^i)`, `i = 0..n−1` (41 R132). -/
def genpoly (c : Config) : Nat → List Byte
  | 0 => [0x01]
  | i + 1 => polymul c (genpoly c i) [0x01, gfexp c i]

/-- Horner's rule (41 R133). -/
def polyeval (c : Config) (P : List Byte) (x : Byte) : Byte := P.foldl (fun acc p => gfmul c acc x ^^^ p) 0

/-! ### Errors and completion -/

/-- The errors, with what each records (60 R161). -/
inductive BlockError where
  /-- ERR_ILLEGAL: the command word -/
  | illegal (w : Word)
  /-- ERR_LEN: the command word -/
  | len (w : Word)
  /-- ERR_LOG0: the command word -/
  | log0 (w : Word)
  /-- ERR_BUS: the byte address of the access -/
  | bus (addr : Addr)
deriving DecidableEq, Repr

/-- The STATUS bit of an error (60 R161). -/
def BlockError.flag : BlockError → StatusBit
  | .illegal _ => .errIllegal
  | .len _ => .errLen
  | .log0 _ => .errLog0
  | .bus _ => .errBus

/-- `STATUS[b] <- 1`. -/
def State.setStatus (s : State) (b : StatusBit) : State := { s with status := setFlag b s.status }

/-- The end of a command: `STATUS.DONE <- 1` (30 R85, 60 R169). -/
def complete (s : State) : State := s.setStatus .done

/-- `raise E(info)` (60 R162), the block's one way of taking an error. There is no handler, nothing is saved to return to,
and "there is no return-from-trap operation" (60 R168). -/
def raise (e : BlockError) (s : State) : State :=
  match e with
  | .illegal w => complete { s.setStatus e.flag with errcmd := w }
  | .len w => complete { s.setStatus e.flag with errcmd := w }
  | .log0 w => complete { s.setStatus e.flag with errcmd := w }
  | .bus addr => { s.setStatus e.flag with erraddr := addr }

/-- A scalar command completes with a result: `RESULT <- zext_32(v)` (40 R106 to R109), then DONE. -/
def finishScalar (v : Byte) (s : State) : State := complete { s with result := v }

/-- A polynomial command completes with a result: `PR[k] <- T[k]` for every coefficient and `RLEN` their number (41 R134,
R135), then DONE. -/
def finishPoly (T : List Byte) (s : State) : State :=
  complete { s with pr := insertCells s.pr 0 T, rlen := BitVec.ofNat 7 T.length }

end Sys2Proof.Machine
end

