-- ==== Sys2Proof/Machine/FieldOps.lean ====
section
/-! DEFINITION. The meanings of NOP, GF.ADD, GF.MUL, GF.LOG and GF.EXP (40 R105 to R110). -/

namespace Sys2Proof.Machine

/-- NOP: "(nothing)", then DONE (40 R105). -/
def execNop (s : State) : Host.Outcome State Fault Refusal := .next (complete s)

/-- GF.ADD: `RESULT <- zext_32(a ^ b)` (40 R106). -/
def execGfAdd (a b : Byte) (s : State) : Host.Outcome State Fault Refusal := .next (finishScalar (gfadd a b) s)

/-- GF.MUL: `RESULT <- zext_32(gfmul(a, b))` (40 R107). -/
def execGfMul (a b : Byte) (s : State) : Host.Outcome State Fault Refusal := .next (finishScalar (gfmul s.cfg a b) s)

/-- GF.LOG: ERR_LOG0 for `a = 0`, else `RESULT <- zext_32(LOG[a])` (40 R108). -/
def execGfLog (a : Byte) (s : State) : Host.Outcome State Fault Refusal :=
  if a = 0 then .next (raise (.log0 (encode (.gfLog a))) s)
  else .next (finishScalar (BitVec.ofNat 8 (gflog s.cfg a)) s)

/-- GF.EXP: `RESULT <- zext_32(EXP[e mod 255])` (40 R109). -/
def execGfExp (e : Nat) (s : State) : Host.Outcome State Fault Refusal := .next (finishScalar (gfexp s.cfg e) s)

end Sys2Proof.Machine
end

