-- ==== Sys2Proof/Machine/PolyOps.lean ====
section
/-! DEFINITION. The meanings of POLY.MUL and POLY.GEN (41 R134, R135). -/

namespace Sys2Proof.Machine

/-- The lengths that POLY.MUL refuses; the sum is taken without wrap-around (41 R134). -/
def badMulLengths (polyMax la lb : Nat) : Bool :=
  decide (la = 0 ∨ lb = 0 ∨ polyMax < la ∨ polyMax < lb ∨ polyMax < la + lb - 1)

/-- The degrees that POLY.GEN refuses (41 R135). -/
def badGenDegree (polyMax n : Nat) : Bool := decide (polyMax < n + 1)

/-- POLY.MUL: ERR_LEN for bad lengths, else `PR[0..LA+LB-2] <- polymul(PA[0..LA-1], PB[0..LB-1])` and RLEN (41 R134). -/
def execPolyMul (la lb : Nat) (s : State) : Host.Outcome State Fault Refusal :=
  if badMulLengths s.cfg.polyMax la lb then .next (raise (.len (encode (.polyMul la lb))) s)
  else .next (finishPoly (polymul s.cfg (s.entries .pa la) (s.entries .pb lb)) s)

/-- POLY.GEN: ERR_LEN for a degree too large, else `PR[0..n] <- genpoly(n)` and RLEN (41 R135). -/
def execPolyGen (n : Nat) (s : State) : Host.Outcome State Fault Refusal :=
  if badGenDegree s.cfg.polyMax n then .next (raise (.len (encode (.polyGen n))) s)
  else .next (finishPoly (genpoly s.cfg n) s)

end Sys2Proof.Machine
end

