-- ==== Sys2Proof/Machine/Dispatch.lean ====
section
/-! DEFINITION. Which meaning each command has (30 R85). -/

namespace Sys2Proof.Machine

def exec (i : Instr) (s : State) : Host.Outcome State Fault Refusal :=
  match i with
  -- field operations (40)
  | .nop => Sys2Proof.Machine.execNop s
  | .gfAdd a b => Sys2Proof.Machine.execGfAdd a b s
  | .gfMul a b => Sys2Proof.Machine.execGfMul a b s
  | .gfLog a => Sys2Proof.Machine.execGfLog a s
  | .gfExp e => Sys2Proof.Machine.execGfExp e s
  -- polynomial operations (41)
  | .polyMul la lb => Sys2Proof.Machine.execPolyMul la lb s
  | .polyGen n => Sys2Proof.Machine.execPolyGen n s

end Sys2Proof.Machine
end

