-- ==== Sys2Proof/Machine/Bus.lean ====
section
/-! DEFINITION. The host bus: address decode, reads, writes, issuing a command, and reset (20, 30 R85, 70 R190). -/

namespace Sys2Proof.Machine

/-! ### The register map -/

/-- The eight registers (10 R20, R23). -/
inductive Reg where
  | id
  | param
  | cmd
  | status
  | result
  | rlen
  | errcmd
  | erraddr
deriving DecidableEq, Repr

/-- The byte offset of a register (10 R23). -/
def Reg.offset : Reg → Addr
  | .id => 0x000
  | .param => 0x004
  | .cmd => 0x008
  | .status => 0x00C
  | .result => 0x010
  | .rlen => 0x014
  | .errcmd => 0x018
  | .erraddr => 0x01C

/-- The byte offset of a buffer's entry 0 (10 R23). -/
def bufferBase : BufferId → Nat
  | .pa => 0x100
  | .pb => 0x200
  | .pr => 0x300

/-- The byte offset of a buffer entry, `base + 4·i` (10 R23, 30 R88). -/
def entryAddr (b : BufferId) (i : Nat) : Addr := BitVec.ofNat 12 (bufferBase b + 4 * i)

/-- What an address reaches (20 R51). -/
inductive Target where
  | reg (r : Reg)
  | entry (b : BufferId) (i : Nat)
deriving DecidableEq, Repr

/-- The register at word `n` of the register block 0x000 to 0x01C (20 R51). -/
def regAt : Nat → Option Reg
  | 0 => some .id
  | 1 => some .param
  | 2 => some .cmd
  | 3 => some .status
  | 4 => some .result
  | 5 => some .rlen
  | 6 => some .errcmd
  | 7 => some .erraddr
  | _ => none

/-- The buffer whose 256-byte window holds the address (20 R51). -/
def bufferAt (addr : Addr) : Option BufferId :=
  match addr.toNat / 0x100 with
  | 1 => some .pa
  | 2 => some .pb
  | 3 => some .pr
  | _ => none

/-- `target(addr)` of a word-aligned address; none where it is unmapped (20 R51). -/
def target (polyMax : Nat) (addr : Addr) : Option Target :=
  match bufferAt addr with
  | some b =>
    let i := (addr.toNat - bufferBase b) / 4
    if i < polyMax then some (.entry b i) else none
  | none => (regAt (addr.toNat / 4)).map .reg

/-- `addr[1:0] = 0` (20 R54). -/
def aligned (addr : Addr) : Bool := addr.extractLsb' 0 2 == 0

/-- What an access to `addr` reaches; none where 20 R55 and R56 refuse the address: misaligned or unmapped. -/
def reach (polyMax : Nat) (addr : Addr) : Option Target := if aligned addr then target polyMax addr else none

/-! ### Reads -/

/-- The constant of `ID` (10 R24). -/
def idValue : Word := 0x47460001

/-- `PARAM`: the configuration as bits 31:24 = 0, 23:16 = ALPHA, 15:8 = FIELD_POLY[7:0], 7:0 = POLY_MAX (10 R25). -/
def paramValue (c : Config) : Word := 0#8 ++ c.alpha ++ c.fieldPoly.extractLsb' 0 8 ++ BitVec.ofNat 8 c.polyMax

/-- What a read of a register returns (20 R55). -/
def readReg (s : State) : Reg → Word
  | .id => idValue
  | .param => paramValue s.cfg
  | .cmd => 0
  | .status => s.status.setWidth 32
  | .result => s.result.setWidth 32
  | .rlen => s.rlen.setWidth 32
  | .errcmd => s.errcmd
  | .erraddr => s.erraddr.setWidth 32

/-- What a read of a target returns (20 R55). -/
def readTarget (s : State) : Target → Word
  | .reg r => readReg s r
  | .entry b i => (s.entry b i).setWidth 32

/-- `MemRead(addr, 4)`: a refused read raises ERR_BUS and returns 0 (20 R55). -/
def busRead (addr : Addr) (s : State) : State :=
  match reach s.cfg.polyMax addr with
  | none => { raise (.bus addr) s with response := some (.data 0) }
  | some t => { s with response := some (.data (readTarget s t)) }

/-! ### Writes -/

/-- Issue a command word (30 R85): an illegal word raises ERR_ILLEGAL, any other runs its command to completion. -/
def issue (w : Word) (s : State) : Host.Outcome State Fault Refusal :=
  match decode w with
  | .error _ => .next (raise (.illegal w) s)
  | .ok i => exec i s

/-- A full-word write to a mapped location: the `case` of 20 R56. -/
def writeTarget (addr : Addr) (v : Word) (s : State) : Target → Host.Outcome State Fault Refusal
  | .reg .cmd => issue v s
  | .reg .status => .next { s with status := clearFlags v s.status }
  | .entry .pa i => .next (s.writeEntry .pa i (v.extractLsb' 0 8))
  | .entry .pb i => .next (s.writeEntry .pb i (v.extractLsb' 0 8))
  | .entry .pr _ => .next (raise (.bus addr) s)
  | .reg _ => .next (raise (.bus addr) s)

/-- `MemWrite(addr, 4, v)` with byte enables `be` (20 R56). The write completes normally even when it is refused (20 R52). -/
def busWrite (addr : Addr) (be : BitVec 4) (v : Word) (s : State) : Host.Outcome State Fault Refusal :=
  let s := { s with response := some .written }
  match reach s.cfg.polyMax addr with
  | none => .next (raise (.bus addr) s)
  | some t => if be = 0b1111 then writeTarget addr v s t else .next (raise (.bus addr) s)

/-! ### Reset and events -/

/-- Reset (70 R190): every register at its value of 10 R38, every buffer entry a fresh `BUF_INIT` draw. The configuration is
kept (70 R192), and so is the host's stream, which is not the block's (log entry 15). -/
def resetBlock (s : State) : State :=
  { State.reset with cfg := s.cfg, draws := s.draws + 1, pending := s.pending }

/-- Perform one event of the host. A reset that comes while a command runs abandons the command, which leaves no trace
(70 R190, 93 U13; log entry 8). -/
def perform (e : HostEvent) (s : State) : Host.Outcome State Fault Refusal :=
  match e with
  | .read addr => .next (busRead addr s)
  | .write addr be v => busWrite addr be v s
  | .reset => .next (resetBlock s)
  | .resetDuringCommand _ => .next (resetBlock s)

/-- The host's next event is `e`, before all others. -/
def State.offer (s : State) (e : HostEvent) : State := { s with pending := e :: s.pending }

/-! ### Host-program statements (30 R88) -/

/-- `wr <addr>, <value>` -/
def wr (addr : Addr) (v : Word) : HostEvent := .write addr 0b1111 v

/-- `wr.be <addr>, <value>, <be>` -/
def wrBe (addr : Addr) (v : Word) (be : BitVec 4) : HostEvent := .write addr be v

/-- `rd <addr>` -/
def rd (addr : Addr) : HostEvent := .read addr

/-- `cmd <command>` is `wr 0x008, <encoding of command>`. -/
def cmd (i : Instr) : HostEvent := wr Reg.cmd.offset (encode i)

end Sys2Proof.Machine
end

