-- ==== Sys2Proof/Machine/Step.lean ====
section
/-! DEFINITION. One step: the next event of the host's stream. -/

namespace Sys2Proof.Machine

/-- The block performs the host's events "one at a time in the order the host issues them" (20 R61), each whole before the
next (20 R60). With none pending it "holds its state unchanged and does nothing" (60 R177). -/
def step (s : State) : Host.Outcome State Fault Refusal :=
  match s.pending with
  | [] => .next s
  | e :: rest => perform e { s with pending := rest }

/-- `s`, with the host about to write the command word whose `nbits` bits are `w` to CMD: the block fetches nothing, "it
executes one command each time the host writes `CMD`" (10 R22; log entry 2). -/
def State.withFetchWord (s : State) (nbits w : Nat) : State :=
  s.offer (wr Reg.cmd.offset (BitVec.ofNat 32 (w % 2 ^ nbits)))

end Sys2Proof.Machine
end

