-- ==== Sys2Proof/Machine/Assembler.lean ====
section
/-! DEFINITION. The assembly syntax of 30 R86 and the pseudo-instructions of 30 R87. The machine uses none of it.

A line is a list of characters: a mnemonic in lower case, then operands "separated by a comma and optional spaces". What the
rule leaves open of the text (spaces around the line, letter case of hexadecimal digits) is log entry 16. -/

namespace Sys2Proof.Machine

/-- Drop the spaces at both ends. -/
def trimSpaces (l : List Char) : List Char :=
  ((l.dropWhile (· == ' ')).reverse.dropWhile (· == ' ')).reverse

/-- The parts of a text between its commas. -/
def splitAtCommas : List Char → List (List Char)
  | [] => [[]]
  | c :: cs =>
    if c = ',' then [] :: splitAtCommas cs
    else match splitAtCommas cs with
      | [] => [[c]]
      | p :: ps => (c :: p) :: ps

/-- The value of a digit in a base. -/
def digitValue (base : Nat) (c : Char) : Option Nat :=
  let n := c.toNat
  let v := if 48 ≤ n ∧ n ≤ 57 then n - 48
    else if 97 ≤ n ∧ n ≤ 102 then n - 87
    else if 65 ≤ n ∧ n ≤ 70 then n - 55
    else base
  if v < base then some v else none

/-- The number that digits write, after the digits that gave `acc`. -/
def digitsValue (base : Nat) : Nat → List Char → Option Nat
  | acc, [] => some acc
  | acc, c :: cs => (digitValue base c).bind fun d => digitsValue base (base * acc + d) cs

/-- A numeric operand "in decimal or `0x` hexadecimal" (30 R86). -/
def numberValue : List Char → Option Nat
  | [] => none
  | ['0', 'x'] => none
  | '0' :: 'x' :: ds => digitsValue 16 0 ds
  | ds => digitsValue 10 0 ds

/-- An operand: a number in 0..255; "an assembler refuses a value outside that range" (30 R86). -/
def operandValue (l : List Char) : Option Nat := (numberValue (trimSpaces l)).bind fun n => if n ≤ 255 then some n else none

/-- The operands of a list of parts; none when one is no operand. -/
def operandValues : List (List Char) → Option (List Nat)
  | [] => some []
  | p :: ps => (operandValue p).bind fun n => (operandValues ps).map (n :: ·)

/-- `gf.sub a, b` is `gf.add a, b` (30 R87). -/
def pseudoSub (a b : Byte) : Instr := .gfAdd a b

/-- `gf.mov a` is `gf.add a, 0` (30 R87). -/
def pseudoMov (a : Byte) : Instr := .gfAdd a 0

/-- `gf.clr` is `gf.add 0, 0` (30 R87). -/
def pseudoClr : Instr := .gfAdd 0 0

/-- `gf.one` is `gf.exp 0` (30 R87). -/
def pseudoOne : Instr := .gfExp 0

/-- `gf.sq a` is `gf.mul a, a` (30 R87). -/
def pseudoSq (a : Byte) : Instr := .gfMul a a

/-- The commands and pseudo-instructions without an operand. -/
def plainMnemonics : List (String × Instr) := [("nop", .nop), ("gf.clr", pseudoClr), ("gf.one", pseudoOne)]

/-- Those with one operand. -/
def unaryMnemonics : List (String × (Nat → Instr)) :=
  [("gf.log", fun a => .gfLog (toField a)), ("gf.exp", .gfExp), ("poly.gen", .polyGen),
   ("gf.mov", fun a => pseudoMov (toField a)), ("gf.sq", fun a => pseudoSq (toField a))]

/-- Those with two operands. -/
def binaryMnemonics : List (String × (Nat → Nat → Instr)) :=
  [("gf.add", fun a b => .gfAdd (toField a) (toField b)), ("gf.mul", fun a b => .gfMul (toField a) (toField b)),
   ("poly.mul", .polyMul), ("gf.sub", fun a b => pseudoSub (toField a) (toField b))]

/-- The entry of a mnemonic in one of the three lists. -/
def findMnemonic {α : Type} (mnemonic : List Char) (table : List (String × α)) : Option α :=
  (table.find? fun row => row.1.toList == mnemonic).map Prod.snd

/-- The command of a mnemonic and its operands; an assembler "refuses a missing or extra operand" (30 R86). -/
def commandOf (mnemonic : List Char) : List Nat → Option Instr
  | [] => findMnemonic mnemonic plainMnemonics
  | [a] => (findMnemonic mnemonic unaryMnemonics).map fun f => f a
  | [a, b] => (findMnemonic mnemonic binaryMnemonics).map fun f => f a b
  | _ => none

/-- The command that one line of assembly writes. -/
def assembleLine (line : List Char) : Option Instr :=
  let line := trimSpaces line
  let rest := trimSpaces (line.dropWhile (· != ' '))
  (if rest = [] then some [] else operandValues (splitAtCommas rest)).bind (commandOf (line.takeWhile (· != ' ')))

/-- The text of a line as 30 R86 writes it: the mnemonic and, after a space, the texts of the operands between commas. -/
def lineOf (mnemonic : String) (operands : List (List Char)) : String :=
  String.ofList (mnemonic.toList ++ if operands = [] then [] else ' ' :: List.intercalate [','] operands)

/-- The command word that one line of assembly writes (30 R86). -/
def assemble (line : String) : Option Word := (assembleLine line.toList).map encode

end Sys2Proof.Machine
end

