-- ==== Sys2Proof/Safety.lean ====
section
/-! DEFINITION. The terms the claims use: the address map and the causes of errors written out from the spec's tables, what a
command leaves unchanged, and the invariant of the block. -/

namespace Sys2Proof.Machine

/-! ### The address map, as 20 R51 lists it -/

/-- The byte address lies in the window of a buffer of `n` entries (20 R51). -/
def inWindow (n : Nat) (b : BufferId) (a : Nat) : Bool := decide (bufferBase b ≤ a ∧ a < bufferBase b + 4 * n)

/-- The byte address is mapped, whatever its low bits (20 R51). -/
def isMapped (n a : Nat) : Bool := decide (a < 0x20) || inWindow n .pa a || inWindow n .pb a || inWindow n .pr a

/-- The host may write there: CMD, STATUS, PA and PB (10 R23, 20 R56). -/
def isWritable (n a : Nat) : Bool := decide (a = 0x008) || decide (a = 0x00C) || inWindow n .pa a || inWindow n .pb a

/-- The address of an access that the bus refuses (20 R55, R56); none for an access it performs, and for a reset. -/
def refusedAddr (n : Nat) : HostEvent → Option Addr
  | .read addr => if addr.toNat % 4 = 0 ∧ isMapped n addr.toNat then none else some addr
  | .write addr be _ => if addr.toNat % 4 = 0 ∧ isWritable n addr.toNat ∧ be = 0b1111 then none else some addr
  | .reset => none
  | .resetDuringCommand _ => none

/-- The command word that an event issues: a full-word write to CMD (10 R26). -/
def commandOf? : HostEvent → Option Word
  | .write addr be w => if addr = 0x008 ∧ be = 0b1111 then some w else none
  | .read _ => none
  | .reset => none
  | .resetDuringCommand _ => none

/-- The event is a reset (70 R190). -/
def isReset : HostEvent → Bool
  | .reset => true
  | .resetDuringCommand _ => true
  | .read _ => false
  | .write _ _ _ => false

/-! ### Commands and their errors -/

/-- The words that 30 R85 refuses, as 60 R163 lists them. -/
def illegalWord (w : Word) : Prop :=
  7 ≤ (w.extractLsb' 28 4).toNat ∨ w.extractLsb' 16 12 ≠ 0 ∨
    (w.extractLsb' 28 4 = 0 ∧ (w.extractLsb' 8 8 ≠ 0 ∨ w.extractLsb' 0 8 ≠ 0)) ∨
    ((w.extractLsb' 28 4 = 3 ∨ w.extractLsb' 28 4 = 4 ∨ w.extractLsb' 28 4 = 6) ∧ w.extractLsb' 0 8 ≠ 0)

/-- A word that raises ERR_LEN (60 R164) in a block of capacity `n`. -/
def lengthErrorWord (n : Nat) (w : Word) : Prop :=
  (∃ la lb, decode w = .ok (.polyMul la lb) ∧ (la = 0 ∨ lb = 0 ∨ n < la ∨ n < lb ∨ n < la + lb - 1)) ∨
    (∃ d, decode w = .ok (.polyGen d) ∧ n < d + 1)

/-- A word that raises a command error: ERR_ILLEGAL, ERR_LEN or ERR_LOG0 (60 R161). -/
def erroneousWord (n : Nat) (w : Word) : Prop := illegalWord w ∨ lengthErrorWord n w ∨ decode w = .ok (.gfLog 0)

/-- The field element that a scalar command without error writes (40 R106 to R109); none for any other command. -/
def scalarResult (c : Config) : Instr → Option Byte
  | .gfAdd a b => some (a ^^^ b)
  | .gfMul a b => some (gfmul c a b)
  | .gfLog a => if a = 0 then none else some (BitVec.ofNat 8 (logRom c a))
  | .gfExp e => some (expRom c (e % 255))
  | .nop => none
  | .polyMul _ _ => none
  | .polyGen _ => none

/-- The number of coefficients that a polynomial command without error writes (41 R134, R135); none for any other command. -/
def polyLength (n : Nat) : Instr → Option Nat
  | .polyMul la lb => if 1 ≤ la ∧ 1 ≤ lb ∧ la + lb - 1 ≤ n then some (la + lb - 1) else none
  | .polyGen d => if d + 1 ≤ n then some (d + 1) else none
  | .nop => none
  | .gfAdd _ _ => none
  | .gfMul _ _ => none
  | .gfLog _ => none
  | .gfExp _ => none

/-- The coefficient `k` of a product as 41 R130 writes it: over all pairs of indices that add up to `k`. -/
def convolution (c : Config) (A B : List Byte) (k : Nat) : Byte :=
  (((List.range A.length).product (List.range B.length)).filter fun p => p.1 + p.2 == k).foldl
    (fun t p => t ^^^ gfmul c (A.getD p.1 0) (B.getD p.2 0)) 0

/-! ### What an event leaves unchanged -/

/-- Every entry of the three buffers reads as before. -/
def SameEntries (s t : State) : Prop := ∀ b i, t.entry b i = s.entry b i

/-- The configuration, the draw, the host's stream and the bus answer are as before. -/
structure SameSurroundings (s t : State) : Prop where
  cfg      : t.cfg = s.cfg
  draws    : t.draws = s.draws
  pending  : t.pending = s.pending
  response : t.response = s.response

/-- What a scalar command leaves: all but STATUS and RESULT (40 R110). -/
structure ScalarFrame (s t : State) : Prop where
  rlen         : t.rlen = s.rlen
  errcmd       : t.errcmd = s.errcmd
  erraddr      : t.erraddr = s.erraddr
  entries      : SameEntries s t
  surroundings : SameSurroundings s t

/-- What a polynomial command that writes `n` coefficients leaves: all but STATUS, RLEN and `PR[0..n-1]` (10 R35). -/
structure PolyFrame (n : Nat) (s t : State) : Prop where
  result       : t.result = s.result
  errcmd       : t.errcmd = s.errcmd
  erraddr      : t.erraddr = s.erraddr
  pa           : ∀ i, t.entry .pa i = s.entry .pa i
  pb           : ∀ i, t.entry .pb i = s.entry .pb i
  pr           : ∀ i, n ≤ i → t.entry .pr i = s.entry .pr i
  surroundings : SameSurroundings s t

/-- What a command that raises an error leaves: all but STATUS and ERRCMD (60 R162). -/
structure ErrorFrame (s t : State) : Prop where
  result       : t.result = s.result
  rlen         : t.rlen = s.rlen
  erraddr      : t.erraddr = s.erraddr
  entries      : SameEntries s t
  surroundings : SameSurroundings s t

/-! ### The invariant -/

/-- What holds of every state the block can reach. -/
structure State.Inv (s : State) : Prop where
  /-- the buffers are in their canonical form -/
  pa_wf : Memory.wf s.cfg.polyMax s.pa = true
  pb_wf : Memory.wf s.cfg.polyMax s.pb = true
  pr_wf : Memory.wf s.cfg.polyMax s.pr = true
  /-- RLEN counts coefficients that PR can hold (10 R29) -/
  rlen_le : s.rlen.toNat ≤ s.cfg.polyMax
  /-- every PR entry below RLEN was written: none is a `BUF_INIT` draw (70 R194) -/
  pr_written : ∀ i, i < s.rlen.toNat → (lookupCell s.pr i).isSome = true
  /-- ERRCMD is zero or the word of an erroneous command (10 R30) -/
  errcmd_word : s.errcmd = 0 ∨ erroneousWord s.cfg.polyMax s.errcmd
  /-- a command error's bit is set only when ERRCMD holds the word of an erroneous command (60 R161) -/
  error_recorded :
    (flagIsSet s.status .errIllegal = true ∨ flagIsSet s.status .errLen = true ∨ flagIsSet s.status .errLog0 = true) →
      erroneousWord s.cfg.polyMax s.errcmd

end Sys2Proof.Machine
end

