-- ==== Sys2Proof/Certificates/Slice0/Obligations.lean ====
section
/-! DEFINITION. The statements about the model, from the numbered rules of spec/. Each docstring names the rule. -/

open Sys2Proof
open Sys2Proof.Machine

/-! ### Encoding -/

/-- 30 R80, R81, R86: every well-formed command, with every operand, is read back from its word. -/
def Obligations.EncodeThenDecodeGivesTheCommand : Prop :=
  ∀ i : Instr, i.wf = true → decode (encode i) = .ok i

/-- 30 R82: a word has one meaning. A decoded command is well-formed, and its word is the one decoded. -/
def Obligations.DecodeThenEncodeGivesTheWord : Prop :=
  ∀ (w : Word) (i : Instr), decode w = .ok i → i.wf = true ∧ encode i = w

/-- 30 R82, R85: the decoder and the match and mask table select the same command, at most one row selects a word, and a word
that no row selects raises ERR_ILLEGAL when it is issued. -/
def Obligations.DecodeFollowsTheMatchAndMaskTable : Prop :=
  ∀ w : Word,
    (∀ i, decode w = .ok i → ∃ r ∈ opcodeRows, r.mnemonic = i.mnemonic ∧ r.selects w = true) ∧
    (∀ r ∈ opcodeRows, r.selects w = true → ∃ i, decode w = .ok i ∧ i.mnemonic = r.mnemonic) ∧
    (∀ r ∈ opcodeRows, ∀ r' ∈ opcodeRows, r.selects w = true → r'.selects w = true → r = r') ∧
    ((∀ r ∈ opcodeRows, r.selects w = false) → ∀ s, issue w s = .next (raise (.illegal w) s))

/-- The words that the rules of the seven commands write out (40 R105 to R109, 41 R134, R135). -/
def Obligations.WrittenOutWordsDecode : Prop :=
  decode 0x00000000 = .ok .nop ∧ decode 0x100053CA = .ok (.gfAdd 0x53 0xCA) ∧
  decode 0x200053CA = .ok (.gfMul 0x53 0xCA) ∧ decode 0x30005300 = .ok (.gfLog 0x53) ∧
  decode 0x40000800 = .ok (.gfExp 8) ∧ decode 0x50000302 = .ok (.polyMul 3 2) ∧ decode 0x60000700 = .ok (.polyGen 7)

/-! ### The step -/

/-- 20 R60, R61, 30 R85: when the host's next event is a full-word write to CMD of a word that decodes to `i`, the step is
`exec i` at that state, with the event taken off the stream and the write acknowledged. -/
def Obligations.StepRunsTheDecodedCommand : Prop :=
  ∀ (s : State) (w : Word) (i : Instr) (rest : List HostEvent),
    s.pending = .write 0x008 0b1111 w :: rest → decode w = .ok i →
      step s = exec i { s with pending := rest, response := some .written }

/-- 70 R206, 60 R177, R178: no event stops the block, with none it does nothing, and a polynomial product that is accepted
takes at most `(POLY_MAX+1)²/4` coefficient products. That each step takes exactly the oldest event off the host's stream is
the model's choice: the stream is log entry 2, and that a reset keeps the rest of it is log entry 15. -/
def Obligations.EveryEventCompletes : Prop :=
  (∀ s : State, ∃ t, step s = .next t ∧ (s.pending = [] → t = s) ∧ t.pending = s.pending.tail) ∧
  (∀ n la lb : Nat, badMulLengths n la lb = false → 4 * (la * lb) ≤ (n + 1) ^ 2)

/-- 30 R83, R84, 60 R163: a word that 30 R85 does not accept sets ERR_ILLEGAL and DONE and no other flag, records itself in
ERRCMD, and changes nothing else. Every other word decodes to a command and leaves ERR_ILLEGAL as it was. The only word that
decodes to NOP is 0. -/
def Obligations.IllegalWordsRaiseErrIllegal : Prop :=
  (∀ (s : State) (w : Word), illegalWord w →
    step (s.offer (.write 0x008 0b1111 w)) =
      .next { s with status := s.status ||| 0b00011, errcmd := w, response := some .written }) ∧
  (∀ (s : State) (w : Word), ¬ illegalWord w →
    (∃ i, decode w = .ok i) ∧
      ∃ t, step (s.offer (.write 0x008 0b1111 w)) = .next t ∧
        flagIsSet t.status .errIllegal = flagIsSet s.status .errIllegal) ∧
  (∀ w : Word, decode w = .ok .nop ↔ w = 0)

/-! ### The commands -/

/-- 40 R105, whole. -/
def Obligations.NopOnlySetsDone : Prop :=
  encode .nop = 0x00000000 ∧
  (∀ s : State, ∃ t, exec .nop s = .next t ∧ t.status = s.status ||| 0b00001 ∧ t.result = s.result ∧ ScalarFrame s t) ∧
  (∀ (s : State) (w : Word), w.extractLsb' 28 4 = 0 → w ≠ 0 →
    ∃ t, step (s.offer (.write 0x008 0b1111 w)) = .next t ∧
      flagIsSet t.status .errIllegal = true ∧ t.errcmd = w ∧ t.result = s.result ∧ t.rlen = s.rlen ∧ SameEntries s t)

/-- 40 R106, whole: the encoding, the result, the flags, when the word is illegal, the corner cases and the example. -/
def Obligations.GfAddWritesTheXor : Prop :=
  (∀ a b : Byte, encode (.gfAdd a b) = 0x10000000 ||| a.setWidth 32 <<< 8 ||| b.setWidth 32) ∧
  (∀ (s : State) (a b : Byte), ∃ t, exec (.gfAdd a b) s = .next t ∧
    readReg t .result = (a ^^^ b).setWidth 32 ∧ t.status = s.status ||| 0b00001 ∧ ScalarFrame s t) ∧
  (∀ w : Word, w.extractLsb' 28 4 = 1 →
    (illegalWord w ↔ w.extractLsb' 16 12 ≠ 0) ∧
      (w.extractLsb' 16 12 = 0 → decode w = .ok (.gfAdd (w.extractLsb' 8 8) (w.extractLsb' 0 8)))) ∧
  (∀ s t : State, ∀ a : Byte, (exec (.gfAdd a a) s = .next t → t.result = 0) ∧
    (exec (.gfAdd a 0) s = .next t → t.result = a)) ∧
  (∀ s : State, encode (.gfAdd 0x53 0xCA) = 0x100053CA ∧
    ∃ t, exec (.gfAdd 0x53 0xCA) s = .next t ∧ t.result = 0x99)

/-- 40 R107 with the product of 40 R103 written out, whole: the encoding, the result, the flags, when the word is illegal, the
corner cases, and the examples in the default configuration. -/
def Obligations.GfMulWritesTheFieldProduct : Prop :=
  (∀ a b : Byte, encode (.gfMul a b) = 0x20000000 ||| a.setWidth 32 <<< 8 ||| b.setWidth 32) ∧
  (∀ (s : State) (a b : Byte), ∃ t, exec (.gfMul a b) s = .next t ∧
    readReg t .result =
      (if a = 0 ∨ b = 0 then 0
        else (expTable s.cfg.fieldPoly s.cfg.alpha).getD ((logRom s.cfg a + logRom s.cfg b) % 255) 0).setWidth 32 ∧
    t.status = s.status ||| 0b00001 ∧ ScalarFrame s t) ∧
  (∀ w : Word, w.extractLsb' 28 4 = 2 →
    (illegalWord w ↔ w.extractLsb' 16 12 ≠ 0) ∧
      (w.extractLsb' 16 12 = 0 → decode w = .ok (.gfMul (w.extractLsb' 8 8) (w.extractLsb' 0 8)))) ∧
  (∀ s t : State, ∀ a b : Byte, exec (.gfMul a b) s = .next t →
    (a = 0 ∨ b = 0 → t.result = 0) ∧ (a = 1 → t.result = b) ∧
      (a ≠ 0 → b = gfexp s.cfg (255 - gflog s.cfg a) → t.result = 1)) ∧
  (∀ s t : State, s.cfg = Config.default →
    (exec (.gfMul 0x53 0xCA) s = .next t → t.result = 0x8F) ∧ (exec (.gfMul 0x8E 0x02) s = .next t → t.result = 0x01) ∧
      (exec (.gfMul 0x02 0x80) s = .next t → t.result = 0x1D)) ∧
  encode (.gfMul 0x53 0xCA) = 0x200053CA

/-- 40 R108, whole: the encoding, the result for `a ≠ 0`, the error for `a = 0`, when the word is illegal, the corner cases,
and the examples in the default configuration. -/
def Obligations.GfLogWritesTheLogarithm : Prop :=
  (∀ a : Byte, encode (.gfLog a) = 0x30000000 ||| a.setWidth 32 <<< 8) ∧
  (∀ (s : State) (a : Byte), a ≠ 0 → ∃ t, exec (.gfLog a) s = .next t ∧
    readReg t .result = BitVec.ofNat 32 (logRom s.cfg a) ∧ logRom s.cfg a ≤ 254 ∧
    t.status = s.status ||| 0b00001 ∧ ScalarFrame s t) ∧
  (∀ s : State, ∃ t, exec (.gfLog 0) s = .next t ∧
    t.status = s.status ||| 0b01001 ∧ t.errcmd = 0x30000000 ∧ ErrorFrame s t) ∧
  (∀ w : Word, w.extractLsb' 28 4 = 3 →
    (illegalWord w ↔ w.extractLsb' 16 12 ≠ 0 ∨ w.extractLsb' 0 8 ≠ 0) ∧
      (¬ illegalWord w → decode w = .ok (.gfLog (w.extractLsb' 8 8)))) ∧
  (∀ s t : State, (exec (.gfLog 1) s = .next t → t.result = 0) ∧
    (exec (.gfLog s.cfg.alpha) s = .next t → t.result = 1) ∧ ∀ a, a ≠ 0 → exec (.gfLog a) s = .next t → t.result ≠ 255) ∧
  (∀ s t : State, s.cfg = Config.default →
    (exec (.gfLog 0x8E) s = .next t → t.result = 254) ∧ (exec (.gfLog 0x53) s = .next t → t.result = 0xCE)) ∧
  encode (.gfLog 0x53) = 0x30005300

/-- 40 R109, whole: the encoding, the result, the flags, when the word is illegal, the corner cases, and the example in the
default configuration. The exponent is in 0..255, as the rule has it. -/
def Obligations.GfExpWritesThePowerOfAlpha : Prop :=
  (∀ e : Nat, e < 256 → encode (.gfExp e) = 0x40000000 ||| BitVec.ofNat 32 e <<< 8) ∧
  (∀ (s : State) (e : Nat), e < 256 → ∃ t, exec (.gfExp e) s = .next t ∧
    readReg t .result = ((expTable s.cfg.fieldPoly s.cfg.alpha).getD (e % 255) 0).setWidth 32 ∧
    t.status = s.status ||| 0b00001 ∧ ScalarFrame s t) ∧
  (∀ w : Word, w.extractLsb' 28 4 = 4 →
    (illegalWord w ↔ w.extractLsb' 16 12 ≠ 0 ∨ w.extractLsb' 0 8 ≠ 0) ∧
      (¬ illegalWord w → decode w = .ok (.gfExp (w.extractLsb' 8 8).toNat))) ∧
  (∀ s t : State, (exec (.gfExp 0) s = .next t → t.result = 0x01) ∧ (exec (.gfExp 255) s = .next t → t.result = 0x01) ∧
    ∀ e, e < 256 → exec (.gfExp e) s = .next t → t.result ≠ 0) ∧
  (∀ s t : State, s.cfg = Config.default → exec (.gfExp 8) s = .next t → t.result = 0x1D) ∧
  encode (.gfExp 8) = 0x40000800

/-- 41 R134, whole: the encoding, the product with each coefficient as 41 R130 writes it, RLEN, the flags, what is left
unchanged, ERR_LEN, when the word is illegal, the corner cases, the operands the host never wrote, and the example. The lengths are in 0..255, as 30 R81 has them. -/
def Obligations.PolyMulWritesTheProduct : Prop :=
  (∀ la lb : Nat, la < 256 → lb < 256 →
    encode (.polyMul la lb) = 0x50000000 ||| BitVec.ofNat 32 la <<< 8 ||| BitVec.ofNat 32 lb) ∧
  (∀ (s : State) (la lb : Nat), 1 ≤ la → 1 ≤ lb → la + lb - 1 ≤ s.cfg.polyMax →
    ∃ t, exec (.polyMul la lb) s = .next t ∧
      (∀ k, k < la + lb - 1 → t.entry .pr k = convolution s.cfg (s.entries .pa la) (s.entries .pb lb) k) ∧
      (readReg t .rlen).toNat = la + lb - 1 ∧ t.status = s.status ||| 0b00001 ∧ PolyFrame (la + lb - 1) s t) ∧
  (∀ (s : State) (la lb : Nat), la < 256 → lb < 256 →
    (la = 0 ∨ lb = 0 ∨ s.cfg.polyMax < la ∨ s.cfg.polyMax < lb ∨ s.cfg.polyMax < la + lb - 1) →
    ∃ t, exec (.polyMul la lb) s = .next t ∧
      t.status = s.status ||| 0b00101 ∧ t.errcmd = encode (.polyMul la lb) ∧ ErrorFrame s t) ∧
  (∀ w : Word, w.extractLsb' 28 4 = 5 →
    (illegalWord w ↔ w.extractLsb' 16 12 ≠ 0) ∧
      (w.extractLsb' 16 12 = 0 → decode w = .ok (.polyMul (w.extractLsb' 8 8).toNat (w.extractLsb' 0 8).toNat))) ∧
  (∀ s : State, ∃ t, exec (.polyMul 1 1) s = .next t ∧
    t.entry .pr 0 = gfmul s.cfg (s.entry .pa 0) (s.entry .pb 0) ∧ t.rlen = 1) ∧
  (∀ (s : State) (b : BufferId) (i : Nat), lookupCell (s.buffer b) i = none → s.entry b i = Config.bufInit s.draws b i) ∧
  (∀ s t : State, s.cfg = Config.default → s.entries .pa 3 = [0x12, 0x34, 0x56] → s.entries .pb 2 = [0x78, 0x9A] →
    exec (.polyMul 3 2) s = .next t → t.entries .pr 4 = [0x23, 0xE9, 0x18, 0x67] ∧ t.rlen = 4) ∧
  encode (.polyMul 3 2) = 0x50000302

/-- 41 R135, whole: the encoding, the generator polynomial and RLEN, the flags, what is left unchanged, ERR_LEN, when the word
is illegal, the corner cases, and the example in the default configuration. The degree is in 0..255, as 30 R81 has it. -/
def Obligations.PolyGenWritesTheGeneratorPolynomial : Prop :=
  (∀ n : Nat, n < 256 → encode (.polyGen n) = 0x60000000 ||| BitVec.ofNat 32 n <<< 8) ∧
  (∀ (s : State) (n : Nat), n + 1 ≤ s.cfg.polyMax →
    ∃ t, exec (.polyGen n) s = .next t ∧ t.entries .pr (n + 1) = genpoly s.cfg n ∧
      (readReg t .rlen).toNat = n + 1 ∧ t.status = s.status ||| 0b00001 ∧ PolyFrame (n + 1) s t) ∧
  (∀ (s : State) (n : Nat), n < 256 → s.cfg.polyMax < n + 1 →
    ∃ t, exec (.polyGen n) s = .next t ∧
      t.status = s.status ||| 0b00101 ∧ t.errcmd = encode (.polyGen n) ∧ ErrorFrame s t) ∧
  (∀ w : Word, w.extractLsb' 28 4 = 6 →
    (illegalWord w ↔ w.extractLsb' 16 12 ≠ 0 ∨ w.extractLsb' 0 8 ≠ 0) ∧
      (¬ illegalWord w → decode w = .ok (.polyGen (w.extractLsb' 8 8).toNat))) ∧
  (∀ s : State, ∃ t, exec (.polyGen 0) s = .next t ∧ t.entry .pr 0 = 0x01 ∧ t.rlen = 1) ∧
  (∀ s t : State, s.cfg = Config.default → exec (.polyGen 7) s = .next t →
    t.entries .pr 8 = [0x01, 0x7F, 0x7A, 0x9A, 0xA4, 0x0B, 0x44, 0x75] ∧ t.rlen = 8) ∧
  encode (.polyGen 7) = 0x60000700

/-- 60 R164: ERR_LEN is raised by the lengths the rule lists and by nothing else; PR and RLEN are unchanged. -/
def Obligations.ErrLenIsRaisedByBadLengthsOnly : Prop :=
  ∀ (s : State) (e : HostEvent), isReset e = false →
    (∀ w, commandOf? e = some w → lengthErrorWord s.cfg.polyMax w →
      ∃ t, step (s.offer e) = .next t ∧
        flagIsSet t.status .errLen = true ∧ t.errcmd = w ∧ t.rlen = s.rlen ∧ ∀ i, t.entry .pr i = s.entry .pr i) ∧
    (∀ t, step (s.offer e) = .next t → flagIsSet s.status .errLen = false → flagIsSet t.status .errLen = true →
      ∃ w, commandOf? e = some w ∧ lengthErrorWord s.cfg.polyMax w)

/-- 60 R165: ERR_LOG0 is raised by GF.LOG with `a = 0` and by nothing else; RESULT is unchanged. -/
def Obligations.ErrLog0IsRaisedByTheLogarithmOfZeroOnly : Prop :=
  (∀ s : State, ∃ t, step (s.offer (.write 0x008 0b1111 0x30000000)) = .next t ∧
    flagIsSet t.status .errLog0 = true ∧ t.result = s.result) ∧
  (∀ (s t : State) (e : HostEvent), step (s.offer e) = .next t → flagIsSet s.status .errLog0 = false →
    flagIsSet t.status .errLog0 = true → e = .write 0x008 0b1111 0x30000000)

/-- 60 R167: in every state, one event raises at most one error. Every event but a reset and a full-word write to STATUS sets
nothing, DONE alone, DONE with one command error, or ERR_BUS alone, each from its own cause; a reset clears STATUS and a write
to STATUS only clears flags. ERR_LEN and ERR_LOG0 only come from words that decode; a refused write to CMD raises ERR_BUS only
and issues no command. -/
def Obligations.AtMostOneErrorPerEvent : Prop :=
  (∀ (s t : State) (e : HostEvent), step (s.offer e) = .next t →
    (isReset e = true → t.status = 0) ∧
    (∀ v : Word, e = .write 0x00C 0b1111 v → t.status = s.status &&& ~~~(v.setWidth 5)) ∧
    (isReset e = false → (∀ v : Word, e ≠ .write 0x00C 0b1111 v) → ∃ m, t.status = s.status ||| m ∧
      ((m = 0 ∧ refusedAddr s.cfg.polyMax e = none ∧ commandOf? e = none) ∨
       (m = 0b00001 ∧ ∃ w, commandOf? e = some w ∧ ¬ erroneousWord s.cfg.polyMax w) ∨
       (m = 0b00011 ∧ ∃ w, commandOf? e = some w ∧ illegalWord w) ∨
       (m = 0b00101 ∧ ∃ w, commandOf? e = some w ∧ ¬ illegalWord w ∧ lengthErrorWord s.cfg.polyMax w) ∨
       (m = 0b01001 ∧ ∃ w, commandOf? e = some w ∧ ¬ illegalWord w ∧ decode w = .ok (.gfLog 0)) ∨
       (m = 0b10000 ∧ refusedAddr s.cfg.polyMax e ≠ none ∧ commandOf? e = none)))) ∧
  (∀ (s : State) (addr : Addr) (be : BitVec 4) (w : Word), addr.toNat / 4 = 2 → addr ≠ 0x008 ∨ be ≠ 0b1111 →
    step (s.offer (.write addr be w)) =
      .next { s with status := s.status ||| 0b10000, erraddr := addr, response := some .written })

/-! ### The bus -/

/-- 20 R53, R54, 60 R166: an access that the bus refuses (misaligned, unmapped, with partial byte enables, or a write to a
read-only location) sets ERR_BUS and ERRADDR and does nothing else: it stores nothing, issues no command and sets no other
flag. A refused read returns 0, and the transfer completes. -/
def Obligations.RefusedAccessesOnlyRaiseErrBus : Prop :=
  ∀ (s : State) (e : HostEvent) (addr : Addr), refusedAddr s.cfg.polyMax e = some addr →
    ∃ t, step (s.offer e) = .next t ∧ t.status = s.status ||| 0b10000 ∧ t.erraddr = addr ∧
      (e = .read addr → t.response = some (.data 0)) ∧ (∀ be v, e = .write addr be v → t.response = some .written) ∧
      t.result = s.result ∧ t.rlen = s.rlen ∧ t.errcmd = s.errcmd ∧ SameEntries s t ∧
      t.cfg = s.cfg ∧ t.draws = s.draws ∧ t.pending = s.pending

/-- 20 R55, whole: a misaligned or unmapped read raises ERR_BUS and returns 0; any other read returns the value the rule
gives for its target and changes nothing but the answer on the bus. -/
def Obligations.ReadsReturnTheTargetsValue : Prop :=
  (∀ (s : State) (addr : Addr), addr.toNat % 4 ≠ 0 ∨ isMapped s.cfg.polyMax addr.toNat = false →
    step (s.offer (.read addr)) =
      .next { s with status := s.status ||| 0b10000, erraddr := addr, response := some (.data 0) }) ∧
  (∀ (s : State) (addr : Addr), addr.toNat % 4 = 0 → isMapped s.cfg.polyMax addr.toNat = true →
    ∃ v, step (s.offer (.read addr)) = .next { s with response := some (.data v) } ∧
      (addr = 0x000 → v = 0x47460001) ∧
      (addr = 0x004 → v.toNat =
        s.cfg.polyMax + 2 ^ 8 * (s.cfg.fieldPoly.toNat % 2 ^ 8) + 2 ^ 16 * s.cfg.alpha.toNat) ∧
      (addr = 0x008 → v = 0) ∧
      (addr = 0x00C → v.toNat = s.status.toNat) ∧
      (addr = 0x010 → v.toNat = s.result.toNat) ∧
      (addr = 0x014 → v.toNat = s.rlen.toNat) ∧
      (addr = 0x018 → v = s.errcmd) ∧
      (addr = 0x01C → v.toNat = s.erraddr.toNat) ∧
      ∀ i, i < s.cfg.polyMax →
        (addr.toNat = 0x100 + 4 * i → v.toNat = (s.entry .pa i).toNat) ∧
        (addr.toNat = 0x200 + 4 * i → v.toNat = (s.entry .pb i).toNat) ∧
        (addr.toNat = 0x300 + 4 * i → v.toNat = (s.entry .pr i).toNat))

/-- 20 R56, whole: a misaligned or partial write, and a write to an unmapped or read-only location, raises ERR_BUS and does
nothing else; a full-word write to CMD issues the word, one to STATUS clears the flags written as 1, and one to an entry of PA
or PB stores the low byte in that entry and in no other. -/
def Obligations.WritesActOnTheirTarget : Prop :=
  (∀ (s : State) (addr : Addr) (be : BitVec 4) (v : Word),
    addr.toNat % 4 ≠ 0 ∨ isWritable s.cfg.polyMax addr.toNat = false ∨ be ≠ 0b1111 →
    step (s.offer (.write addr be v)) =
      .next { s with status := s.status ||| 0b10000, erraddr := addr, response := some .written }) ∧
  (∀ (s : State) (v : Word), step (s.offer (.write 0x008 0b1111 v)) = issue v { s with response := some .written }) ∧
  (∀ (s : State) (v : Word), ∃ t, step (s.offer (.write 0x00C 0b1111 v)) = .next t ∧
    (∀ k, k < 5 → t.status.getLsbD k = (s.status.getLsbD k && !v.getLsbD k)) ∧
    t = { s with status := t.status, response := some .written }) ∧
  (∀ (s : State) (v : Word) (i : Nat), i < s.cfg.polyMax →
    (∃ t, step (s.offer (.write (BitVec.ofNat 12 (0x100 + 4 * i)) 0b1111 v)) = .next t ∧
      (t.entry .pa i).toNat = v.toNat % 2 ^ 8 ∧ (∀ j, j ≠ i → t.entry .pa j = s.entry .pa j) ∧
      t = { s with pa := t.pa, response := some .written }) ∧
    (∃ t, step (s.offer (.write (BitVec.ofNat 12 (0x200 + 4 * i)) 0b1111 v)) = .next t ∧
      (t.entry .pb i).toNat = v.toNat % 2 ^ 8 ∧ (∀ j, j ≠ i → t.entry .pb j = s.entry .pb j) ∧
      t = { s with pb := t.pb, response := some .written }))

/-- 20 R58: an entry of PA or PB that the host writes reads back as the low byte, zero-extended, without an error, whatever
the upper bits; and no read of a buffer entry, RESULT, RLEN, STATUS or ERRADDR has a bit set above its width. -/
def Obligations.WrittenEntriesReadBackZeroExtended : Prop :=
  (∀ (s : State) (b : BufferId) (i : Nat) (v : Word), b ≠ .pr → i < s.cfg.polyMax →
    ∃ t u, step (s.offer (.write (entryAddr b i) 0b1111 v)) = .next t ∧ step (t.offer (.read (entryAddr b i))) = .next u ∧
      u.response = some (.data (v &&& 0xFF)) ∧ t.status = s.status ∧ u.status = s.status) ∧
  (∀ (s : State) (b : BufferId) (i : Nat), i < s.cfg.polyMax →
    ∃ v, step (s.offer (.read (entryAddr b i))) = .next { s with response := some (.data v) } ∧
      v = (s.entry b i).setWidth 32 ∧ v.toNat < 2 ^ 8) ∧
  (∀ s : State, (readReg s .result).toNat < 2 ^ 8 ∧ (readReg s .rlen).toNat < 2 ^ 7 ∧ (readReg s .status).toNat < 2 ^ 5 ∧
    (readReg s .erraddr).toNat < 2 ^ 12)

/-- 20 R59: a read that is not refused changes nothing but the answer on the bus; a second read of the same location answers
the same; and every write but one to CMD has no further effect when it is repeated. -/
def Obligations.ReadsHaveNoSideEffectAndWritesAreIdempotent : Prop :=
  (∀ (s t : State) (addr : Addr), refusedAddr s.cfg.polyMax (.read addr) = none → step (s.offer (.read addr)) = .next t →
    { t with response := s.response } = s ∧ step (t.offer (.read addr)) = .next t) ∧
  (∀ (s t : State) (addr : Addr), refusedAddr s.cfg.polyMax (.read addr) = some addr → step (s.offer (.read addr)) = .next t →
    flagIsSet t.status .errBus = true) ∧
  (∀ (s t : State) (addr : Addr) (be : BitVec 4) (v : Word), commandOf? (.write addr be v) = none →
    step (s.offer (.write addr be v)) = .next t → step (t.offer (.write addr be v)) = .next t)

/-! ### The registers -/

/-- 10 R25: the fields of PARAM, in every configuration, and its value in the default one. -/
def Obligations.ParamReportsTheConfiguration : Prop :=
  (∀ s : State, ((readReg s .param).extractLsb' 0 8).toNat = s.cfg.polyMax ∧
    1 ≤ s.cfg.polyMax ∧ s.cfg.polyMax ≤ 64 ∧
    (readReg s .param).extractLsb' 8 8 = s.cfg.fieldPoly.extractLsb' 0 8 ∧ s.cfg.fieldPoly.getLsbD 8 = true ∧
    (readReg s .param).extractLsb' 16 8 = s.cfg.alpha ∧ (readReg s .param).extractLsb' 24 8 = 0) ∧
  (∀ s : State, s.cfg = Config.default → readReg s .param = 0x00021D20)

/-- 10 R28: RESULT over every event but a reset: a scalar command without error writes its element, and everything else
leaves RESULT unchanged; bits 31:8 read 0. -/
def Obligations.ResultIsWrittenByScalarCommandsOnly : Prop :=
  ∀ (s t : State) (e : HostEvent), isReset e = false → step (s.offer e) = .next t →
    (∀ w i v, commandOf? e = some w → decode w = .ok i → scalarResult s.cfg i = some v → t.result = v) ∧
    ((∀ w i v, commandOf? e = some w → decode w = .ok i → scalarResult s.cfg i ≠ some v) → t.result = s.result) ∧
    (readReg t .result).extractLsb' 8 24 = 0

/-- 10 R29: RLEN over every event but a reset: a polynomial command without error writes the number of its coefficients, from
1 to POLY_MAX, and everything else leaves RLEN unchanged; bits 31:7 read 0. -/
def Obligations.RlenIsWrittenByPolynomialCommandsOnly : Prop :=
  ∀ (s t : State) (e : HostEvent), isReset e = false → step (s.offer e) = .next t →
    (∀ w i n, commandOf? e = some w → decode w = .ok i → polyLength s.cfg.polyMax i = some n →
      t.rlen.toNat = n ∧ 1 ≤ n ∧ n ≤ s.cfg.polyMax) ∧
    ((∀ w i n, commandOf? e = some w → decode w = .ok i → polyLength s.cfg.polyMax i ≠ some n) → t.rlen = s.rlen) ∧
    (readReg t .rlen).extractLsb' 7 25 = 0

/-- 10 R30: ERRCMD over every event but a reset: a command that raises an error overwrites it with its word; everything else,
clearing STATUS included, leaves it. -/
def Obligations.ErrcmdHoldsTheLastErroneousWord : Prop :=
  ∀ (s t : State) (e : HostEvent), isReset e = false → step (s.offer e) = .next t →
    (∀ w, commandOf? e = some w → erroneousWord s.cfg.polyMax w → t.errcmd = w) ∧
    ((∀ w, commandOf? e = some w → ¬ erroneousWord s.cfg.polyMax w) → t.errcmd = s.errcmd)

/-- 10 R31: ERRADDR over every event but a reset: a refused access overwrites it with its full byte address; everything else,
clearing STATUS included, leaves it; bits 31:12 read 0. -/
def Obligations.ErraddrHoldsTheLastRefusedAddress : Prop :=
  ∀ (s t : State) (e : HostEvent), isReset e = false → step (s.offer e) = .next t →
    (∀ addr, refusedAddr s.cfg.polyMax e = some addr → t.erraddr = addr) ∧
    (refusedAddr s.cfg.polyMax e = none → t.erraddr = s.erraddr) ∧
    (readReg t .erraddr).extractLsb' 12 20 = 0

/-- 10 R27, 60 R168, R169: a flag that is set stays set through every event but a reset and a write to STATUS with 1 in its
place, and every full-word write to CMD sets DONE, whatever its word. -/
def Obligations.FlagsStayUntilTheHostClearsThem : Prop :=
  (∀ (s t : State) (e : HostEvent) (b : StatusBit), isReset e = false → step (s.offer e) = .next t →
    flagIsSet s.status b = true → (∀ v : Word, e = .write 0x00C 0b1111 v → v.getLsbD b.number = false) →
      flagIsSet t.status b = true) ∧
  (∀ (s : State) (w : Word), ∃ t, step (s.offer (.write 0x008 0b1111 w)) = .next t ∧ flagIsSet t.status .done = true) ∧
  (∀ (s t : State) (e : HostEvent), step (s.offer e) = .next t → flagIsSet s.status .done = false →
    flagIsSet t.status .done = true → ∃ w, commandOf? e = some w)

/-! ### The buffers -/

/-- 10 R34: PA and PB over every event but a reset: only a full-word host write to an entry changes it, to the low byte of the
word. No command writes them. -/
def Obligations.OperandBuffersAreWrittenByTheHostOnly : Prop :=
  ∀ (s t : State) (e : HostEvent) (b : BufferId) (i : Nat), isReset e = false → b ≠ .pr → i < s.cfg.polyMax →
    step (s.offer e) = .next t →
      (∀ v : Word, e = .write (BitVec.ofNat 12 (bufferBase b + 4 * i)) 0b1111 v → t.entry b i = v.extractLsb' 0 8) ∧
      ((∀ v : Word, e ≠ .write (BitVec.ofNat 12 (bufferBase b + 4 * i)) 0b1111 v) → t.entry b i = s.entry b i)

/-- 10 R35: PR over every event but a reset: only a polynomial command without error changes it, and only below the length it
writes to RLEN; a host write to an entry of PR raises ERR_BUS. -/
def Obligations.ResultBufferIsWrittenByPolynomialCommandsOnly : Prop :=
  (∀ (s t : State) (e : HostEvent) (i : Nat), isReset e = false → step (s.offer e) = .next t →
    t.entry .pr i ≠ s.entry .pr i →
      ∃ w c n, commandOf? e = some w ∧ decode w = .ok c ∧ polyLength s.cfg.polyMax c = some n ∧ t.rlen.toNat = n ∧ i < n) ∧
  (∀ (s : State) (i : Nat) (be : BitVec 4) (v : Word), i < s.cfg.polyMax →
    ∃ t, step (s.offer (.write (BitVec.ofNat 12 (0x300 + 4 * i)) be v)) = .next t ∧
      flagIsSet t.status .errBus = true ∧ SameEntries s t) ∧
  (∀ (s : State) (i : Nat), i < s.cfg.polyMax →
    ∃ t, step (s.offer (.read (BitVec.ofNat 12 (0x300 + 4 * i)))) = .next t ∧
      t.response = some (.data ((s.entry .pr i).setWidth 32)))

/-! ### The tables and the arithmetic -/

/-- 00 R7: the accepted configurations are those in the ranges of 00 R6 whose antilog table holds each of the 255 nonzero
bytes exactly once; the model refuses any other, and accepts the defaults. -/
def Obligations.AcceptedTablesHoldEachNonzeroByteOnce : Prop :=
  (∀ (fieldPoly : BitVec 9) (alpha : Byte) (polyMax : Nat),
    (Config.make fieldPoly alpha polyMax).isSome = true ↔
      fieldPoly.getLsbD 8 = true ∧ alpha ≠ 0 ∧ 1 ≤ polyMax ∧ polyMax ≤ 64 ∧
        ∀ x : Byte, x ≠ 0 → (expTable fieldPoly alpha).count x = 1) ∧
  Config.make 0x11D 0x02 32 = some Config.default

/-- 10 R32: `clmulmod(a, b)` is the remainder of the product of the two polynomials over GF(2) by `FIELD_POLY`; the tables
follow their recurrence, have 255 entries, hold no logarithm of 0, and no event changes them. -/
def Obligations.TablesFollowTheirRecurrence : Prop :=
  (∀ fieldPoly : BitVec 9, fieldPoly.getLsbD 8 = true → ∀ a b : Byte,
    ∃ q : Polynomial (ZMod 2),
      (∑ k ∈ Finset.range 8, if a.getLsbD k then (Polynomial.X : Polynomial (ZMod 2)) ^ k else 0) *
          (∑ k ∈ Finset.range 8, if b.getLsbD k then (Polynomial.X : Polynomial (ZMod 2)) ^ k else 0) =
        (∑ k ∈ Finset.range 9, if fieldPoly.getLsbD k then (Polynomial.X : Polynomial (ZMod 2)) ^ k else 0) * q +
          ∑ k ∈ Finset.range 8,
            if (clmulmod fieldPoly a b).getLsbD k then (Polynomial.X : Polynomial (ZMod 2)) ^ k else 0) ∧
  (∀ c : Config, (expTable c.fieldPoly c.alpha).length = 255 ∧ expRom c 0 = 0x01 ∧
    (∀ i, i ≤ 253 → expRom c (i + 1) = clmulmod c.fieldPoly (expRom c i) c.alpha) ∧
    (∀ i, i ≤ 254 → logRom c (expRom c i) = i) ∧ (0 : Byte) ∉ expTable c.fieldPoly c.alpha) ∧
  (∀ s t : State, step s = .next t → ∀ i a, expRom t.cfg i = expRom s.cfg i ∧ logRom t.cfg a = logRom s.cfg a) ∧
  (∀ (fieldPoly : BitVec 9) (a : Byte), fieldPoly.getLsbD 8 = true →
    clmulmod fieldPoly a 0x02 = (a <<< 1) ^^^ (if a.getLsbD 7 then fieldPoly.extractLsb' 0 8 else 0))

/-- 40 R102: the antilogarithm is `EXP[e mod 255]` for any natural e, the logarithm of a nonzero element is in 0..254, and the
two are inverse to each other. -/
def Obligations.GfexpAndGflogAreInverse : Prop :=
  ∀ c : Config, (∀ e : Nat, (expTable c.fieldPoly c.alpha)[e % 255]? = some (gfexp c e)) ∧
    (∀ a : Byte, a ≠ 0 → gflog c a ≤ 254 ∧ (expTable c.fieldPoly c.alpha)[gflog c a]? = some a) ∧
    (0 : Byte) ∉ expTable c.fieldPoly c.alpha ∧ gfexp c 255 = 0x01 ∧
    (∀ e : Nat, gflog c (gfexp c e) = e % 255) ∧ (∀ a : Byte, a ≠ 0 → gfexp c (gflog c a) = a)

/-- 40 R104, whole: the laws of a field, in every accepted configuration, and the agreement of the product through the tables
with the product modulo `FIELD_POLY`. -/
def Obligations.FieldLawsHoldInEveryConfiguration : Prop :=
  (∀ (c : Config) (a b d : Byte),
    gfadd a b = gfadd b a ∧ gfadd (gfadd a b) d = gfadd a (gfadd b d) ∧
    gfmul c a b = gfmul c b a ∧ gfmul c (gfmul c a b) d = gfmul c a (gfmul c b d) ∧
    gfmul c a (gfadd b d) = gfadd (gfmul c a b) (gfmul c a d) ∧
    gfmul c a 1 = a ∧ gfmul c a 0 = 0 ∧ gfadd a 0 = a ∧ (gfmul c a b = 0 ↔ a = 0 ∨ b = 0) ∧
    (a ≠ 0 → gfmul c a (gfexp c (255 - gflog c a)) = 1) ∧
    gfmul c a b = clmulmod c.fieldPoly a b ∧ gfmul c c.alpha a = clmulmod c.fieldPoly a c.alpha) ∧
  (∀ a : Byte, gfmul Config.default 0x02 a = (a <<< 1) ^^^ (if a.getLsbD 7 then 0x1D else 0x00))

/-- 41 R130: the product has `LA + LB − 1` coefficients, each the XOR over all index pairs that the rule writes, and leading
zero coefficients of the factors are kept. -/
def Obligations.PolymulIsTheConvolution : Prop :=
  ∀ (c : Config) (A B : List Byte), A ≠ [] → B ≠ [] →
    (polymul c A B).length = A.length + B.length - 1 ∧
    (∀ k, k < A.length + B.length - 1 → (polymul c A B).getD k 0 = convolution c A B k) ∧
    (∀ m n, (∀ i, i < m → A.getD i 0 = 0) → (∀ j, j < n → B.getD j 0 = 0) →
      ∀ k, k < m + n → (polymul c A B).getD k 0 = 0)

/-- 41 R131, whole: the laws of polynomial multiplication, in every accepted configuration. -/
def Obligations.PolymulObeysTheLawsOfPolynomials : Prop :=
  ∀ (c : Config) (A B D : List Byte) (x : Byte), A ≠ [] → B ≠ [] → D ≠ [] →
    polymul c A B = polymul c B A ∧ polymul c (polymul c A B) D = polymul c A (polymul c B D) ∧
    polymul c A [0x01] = A ∧ polymul c A [0x01, 0x00] = A ++ [0x00] ∧
    polymul c A.reverse B.reverse = (polymul c A B).reverse ∧
    (polymul c A B).getD 0 0 = gfmul c (A.getD 0 0) (B.getD 0 0) ∧
    (polymul c A B).getD (A.length + B.length - 2) 0 = gfmul c (A.getD (A.length - 1) 0) (B.getD (B.length - 1) 0) ∧
    polymul c [0x01, x] [0x01, x] = [0x01, 0x00, gfmul c x x]

/-- 41 R132: the generator polynomial is the repeated product of `[0x01, α^i]`, has `n + 1` coefficients, and does not depend
on the order of its factors. -/
def Obligations.GenpolyIsTheProductOfItsFactors : Prop :=
  ∀ c : Config, genpoly c 0 = [0x01] ∧
    (∀ i, genpoly c (i + 1) = polymul c (genpoly c i) [0x01, gfexp c i]) ∧
    (∀ n, (genpoly c n).length = n + 1) ∧
    (∀ (n : Nat) (order : List Nat), order.Perm (List.range n) →
      order.foldl (fun g i => polymul c g [0x01, gfexp c i]) [0x01] = genpoly c n)

/-- 41 R133, whole: in every accepted configuration the generator polynomial is monic, has the constant term
`gfexp(n·(n−1)/2)`, and vanishes at `α^0, …, α^(n−1)`; the polynomials of degree 1 and 2. -/
def Obligations.GenpolyHasItsRoots : Prop :=
  (∀ (c : Config) (n : Nat), 1 ≤ n →
    (genpoly c n).getD 0 0 = 0x01 ∧ (genpoly c n).getD n 0 = gfexp c (n * (n - 1) / 2) ∧
    (∀ i, i < n → polyeval c (genpoly c n) (gfexp c i) = 0) ∧
    genpoly c 1 = [0x01, 0x01] ∧ genpoly c 2 = [0x01, gfexp c 0 ^^^ gfexp c 1, gfexp c 1]) ∧
  (∀ (c : Config) (P : List Byte) (p x : Byte),
    polyeval c [] x = 0 ∧ polyeval c (P ++ [p]) x = gfmul c (polyeval c P x) x ^^^ p) ∧
  genpoly Config.default 2 = [0x01, 0x03, 0x02]

/-- 10 R37, 40 R110: two blocks in the same configuration that are given the same command word, with equal operand entries
where the command is POLY.MUL, raise the same flags and make the same writes, whatever else their states hold. -/
def Obligations.CommandsDependOnTheirOperandsOnly : Prop :=
  ∀ (s s' t t' : State) (w : Word), s.cfg = s'.cfg →
    (∀ la lb, decode w = .ok (.polyMul la lb) → s.entries .pa la = s'.entries .pa la ∧ s.entries .pb lb = s'.entries .pb lb) →
    step (s.offer (.write 0x008 0b1111 w)) = .next t → step (s'.offer (.write 0x008 0b1111 w)) = .next t' →
      (∃ m, t.status = s.status ||| m ∧ t'.status = s'.status ||| m) ∧
      (t.result = t'.result ∨ t.result = s.result ∧ t'.result = s'.result) ∧
      (t.rlen = t'.rlen ∨ t.rlen = s.rlen ∧ t'.rlen = s'.rlen) ∧
      (t.errcmd = t'.errcmd ∨ t.errcmd = s.errcmd ∧ t'.errcmd = s'.errcmd) ∧
      ∀ i, t.entry .pr i = t'.entry .pr i ∨ t.entry .pr i = s.entry .pr i ∧ t'.entry .pr i = s'.entry .pr i

/-! ### Reset and the invariant -/

/-- 70 R190: after a reset, between transactions or during a command, every register reads as 10 R38 lists, every buffer entry
is a free value, and the configuration, and so the tables, are kept. That a command and then a reset, or a reset during the
command, leave the very state that the reset alone leaves, the draws included, is the model's: a reset during a command is a
reset (log entry 8, DEDUCED from 93 U13), and the draw is named by the count of resets alone (log entry 4). -/
def Obligations.ResetLeavesTheListedValues : Prop :=
  (∀ (s : State) (e : HostEvent), isReset e = true →
    ∃ t, step (s.offer e) = .next t ∧
      readReg t .id = 0x47460001 ∧ readReg t .param = readReg s .param ∧ readReg t .cmd = 0 ∧ readReg t .status = 0 ∧
      readReg t .result = 0 ∧ readReg t .rlen = 0 ∧ readReg t .errcmd = 0 ∧ readReg t .erraddr = 0 ∧
      (∀ b i, t.entry b i = Config.bufInit t.draws b i) ∧ t.cfg = s.cfg) ∧
  (∀ (s t : State) (w : Word), step (s.offer (.write 0x008 0b1111 w)) = .next t →
    step (t.offer .reset) = step (s.offer .reset) ∧ step (s.offer (.resetDuringCommand w)) = step (s.offer .reset))

/-- 10 R38: the state the machine starts in. That it has the default configuration is the model's choice (log entry 5). -/
def Obligations.ResetStateIsAsListed : Prop :=
  readReg State.reset .id = 0x47460001 ∧ readReg State.reset .param = 0x00021D20 ∧ readReg State.reset .cmd = 0 ∧
  readReg State.reset .status = 0 ∧ readReg State.reset .result = 0 ∧ readReg State.reset .rlen = 0 ∧
  readReg State.reset .errcmd = 0 ∧ readReg State.reset .erraddr = 0 ∧
  (∀ b i, State.reset.entry b i = Config.bufInit State.reset.draws b i)

/-- 70 R192, 20 R64: no event, a reset included, changes the configuration. -/
def Obligations.NoEventChangesTheConfiguration : Prop :=
  ∀ s t : State, step s = .next t → t.cfg = s.cfg ∧ ∀ i a, expRom t.cfg i = expRom s.cfg i ∧ logRom t.cfg a = logRom s.cfg a

/-- The invariant of Safety, which is the model's own, holds of the state the machine starts in (10 R38). -/
def Obligations.InvariantHoldsAfterReset : Prop := State.reset.Inv

/-- The invariant of Safety, which is the model's own: from every state that meets it, not only those a run reaches, every
step gives a state that meets it (10 R29, R30, R34, R35, 60 R161). -/
def Obligations.EveryStepKeepsTheInvariant : Prop :=
  ∀ s t : State, s.Inv → step s = .next t → t.Inv

/-! ### The assembler -/

/-- 30 R86, R87: what the assembler makes of a line. The command of each mnemonic for operands in 0..255; an accepted operand is
at most 255; and, of lines of text, for every text `p` and `q` of an operand: the line of each mnemonic gives its word, and the
line of each pseudo-instruction the word of its expansion; a line with an operand that is no number in 0..255, with a missing
or an extra operand, or with no mnemonic of the two rules is refused; every line that assembles gives a well-formed command.
Spaces around a line, an operand or a comma are ignored, which goes beyond the rule's "optional spaces" (log entry 16). -/
def Obligations.AssemblerWritesTheCommandWords : Prop :=
  (∀ a b : Nat, a ≤ 255 → b ≤ 255 →
    (commandOf "nop".toList []).map encode = some 0x00000000 ∧
    (commandOf "gf.add".toList [a, b]).map encode = some (0x10000000 ||| BitVec.ofNat 32 a <<< 8 ||| BitVec.ofNat 32 b) ∧
    (commandOf "gf.mul".toList [a, b]).map encode = some (0x20000000 ||| BitVec.ofNat 32 a <<< 8 ||| BitVec.ofNat 32 b) ∧
    (commandOf "gf.log".toList [a]).map encode = some (0x30000000 ||| BitVec.ofNat 32 a <<< 8) ∧
    (commandOf "gf.exp".toList [a]).map encode = some (0x40000000 ||| BitVec.ofNat 32 a <<< 8) ∧
    (commandOf "poly.mul".toList [a, b]).map encode = some (0x50000000 ||| BitVec.ofNat 32 a <<< 8 ||| BitVec.ofNat 32 b) ∧
    (commandOf "poly.gen".toList [a]).map encode = some (0x60000000 ||| BitVec.ofNat 32 a <<< 8)) ∧
  (∀ (l : List Char) (n : Nat), operandValue l = some n → n ≤ 255) ∧
  (∀ ops : List Nat,
    (∀ m ∈ ["gf.add", "gf.mul", "poly.mul"], ops.length ≠ 2 → commandOf m.toList ops = none) ∧
    (∀ m ∈ ["gf.log", "gf.exp", "poly.gen"], ops.length ≠ 1 → commandOf m.toList ops = none) ∧
    (ops ≠ [] → commandOf "nop".toList ops = none)) ∧
  assemble "gf.mul 0x53, 0xCA" = some 0x200053CA ∧
  (∀ (line : List Char) (i : Instr), assembleLine line = some i → i.wf = true) ∧
  (∀ (p q : List Char) (a b : Nat), operandValue p = some a → operandValue q = some b →
    assemble (lineOf "nop" []) = some 0x00000000 ∧
    assemble (lineOf "gf.add" [p, q]) = some (0x10000000 ||| BitVec.ofNat 32 a <<< 8 ||| BitVec.ofNat 32 b) ∧
    assemble (lineOf "gf.mul" [p, q]) = some (0x20000000 ||| BitVec.ofNat 32 a <<< 8 ||| BitVec.ofNat 32 b) ∧
    assemble (lineOf "gf.log" [p]) = some (0x30000000 ||| BitVec.ofNat 32 a <<< 8) ∧
    assemble (lineOf "gf.exp" [p]) = some (0x40000000 ||| BitVec.ofNat 32 a <<< 8) ∧
    assemble (lineOf "poly.mul" [p, q]) = some (0x50000000 ||| BitVec.ofNat 32 a <<< 8 ||| BitVec.ofNat 32 b) ∧
    assemble (lineOf "poly.gen" [p]) = some (0x60000000 ||| BitVec.ofNat 32 a <<< 8) ∧
    assemble (lineOf "gf.sub" [p, q]) = assemble (lineOf "gf.add" [p, q]) ∧
    assemble (lineOf "gf.mov" [p]) = assemble (lineOf "gf.add" [p, ['0']]) ∧
    assemble (lineOf "gf.clr" []) = assemble (lineOf "gf.add" [['0'], ['0']]) ∧
    assemble (lineOf "gf.one" []) = assemble (lineOf "gf.exp" [['0']]) ∧
    assemble (lineOf "gf.sq" [p]) = assemble (lineOf "gf.mul" [p, p])) ∧
  (∀ (m : String) (ops : List (List Char)), m ≠ "" → ' ' ∉ m.toList → (∀ p ∈ ops, ',' ∉ p) →
    (∃ p ∈ ops, operandValue p = none) → (2 ≤ ops.length ∨ ∃ p ∈ ops, ∃ c ∈ p, c ≠ ' ') → assemble (lineOf m ops) = none) ∧
  (∀ ops : List (List Char), (∀ p ∈ ops, operandValue p ≠ none) →
    (∀ m ∈ ["gf.add", "gf.mul", "poly.mul", "gf.sub"], ops.length ≠ 2 → assemble (lineOf m ops) = none) ∧
    (∀ m ∈ ["gf.log", "gf.exp", "poly.gen", "gf.mov", "gf.sq"], ops.length ≠ 1 → assemble (lineOf m ops) = none) ∧
    (∀ m ∈ ["nop", "gf.clr", "gf.one"], ops ≠ [] → assemble (lineOf m ops) = none)) ∧
  (∀ (m : String) (ops : List (List Char)), m ≠ "" → ' ' ∉ m.toList →
    m ∉ ["nop", "gf.add", "gf.mul", "gf.log", "gf.exp", "poly.mul", "poly.gen", "gf.sub", "gf.mov", "gf.clr", "gf.one", "gf.sq"] →
      assemble (lineOf m ops) = none) ∧
  assembleLine [] = none ∧
  (∀ (j k : Nat) (line : List Char),
    assembleLine (List.replicate j ' ' ++ line ++ List.replicate k ' ') = assembleLine line)

/-- 30 R86: the value of an operand's text: the number that its decimal digits, or its hexadecimal digits after `0x`, write in
positional notation, when that is in 0..255; any other text is refused. That hexadecimal digits may be of either case, that
leading zeros are read, and that spaces around the text are ignored is the model's choice (log entry 16). -/
def Obligations.OperandTextsAreReadAsTheirNumbers : Prop :=
  (∀ ds : List (Fin 10), ds ≠ [] → operandValue (ds.map fun d => Nat.digitChar d.val) =
    if Nat.ofDigits 10 (ds.reverse.map Fin.val) ≤ 255 then some (Nat.ofDigits 10 (ds.reverse.map Fin.val)) else none) ∧
  (∀ (text : List Char) (ds : List (Fin 16)), ds ≠ [] →
    List.Forall₂ (fun c d => c = Nat.digitChar d.val ∨ c = (Nat.digitChar d.val).toUpper) text ds →
      operandValue ('0' :: 'x' :: text) =
        if Nat.ofDigits 16 (ds.reverse.map Fin.val) ≤ 255 then some (Nat.ofDigits 16 (ds.reverse.map Fin.val)) else none) ∧
  (∀ (j k : Nat) (p : List Char),
    operandValue (List.replicate j ' ' ++ p ++ List.replicate k ' ') = operandValue p) ∧
  (∀ p : List Char, operandValue p ≠ none → ∃ (j k : Nat) (text : List Char),
    p = List.replicate j ' ' ++ text ++ List.replicate k ' ' ∧
    ((∃ ds : List (Fin 10), ds ≠ [] ∧ text = ds.map fun d => Nat.digitChar d.val) ∨
      (∃ (hex : List Char) (ds : List (Fin 16)), ds ≠ [] ∧ text = '0' :: 'x' :: hex ∧
        List.Forall₂ (fun c d => c = Nat.digitChar d.val ∨ c = (Nat.digitChar d.val).toUpper) hex ds)))

/-- 30 R87, whole: each pseudo-instruction is exactly one command, with its effect on RESULT. -/
def Obligations.PseudoInstructionsAreTheirExpansions : Prop :=
  ∀ (s : State) (a b : Byte),
    commandOf "gf.sub".toList [a.toNat, b.toNat] = some (.gfAdd a b) ∧ pseudoSub a b = .gfAdd a b ∧
    commandOf "gf.mov".toList [a.toNat] = some (.gfAdd a 0) ∧ pseudoMov a = .gfAdd a 0 ∧
    commandOf "gf.clr".toList [] = some (.gfAdd 0 0) ∧ pseudoClr = .gfAdd 0 0 ∧
    commandOf "gf.one".toList [] = some (.gfExp 0) ∧ pseudoOne = .gfExp 0 ∧
    commandOf "gf.sq".toList [a.toNat] = some (.gfMul a a) ∧ pseudoSq a = .gfMul a a ∧
    (∃ t, exec (pseudoSub a b) s = .next t ∧ t.result = a ^^^ b) ∧ (∃ t, exec (pseudoMov a) s = .next t ∧ t.result = a) ∧
    (∃ t, exec pseudoClr s = .next t ∧ t.result = 0) ∧ (∃ t, exec pseudoOne s = .next t ∧ t.result = 1) ∧
    (∃ t, exec (pseudoSq a) s = .next t ∧ t.result = gfmul s.cfg a a)
end

