-- ==== Sys2Proof/Laws/Assembler.lean ====
section
/-! SUPPORT. The assembler, said once: spaces, the parts of an operand text, the value of an operand, and the command of a
line. -/

namespace Sys2Proof.Machine

/-! ### Spaces -/

theorem dropSpaces_replicate (j : Nat) (l : List Char) :
    (List.replicate j ' ' ++ l).dropWhile (· == ' ') = l.dropWhile (· == ' ') := by
  induction j with
  | zero => rfl
  | succ j ih => simp

/-- A text is its spaces in front and the rest. -/
theorem exists_dropSpaces (l : List Char) : ∃ j, l = List.replicate j ' ' ++ l.dropWhile (· == ' ') := by
  induction l with
  | nil => exact ⟨0, rfl⟩
  | cons c l ih =>
    by_cases hc : c = ' '
    · obtain ⟨j, hj⟩ := ih
      refine ⟨j + 1, ?_⟩
      subst hc
      simpa [List.replicate_succ] using hj
    · exact ⟨0, by simp [hc]⟩

theorem dropSpaces_append_replicate (k : Nat) (l : List Char) :
    ∃ k', (l ++ List.replicate k ' ').dropWhile (· == ' ') = l.dropWhile (· == ' ') ++ List.replicate k' ' ' ∧
      (l.dropWhile (· == ' ') ≠ [] → k' = k) := by
  induction l with
  | nil => exact ⟨0, by simp, fun h => absurd rfl h⟩
  | cons c l ih =>
    by_cases hc : c = ' '
    · simpa [hc] using ih
    · exact ⟨k, by simp [hc], fun _ => rfl⟩

/-- Spaces around a text do not matter once it is trimmed. -/
theorem trimSpaces_replicate (j k : Nat) (l : List Char) :
    trimSpaces (List.replicate j ' ' ++ l ++ List.replicate k ' ') = trimSpaces l := by
  unfold trimSpaces
  rw [List.append_assoc, dropSpaces_replicate]
  obtain ⟨k', hk, -⟩ := dropSpaces_append_replicate k l
  rw [hk, List.reverse_append, List.reverse_replicate, dropSpaces_replicate]

/-- A text is its trimmed text with spaces around. -/
theorem exists_trimSpaces (l : List Char) : ∃ j k, l = List.replicate j ' ' ++ trimSpaces l ++ List.replicate k ' ' := by
  obtain ⟨j, hj⟩ := exists_dropSpaces l
  obtain ⟨k, hk⟩ := exists_dropSpaces (l.dropWhile (· == ' ')).reverse
  refine ⟨j, k, ?_⟩
  have hr := congrArg List.reverse hk
  rw [List.reverse_reverse, List.reverse_append, List.reverse_replicate] at hr
  rw [List.append_assoc]
  unfold trimSpaces
  rw [← hr]
  exact hj

theorem mem_of_mem_trimSpaces {l : List Char} {c : Char} (h : c ∈ trimSpaces l) : c ∈ l := by
  obtain ⟨j, k, hl⟩ := exists_trimSpaces l
  rw [hl]
  simp [h]

/-- Trimming leaves nothing exactly of the texts of spaces. -/
theorem trimSpaces_eq_nil {l : List Char} : trimSpaces l = [] ↔ ∀ c ∈ l, c = ' ' := by
  constructor
  · intro h c hc
    obtain ⟨j, k, hl⟩ := exists_trimSpaces l
    rw [h, List.append_nil] at hl
    rw [hl] at hc
    rcases List.mem_append.mp hc with hc | hc <;> exact List.eq_of_mem_replicate hc
  · intro h
    rw [List.eq_replicate_of_mem h]
    simp [trimSpaces]

/-- A text that neither begins nor ends with a space is its own trimmed text. -/
theorem trimSpaces_of_head_of_reverse {l : List Char} (h : l.head? ≠ some ' ') (hr : l.reverse.head? ≠ some ' ') :
    trimSpaces l = l := by
  have drop_of_head : ∀ m : List Char, m.head? ≠ some ' ' → m.dropWhile (· == ' ') = m := by
    intro m hm
    cases m with
    | nil => rfl
    | cons c m => simpa using hm
  unfold trimSpaces
  rw [drop_of_head l h, drop_of_head _ hr, List.reverse_reverse]

/-! ### The parts of an operand text -/

theorem splitAtCommas_ne_nil (l : List Char) : splitAtCommas l ≠ [] := by
  cases l with
  | nil => simp [splitAtCommas]
  | cons c l =>
    simp only [splitAtCommas]
    split
    · simp
    · split <;> simp

theorem splitAtCommas_cons {c : Char} (hc : c ≠ ',') (l : List Char) :
    ∃ p ps, splitAtCommas l = p :: ps ∧ splitAtCommas (c :: l) = (c :: p) :: ps := by
  cases hs : splitAtCommas l with
  | nil => exact absurd hs (splitAtCommas_ne_nil l)
  | cons p ps => exact ⟨p, ps, rfl, by simp [splitAtCommas, hc, hs]⟩

/-- A text without a comma is one part. -/
theorem splitAtCommas_of_not_mem {p : List Char} (h : ',' ∉ p) : splitAtCommas p = [p] := by
  induction p with
  | nil => rfl
  | cons c p ih =>
    simp only [List.mem_cons, not_or] at h
    simp [splitAtCommas, Ne.symm h.1, ih h.2]

theorem splitAtCommas_append {p : List Char} (h : ',' ∉ p) (l : List Char) :
    splitAtCommas (p ++ ',' :: l) = p :: splitAtCommas l := by
  induction p with
  | nil => simp [splitAtCommas]
  | cons c p ih =>
    simp only [List.mem_cons, not_or] at h
    simp [splitAtCommas, Ne.symm h.1, ih h.2]

/-- Splitting undoes writing commas between the parts. -/
theorem splitAtCommas_intercalate {ops : List (List Char)} (hne : ops ≠ []) (h : ∀ p ∈ ops, ',' ∉ p) :
    splitAtCommas (List.intercalate [','] ops) = ops := by
  induction ops with
  | nil => exact absurd rfl hne
  | cons p ps ih =>
    cases ps with
    | nil => simpa [List.intercalate] using splitAtCommas_of_not_mem (h p (by simp))
    | cons q qs =>
      have hs := ih (by simp) fun r hr => h r (by simp [hr])
      have he : List.intercalate [','] (p :: q :: qs) = p ++ ',' :: List.intercalate [','] (q :: qs) := by
        simp [List.intercalate]
      rw [he, splitAtCommas_append (h p (by simp)), hs]

/-! ### The value of an operand -/

/-- An operand is a number in 0..255 (30 R86). -/
theorem operandValue_le {p : List Char} {n : Nat} (h : operandValue p = some n) : n ≤ 255 := by
  unfold operandValue at h
  obtain ⟨m, -, hm⟩ := Option.bind_eq_some_iff.mp h
  split at hm
  · rename_i hle
    obtain rfl : m = n := by simpa using hm
    exact hle
  · cases hm

@[simp] theorem operandValue_replicate (j k : Nat) (p : List Char) :
    operandValue (List.replicate j ' ' ++ p ++ List.replicate k ' ') = operandValue p := by
  unfold operandValue
  rw [trimSpaces_replicate]

theorem operandValue_cons_space (p : List Char) : operandValue (' ' :: p) = operandValue p := by
  simpa using operandValue_replicate 1 0 p

theorem operandValue_append_space (p : List Char) : operandValue (p ++ [' ']) = operandValue p := by
  simpa using operandValue_replicate 0 1 p

theorem operandValue_nil : operandValue [] = none := rfl

theorem operandValue_of_blank {p : List Char} (h : trimSpaces p = []) : operandValue p = none := by
  unfold operandValue
  rw [h]
  rfl

/-- What digits write is a number only when each is a digit of the base. -/
theorem digitValue_of_digitsValue {base acc n : Nat} {ds : List Char} (h : digitsValue base acc ds = some n) :
    ∀ c ∈ ds, ∃ d, digitValue base c = some d := by
  induction ds generalizing acc with
  | nil => simp
  | cons c cs ih =>
    obtain ⟨d, hd, hr⟩ := Option.bind_eq_some_iff.mp h
    intro c' hc'
    rcases List.mem_cons.mp hc' with rfl | hc'
    · exact ⟨d, hd⟩
    · exact ih hr c' hc'

/-- What digits write: the number in positional notation, after the number that the digits before them gave. -/
theorem digitsValue_eq_ofDigits {base : Nat} {text : List Char} {ds : List Nat}
    (h : List.Forall₂ (fun c d => digitValue base c = some d) text ds) (acc : Nat) :
    digitsValue base acc text = some (base ^ ds.length * acc + Nat.ofDigits base ds.reverse) := by
  induction h generalizing acc with
  | nil => simp [digitsValue]
  | cons h _ ih =>
    simp only [digitsValue, h, Option.bind_some, ih, List.reverse_cons, Nat.ofDigits_append, List.length_reverse,
      Nat.ofDigits_singleton, List.length_cons, pow_succ, Option.some.injEq]
    ring

/-- A number is read from decimal digits, or from hexadecimal digits after `0x` (30 R86). -/
theorem numberValue_cases {l : List Char} {n : Nat} (h : numberValue l = some n) :
    (∃ ds, ds ≠ [] ∧ l = '0' :: 'x' :: ds ∧ digitsValue 16 0 ds = some n) ∨ (l ≠ [] ∧ digitsValue 10 0 l = some n) := by
  unfold numberValue at h
  split at h
  · cases h
  · cases h
  · rename_i ds hds
    exact .inl ⟨ds, fun he => hds (he ▸ rfl), rfl, h⟩
  · rename_i hne _ _
    exact .inr ⟨hne, h⟩

/-- No operand holds a comma. -/
theorem comma_not_mem_of_operandValue {p : List Char} {n : Nat} (h : operandValue p = some n) : ',' ∉ p := by
  obtain ⟨m, hm, -⟩ := Option.bind_eq_some_iff.mp h
  obtain ⟨j, k, hp⟩ := exists_trimSpaces p
  intro hc
  rw [hp] at hc
  have hmem : ',' ∈ trimSpaces p := by
    rcases List.mem_append.mp hc with hc | hc
    · rcases List.mem_append.mp hc with hc | hc
      · exact absurd (List.eq_of_mem_replicate hc) (by decide)
      · exact hc
    · exact absurd (List.eq_of_mem_replicate hc) (by decide)
  rcases numberValue_cases hm with ⟨ds, -, hd, hv⟩ | ⟨-, hv⟩
  · rw [hd] at hmem
    have : ',' ∈ ds := by simpa using hmem
    obtain ⟨d, hd⟩ := digitValue_of_digitsValue hv _ this
    exact absurd hd (by simp [show digitValue 16 ',' = none from by decide])
  · obtain ⟨d, hd⟩ := digitValue_of_digitsValue hv _ hmem
    exact absurd hd (by simp [show digitValue 10 ',' = none from by decide])

/-! ### The values of a list of operands -/

theorem operandValues_congr {ps qs : List (List Char)} (h : List.Forall₂ (fun p q => operandValue q = operandValue p) ps qs) :
    operandValues qs = operandValues ps := by
  induction h with
  | nil => rfl
  | cons h _ ih => simp only [operandValues, h, ih]

theorem operandValues_split_cons_space (l : List Char) :
    operandValues (splitAtCommas (' ' :: l)) = operandValues (splitAtCommas l) := by
  obtain ⟨p, ps, hl, hc⟩ := splitAtCommas_cons (c := ' ') (by decide) l
  rw [hl, hc]
  simp only [operandValues, operandValue_cons_space]

theorem splitAtCommas_append_space (l : List Char) :
    List.Forall₂ (fun p q => q = p ∨ q = p ++ [' ']) (splitAtCommas l) (splitAtCommas (l ++ [' '])) := by
  induction l with
  | nil => exact .cons (.inr rfl) .nil
  | cons c l ih =>
    by_cases hc : c = ','
    · subst hc
      simpa [splitAtCommas] using ih
    · obtain ⟨p, ps, h1, h2⟩ := splitAtCommas_cons hc l
      obtain ⟨q, qs, h3, h4⟩ := splitAtCommas_cons hc (l ++ [' '])
      rw [h1, h3] at ih
      rw [List.cons_append, h2, h4]
      cases ih with
      | cons h hs => exact .cons (by rcases h with rfl | rfl <;> simp) hs

theorem operandValues_split_append_space (l : List Char) :
    operandValues (splitAtCommas (l ++ [' '])) = operandValues (splitAtCommas l) := by
  refine operandValues_congr ((splitAtCommas_append_space l).imp ?_)
  rintro p q (rfl | rfl)
  · rfl
  · exact operandValue_append_space p

/-- Spaces around an operand text do not matter. -/
theorem operandValues_split_trimSpaces (l : List Char) :
    operandValues (splitAtCommas (trimSpaces l)) = operandValues (splitAtCommas l) := by
  have front : ∀ j (m : List Char), operandValues (splitAtCommas (List.replicate j ' ' ++ m)) = operandValues (splitAtCommas m) := by
    intro j m
    induction j with
    | zero => rfl
    | succ j ih => rw [List.replicate_succ, List.cons_append, operandValues_split_cons_space, ih]
  have back : ∀ k (m : List Char), operandValues (splitAtCommas (m ++ List.replicate k ' ')) = operandValues (splitAtCommas m) := by
    intro k
    induction k with
    | zero => simp
    | succ k ih =>
      intro m
      rw [show m ++ List.replicate (k + 1) ' ' = (m ++ [' ']) ++ List.replicate k ' ' from by simp [List.replicate_succ],
        ih, operandValues_split_append_space]
  obtain ⟨j, k, hl⟩ := exists_trimSpaces l
  conv_rhs => rw [hl]
  rw [back, front]

/-- The values of a list of operands: one for each, or none at all. -/
theorem operandValues_eq_some {ps : List (List Char)} {ns : List Nat} :
    operandValues ps = some ns ↔ List.Forall₂ (fun p n => operandValue p = some n) ps ns := by
  induction ps generalizing ns with
  | nil => cases ns <;> simp [operandValues]
  | cons p ps ih =>
    cases ns with
    | nil => cases hp : operandValue p <;> cases hs : operandValues ps <;> simp [operandValues, hp, hs]
    | cons n ns =>
      rw [List.forall₂_cons, ← ih]
      cases hp : operandValue p <;> cases hs : operandValues ps <;> simp [operandValues, hp, hs]

theorem operandValues_eq_none {ps : List (List Char)} (h : ∃ p ∈ ps, operandValue p = none) : operandValues ps = none := by
  induction ps with
  | nil => simp at h
  | cons p ps ih =>
    obtain ⟨q, hq, hn⟩ := h
    rcases List.mem_cons.mp hq with rfl | hq
    · simp [operandValues, hn]
    · simp [operandValues, ih ⟨q, hq, hn⟩]

/-! ### The command of each mnemonic (30 R86, R87) -/

@[simp] theorem commandOf_nop : commandOf "nop".toList [] = some (.nop) := rfl
@[simp] theorem commandOf_gfAdd (a b : Nat) : commandOf "gf.add".toList [a, b] = some (.gfAdd (toField a) (toField b)) := rfl
@[simp] theorem commandOf_gfMul (a b : Nat) : commandOf "gf.mul".toList [a, b] = some (.gfMul (toField a) (toField b)) := rfl
@[simp] theorem commandOf_gfLog (a : Nat) : commandOf "gf.log".toList [a] = some (.gfLog (toField a)) := rfl
@[simp] theorem commandOf_gfExp (a : Nat) : commandOf "gf.exp".toList [a] = some (.gfExp a) := rfl
@[simp] theorem commandOf_polyMul (a b : Nat) : commandOf "poly.mul".toList [a, b] = some (.polyMul a b) := rfl
@[simp] theorem commandOf_polyGen (a : Nat) : commandOf "poly.gen".toList [a] = some (.polyGen a) := rfl
@[simp] theorem commandOf_gfSub (a b : Nat) : commandOf "gf.sub".toList [a, b] = some (.gfAdd (toField a) (toField b)) := rfl
@[simp] theorem commandOf_gfMov (a : Nat) : commandOf "gf.mov".toList [a] = some (.gfAdd (toField a) 0) := rfl
@[simp] theorem commandOf_gfClr : commandOf "gf.clr".toList [] = some (.gfAdd 0 0) := rfl
@[simp] theorem commandOf_gfOne : commandOf "gf.one".toList [] = some (.gfExp 0) := rfl
@[simp] theorem commandOf_gfSq (a : Nat) : commandOf "gf.sq".toList [a] = some (.gfMul (toField a) (toField a)) := rfl

/-- A mnemonic of neither rule has no command. -/
theorem commandOf_of_not_mem {m : String} (hm : m ∉ ["nop", "gf.add", "gf.mul", "gf.log", "gf.exp", "poly.mul", "poly.gen",
    "gf.sub", "gf.mov", "gf.clr", "gf.one", "gf.sq"]) (ns : List Nat) : commandOf m.toList ns = none := by
  have other : ∀ {α : Type} (table : List (String × α)), (∀ r ∈ table, r.1 ≠ m) → findMnemonic m.toList table = none := by
    intro α table h
    unfold findMnemonic
    rw [Option.map_eq_none_iff, List.find?_eq_none]
    intro r hr he
    exact h r hr (String.toList_inj.mp (beq_iff_eq.mp he))
  simp only [List.mem_cons, List.not_mem_nil, or_false, not_or] at hm
  obtain ⟨h0, h1, h2, h3, h4, h5, h6, h7, h8, h9, h10, h11⟩ := hm
  match ns with
  | [] => exact other _ (by simp [plainMnemonics, Ne.symm, h0, h9, h10, Ne, eq_comm])
  | [_] =>
    show Option.map _ (findMnemonic m.toList unaryMnemonics) = none
    rw [other _ (by simp [unaryMnemonics, h3, h4, h6, h8, h11, eq_comm])]
    rfl
  | [_, _] =>
    show Option.map _ (findMnemonic m.toList binaryMnemonics) = none
    rw [other _ (by simp [binaryMnemonics, h1, h2, h5, h7, eq_comm])]
    rfl
  | _ :: _ :: _ :: _ => rfl

/-- The command of operands in 0..255 is well-formed. -/
theorem commandOf_wf {m : List Char} {ns : List Nat} {i : Instr} (h : commandOf m ns = some i) (hn : ∀ n ∈ ns, n ≤ 255) :
    i.wf = true := by
  have entry : ∀ {α : Type} (table : List (String × α)) (f : α), findMnemonic m table = some f → ∃ r ∈ table, r.2 = f := by
    intro α table f hf
    obtain ⟨r, hr, rfl⟩ := Option.map_eq_some_iff.mp hf
    exact ⟨r, List.mem_of_find?_eq_some hr, rfl⟩
  match ns, h with
  | [], h =>
    obtain ⟨r, hr, rfl⟩ := entry _ _ h
    simp only [plainMnemonics, List.mem_cons, List.not_mem_nil, or_false] at hr
    rcases hr with rfl | rfl | rfl <;> rfl
  | [a], h =>
    obtain ⟨f, hf, rfl⟩ := Option.map_eq_some_iff.mp h
    obtain ⟨r, hr, rfl⟩ := entry _ _ hf
    have ha := hn a (by simp)
    simp only [unaryMnemonics, List.mem_cons, List.not_mem_nil, or_false] at hr
    rcases hr with rfl | rfl | rfl | rfl | rfl <;> simp [Instr.wf, fitsField, pseudoMov, pseudoSq, Nat.lt_succ_of_le ha]
  | [a, b], h =>
    obtain ⟨f, hf, rfl⟩ := Option.map_eq_some_iff.mp h
    obtain ⟨r, hr, rfl⟩ := entry _ _ hf
    have ha := hn a (by simp)
    have hb := hn b (by simp)
    simp only [binaryMnemonics, List.mem_cons, List.not_mem_nil, or_false] at hr
    rcases hr with rfl | rfl | rfl | rfl <;> simp [Instr.wf, fitsField, pseudoSub, Nat.lt_succ_of_le ha, Nat.lt_succ_of_le hb]
  | _ :: _ :: _ :: _, h => cases h

/-! ### A line -/

/-- The command of a line with operands: a mnemonic, a space and a text that is not blank. -/
theorem assembleLine_operands {m body : List Char} (hm : m ≠ []) (hs : ' ' ∉ m) (hb : trimSpaces body ≠ []) :
    assembleLine (m ++ ' ' :: body) = (operandValues (splitAtCommas body)).bind (commandOf m) := by
  obtain ⟨j, k, hl⟩ := exists_trimSpaces body
  obtain ⟨c, cs, rfl⟩ : ∃ c cs, m = c :: cs := by
    cases m with
    | nil => exact absurd rfl hm
    | cons c cs => exact ⟨c, cs, rfl⟩
  have hc : c ≠ ' ' := fun h => hs (by simp [h])
  have last : (trimSpaces body).reverse.head? ≠ some ' ' := by
    intro h
    have := List.head?_dropWhile_not (· == ' ') (body.dropWhile (· == ' ')).reverse
    unfold trimSpaces at h
    rw [List.reverse_reverse] at h
    rw [h] at this
    simp at this
  have htrim : trimSpaces (c :: cs ++ ' ' :: body) = c :: cs ++ ' ' :: (List.replicate j ' ' ++ trimSpaces body) := by
    conv_lhs => rw [hl]
    rw [show c :: cs ++ ' ' :: (List.replicate j ' ' ++ trimSpaces body ++ List.replicate k ' ') =
      List.replicate 0 ' ' ++ (c :: cs ++ ' ' :: (List.replicate j ' ' ++ trimSpaces body)) ++ List.replicate k ' ' from by simp,
      trimSpaces_replicate]
    apply trimSpaces_of_head_of_reverse
    · simpa using hc
    · rw [show (c :: cs ++ ' ' :: (List.replicate j ' ' ++ trimSpaces body)).reverse =
        (trimSpaces body).reverse ++ (c :: cs ++ ' ' :: List.replicate j ' ').reverse from by simp]
      rw [List.head?_append_of_ne_nil _ (by simpa using hb)]
      exact last
  have htake : ∀ rest, ((c :: cs) ++ ' ' :: rest).takeWhile (· != ' ') = c :: cs := by
    intro rest
    rw [List.takeWhile_append_of_pos]
    · simp
    · intro a ha
      have : a ≠ ' ' := fun h => hs (h ▸ ha)
      simpa using this
  have hdrop : ∀ rest, ((c :: cs) ++ ' ' :: rest).dropWhile (· != ' ') = ' ' :: rest := by
    intro rest
    rw [List.dropWhile_append_of_pos]
    · simp
    · intro a ha
      have : a ≠ ' ' := fun h => hs (h ▸ ha)
      simpa using this
  have hrest : trimSpaces (' ' :: (List.replicate j ' ' ++ trimSpaces body)) = trimSpaces body := by
    have h1 := trimSpaces_replicate (j + 1) 0 (trimSpaces body)
    have h2 := trimSpaces_replicate j k (trimSpaces body)
    rw [← hl] at h2
    rw [List.replicate_zero, List.append_nil, ← h2, List.replicate_succ] at h1
    exact h1
  unfold assembleLine
  simp only [htrim, htake, hdrop, hrest, if_neg hb, operandValues_split_trimSpaces]

/-- The command of a line without operands: a mnemonic and any number of spaces. -/
theorem assembleLine_plain {m : List Char} (hs : ' ' ∉ m) (k : Nat) :
    assembleLine (m ++ List.replicate k ' ') = commandOf m [] := by
  have htrim : trimSpaces (m ++ List.replicate k ' ') = m := by
    rw [show m ++ List.replicate k ' ' = List.replicate 0 ' ' ++ m ++ List.replicate k ' ' from by simp, trimSpaces_replicate]
    apply trimSpaces_of_head_of_reverse
    · exact fun h => hs (List.mem_of_mem_head? h)
    · exact fun h => hs (List.mem_reverse.mp (List.mem_of_mem_head? h))
  have hp : ∀ a ∈ m, (a != ' ') = true := by
    intro a ha
    have : a ≠ ' ' := fun h => hs (h ▸ ha)
    simpa using this
  have htake : m.takeWhile (· != ' ') = m := by simpa using List.takeWhile_append_of_pos (l₂ := []) hp
  have hdrop : m.dropWhile (· != ' ') = [] := by simpa using List.dropWhile_append_of_pos (l₂ := []) hp
  unfold assembleLine
  simp [htrim, htake, hdrop, show trimSpaces [] = [] from rfl]

/-- The word of a line of 30 R86 without operands. -/
theorem assemble_lineOf_nil {m : String} (hs : ' ' ∉ m.toList) :
    assemble (lineOf m []) = (commandOf m.toList []).map encode := by
  have h := assembleLine_plain hs 0
  rw [List.replicate_zero] at h
  simp [assemble, lineOf] at h ⊢
  rw [h]

/-- The word of a line of 30 R86 with operands, unless the operand text is blank. -/
theorem assemble_lineOf {m : String} {ops : List (List Char)} (hm : m ≠ "") (hs : ' ' ∉ m.toList) (hne : ops ≠ [])
    (hc : ∀ p ∈ ops, ',' ∉ p) (hb : trimSpaces (List.intercalate [','] ops) ≠ []) :
    assemble (lineOf m ops) = ((operandValues ops).bind (commandOf m.toList)).map encode := by
  have hm' : m.toList ≠ [] := fun h => hm (by rw [← String.toList_inj, h]; rfl)
  unfold assemble lineOf
  rw [String.toList_ofList, if_neg hne, assembleLine_operands hm' hs hb, splitAtCommas_intercalate hne hc]

/-- The operand text of two operands or more, or of one that is not blank, is not blank. -/
theorem trimSpaces_intercalate_ne_nil {ops : List (List Char)} (h : 2 ≤ ops.length ∨ ∃ p ∈ ops, ∃ c ∈ p, c ≠ ' ') :
    trimSpaces (List.intercalate [','] ops) ≠ [] := by
  intro hn
  rw [trimSpaces_eq_nil] at hn
  rcases h with h | ⟨p, hp, c, hc, hne⟩
  · match ops, h with
    | p :: q :: qs, _ =>
      exact absurd (hn ',' (by simp [List.intercalate])) (by decide)
  · refine hne (hn c ?_)
    clear hn hne
    induction ops with
    | nil => simp at hp
    | cons q qs ih =>
      cases qs with
      | nil => simp [List.intercalate] at hp ⊢; exact hp ▸ hc
      | cons r rs =>
        rcases List.mem_cons.mp hp with rfl | hp
        · simp [List.intercalate, hc]
        · have := ih hp
          simp only [List.intercalate, List.intersperse_cons_cons, List.flatten_cons, List.mem_append] at this ⊢
          exact .inr (.inr this)

/-- The word of a line whose operands have the values `ns`. -/
theorem assemble_lineOf_values {m : String} {ops : List (List Char)} {ns : List Nat} (hm : m ≠ "") (hs : ' ' ∉ m.toList)
    (h : List.Forall₂ (fun p n => operandValue p = some n) ops ns) :
    assemble (lineOf m ops) = (commandOf m.toList ns).map encode := by
  cases ops with
  | nil =>
    cases h
    exact assemble_lineOf_nil hs
  | cons p ps =>
    have hv := operandValues_eq_some.mpr h
    have hval : ∀ q ∈ p :: ps, operandValue q ≠ none := fun q hq hn => by
      rw [operandValues_eq_none ⟨q, hq, hn⟩] at hv
      cases hv
    have hcomma : ∀ q ∈ p :: ps, ',' ∉ q := fun q hq => by
      obtain ⟨n, hn⟩ := Option.ne_none_iff_exists'.mp (hval q hq)
      exact comma_not_mem_of_operandValue hn
    have hblank : ∃ c ∈ p, c ≠ ' ' := by
      by_contra hb
      simp only [not_exists, not_and, not_not] at hb
      exact hval p (by simp) (operandValue_of_blank (trimSpaces_eq_nil.mpr hb))
    rw [assemble_lineOf hm hs (by simp) hcomma (trimSpaces_intercalate_ne_nil (.inr ⟨p, by simp, hblank⟩)), hv]
    rfl

end Sys2Proof.Machine
end

