-- ==== Sys2Proof/Laws/State.lean ====
section
/-! SUPPORT. What each operation on the state does to each field, all by rfl. -/

namespace Sys2Proof.Machine

/-! ### Offering an event -/

@[simp] theorem offer_status (s : State) (e : HostEvent) : (s.offer e).status = s.status := rfl
@[simp] theorem offer_result (s : State) (e : HostEvent) : (s.offer e).result = s.result := rfl
@[simp] theorem offer_rlen (s : State) (e : HostEvent) : (s.offer e).rlen = s.rlen := rfl
@[simp] theorem offer_errcmd (s : State) (e : HostEvent) : (s.offer e).errcmd = s.errcmd := rfl
@[simp] theorem offer_erraddr (s : State) (e : HostEvent) : (s.offer e).erraddr = s.erraddr := rfl
@[simp] theorem offer_pa (s : State) (e : HostEvent) : (s.offer e).pa = s.pa := rfl
@[simp] theorem offer_pb (s : State) (e : HostEvent) : (s.offer e).pb = s.pb := rfl
@[simp] theorem offer_pr (s : State) (e : HostEvent) : (s.offer e).pr = s.pr := rfl
@[simp] theorem offer_cfg (s : State) (e : HostEvent) : (s.offer e).cfg = s.cfg := rfl
@[simp] theorem offer_draws (s : State) (e : HostEvent) : (s.offer e).draws = s.draws := rfl
@[simp] theorem offer_pending (s : State) (e : HostEvent) : (s.offer e).pending = e :: s.pending := rfl
@[simp] theorem offer_response (s : State) (e : HostEvent) : (s.offer e).response = s.response := rfl

/-! ### Setting a flag -/

@[simp] theorem setStatus_status (s : State) (b : StatusBit) : (s.setStatus b).status = setFlag b s.status := rfl
@[simp] theorem setStatus_result (s : State) (b : StatusBit) : (s.setStatus b).result = s.result := rfl
@[simp] theorem setStatus_rlen (s : State) (b : StatusBit) : (s.setStatus b).rlen = s.rlen := rfl
@[simp] theorem setStatus_errcmd (s : State) (b : StatusBit) : (s.setStatus b).errcmd = s.errcmd := rfl
@[simp] theorem setStatus_erraddr (s : State) (b : StatusBit) : (s.setStatus b).erraddr = s.erraddr := rfl
@[simp] theorem setStatus_pa (s : State) (b : StatusBit) : (s.setStatus b).pa = s.pa := rfl
@[simp] theorem setStatus_pb (s : State) (b : StatusBit) : (s.setStatus b).pb = s.pb := rfl
@[simp] theorem setStatus_pr (s : State) (b : StatusBit) : (s.setStatus b).pr = s.pr := rfl
@[simp] theorem setStatus_cfg (s : State) (b : StatusBit) : (s.setStatus b).cfg = s.cfg := rfl
@[simp] theorem setStatus_draws (s : State) (b : StatusBit) : (s.setStatus b).draws = s.draws := rfl
@[simp] theorem setStatus_pending (s : State) (b : StatusBit) : (s.setStatus b).pending = s.pending := rfl
@[simp] theorem setStatus_response (s : State) (b : StatusBit) : (s.setStatus b).response = s.response := rfl

/-! ### Completing a command -/

@[simp] theorem complete_status (s : State) : (complete s).status = setFlag .done s.status := rfl
@[simp] theorem complete_result (s : State) : (complete s).result = s.result := rfl
@[simp] theorem complete_rlen (s : State) : (complete s).rlen = s.rlen := rfl
@[simp] theorem complete_errcmd (s : State) : (complete s).errcmd = s.errcmd := rfl
@[simp] theorem complete_erraddr (s : State) : (complete s).erraddr = s.erraddr := rfl
@[simp] theorem complete_pa (s : State) : (complete s).pa = s.pa := rfl
@[simp] theorem complete_pb (s : State) : (complete s).pb = s.pb := rfl
@[simp] theorem complete_pr (s : State) : (complete s).pr = s.pr := rfl
@[simp] theorem complete_cfg (s : State) : (complete s).cfg = s.cfg := rfl
@[simp] theorem complete_draws (s : State) : (complete s).draws = s.draws := rfl
@[simp] theorem complete_pending (s : State) : (complete s).pending = s.pending := rfl
@[simp] theorem complete_response (s : State) : (complete s).response = s.response := rfl

/-! ### Completing a scalar command -/

@[simp] theorem finishScalar_status (s : State) (v : Byte) : (finishScalar v s).status = setFlag .done s.status := rfl
@[simp] theorem finishScalar_result (s : State) (v : Byte) : (finishScalar v s).result = v := rfl
@[simp] theorem finishScalar_rlen (s : State) (v : Byte) : (finishScalar v s).rlen = s.rlen := rfl
@[simp] theorem finishScalar_errcmd (s : State) (v : Byte) : (finishScalar v s).errcmd = s.errcmd := rfl
@[simp] theorem finishScalar_erraddr (s : State) (v : Byte) : (finishScalar v s).erraddr = s.erraddr := rfl
@[simp] theorem finishScalar_pa (s : State) (v : Byte) : (finishScalar v s).pa = s.pa := rfl
@[simp] theorem finishScalar_pb (s : State) (v : Byte) : (finishScalar v s).pb = s.pb := rfl
@[simp] theorem finishScalar_pr (s : State) (v : Byte) : (finishScalar v s).pr = s.pr := rfl
@[simp] theorem finishScalar_cfg (s : State) (v : Byte) : (finishScalar v s).cfg = s.cfg := rfl
@[simp] theorem finishScalar_draws (s : State) (v : Byte) : (finishScalar v s).draws = s.draws := rfl
@[simp] theorem finishScalar_pending (s : State) (v : Byte) : (finishScalar v s).pending = s.pending := rfl
@[simp] theorem finishScalar_response (s : State) (v : Byte) : (finishScalar v s).response = s.response := rfl

/-! ### Completing a polynomial command -/

@[simp] theorem finishPoly_status (s : State) (T : List Byte) : (finishPoly T s).status = setFlag .done s.status := rfl
@[simp] theorem finishPoly_result (s : State) (T : List Byte) : (finishPoly T s).result = s.result := rfl
@[simp] theorem finishPoly_rlen (s : State) (T : List Byte) : (finishPoly T s).rlen = BitVec.ofNat 7 T.length := rfl
@[simp] theorem finishPoly_errcmd (s : State) (T : List Byte) : (finishPoly T s).errcmd = s.errcmd := rfl
@[simp] theorem finishPoly_erraddr (s : State) (T : List Byte) : (finishPoly T s).erraddr = s.erraddr := rfl
@[simp] theorem finishPoly_pa (s : State) (T : List Byte) : (finishPoly T s).pa = s.pa := rfl
@[simp] theorem finishPoly_pb (s : State) (T : List Byte) : (finishPoly T s).pb = s.pb := rfl
@[simp] theorem finishPoly_pr (s : State) (T : List Byte) : (finishPoly T s).pr = insertCells s.pr 0 T := rfl
@[simp] theorem finishPoly_cfg (s : State) (T : List Byte) : (finishPoly T s).cfg = s.cfg := rfl
@[simp] theorem finishPoly_draws (s : State) (T : List Byte) : (finishPoly T s).draws = s.draws := rfl
@[simp] theorem finishPoly_pending (s : State) (T : List Byte) : (finishPoly T s).pending = s.pending := rfl
@[simp] theorem finishPoly_response (s : State) (T : List Byte) : (finishPoly T s).response = s.response := rfl

/-! ### Raising ERR_ILLEGAL -/

@[simp] theorem raise_illegal_status (s : State) (w : Word) : (raise (.illegal w) s).status = setFlag .done (setFlag .errIllegal s.status) := rfl
@[simp] theorem raise_illegal_result (s : State) (w : Word) : (raise (.illegal w) s).result = s.result := rfl
@[simp] theorem raise_illegal_rlen (s : State) (w : Word) : (raise (.illegal w) s).rlen = s.rlen := rfl
@[simp] theorem raise_illegal_errcmd (s : State) (w : Word) : (raise (.illegal w) s).errcmd = w := rfl
@[simp] theorem raise_illegal_erraddr (s : State) (w : Word) : (raise (.illegal w) s).erraddr = s.erraddr := rfl
@[simp] theorem raise_illegal_pa (s : State) (w : Word) : (raise (.illegal w) s).pa = s.pa := rfl
@[simp] theorem raise_illegal_pb (s : State) (w : Word) : (raise (.illegal w) s).pb = s.pb := rfl
@[simp] theorem raise_illegal_pr (s : State) (w : Word) : (raise (.illegal w) s).pr = s.pr := rfl
@[simp] theorem raise_illegal_cfg (s : State) (w : Word) : (raise (.illegal w) s).cfg = s.cfg := rfl
@[simp] theorem raise_illegal_draws (s : State) (w : Word) : (raise (.illegal w) s).draws = s.draws := rfl
@[simp] theorem raise_illegal_pending (s : State) (w : Word) : (raise (.illegal w) s).pending = s.pending := rfl
@[simp] theorem raise_illegal_response (s : State) (w : Word) : (raise (.illegal w) s).response = s.response := rfl

/-! ### Raising ERR_LEN -/

@[simp] theorem raise_len_status (s : State) (w : Word) : (raise (.len w) s).status = setFlag .done (setFlag .errLen s.status) := rfl
@[simp] theorem raise_len_result (s : State) (w : Word) : (raise (.len w) s).result = s.result := rfl
@[simp] theorem raise_len_rlen (s : State) (w : Word) : (raise (.len w) s).rlen = s.rlen := rfl
@[simp] theorem raise_len_errcmd (s : State) (w : Word) : (raise (.len w) s).errcmd = w := rfl
@[simp] theorem raise_len_erraddr (s : State) (w : Word) : (raise (.len w) s).erraddr = s.erraddr := rfl
@[simp] theorem raise_len_pa (s : State) (w : Word) : (raise (.len w) s).pa = s.pa := rfl
@[simp] theorem raise_len_pb (s : State) (w : Word) : (raise (.len w) s).pb = s.pb := rfl
@[simp] theorem raise_len_pr (s : State) (w : Word) : (raise (.len w) s).pr = s.pr := rfl
@[simp] theorem raise_len_cfg (s : State) (w : Word) : (raise (.len w) s).cfg = s.cfg := rfl
@[simp] theorem raise_len_draws (s : State) (w : Word) : (raise (.len w) s).draws = s.draws := rfl
@[simp] theorem raise_len_pending (s : State) (w : Word) : (raise (.len w) s).pending = s.pending := rfl
@[simp] theorem raise_len_response (s : State) (w : Word) : (raise (.len w) s).response = s.response := rfl

/-! ### Raising ERR_LOG0 -/

@[simp] theorem raise_log0_status (s : State) (w : Word) : (raise (.log0 w) s).status = setFlag .done (setFlag .errLog0 s.status) := rfl
@[simp] theorem raise_log0_result (s : State) (w : Word) : (raise (.log0 w) s).result = s.result := rfl
@[simp] theorem raise_log0_rlen (s : State) (w : Word) : (raise (.log0 w) s).rlen = s.rlen := rfl
@[simp] theorem raise_log0_errcmd (s : State) (w : Word) : (raise (.log0 w) s).errcmd = w := rfl
@[simp] theorem raise_log0_erraddr (s : State) (w : Word) : (raise (.log0 w) s).erraddr = s.erraddr := rfl
@[simp] theorem raise_log0_pa (s : State) (w : Word) : (raise (.log0 w) s).pa = s.pa := rfl
@[simp] theorem raise_log0_pb (s : State) (w : Word) : (raise (.log0 w) s).pb = s.pb := rfl
@[simp] theorem raise_log0_pr (s : State) (w : Word) : (raise (.log0 w) s).pr = s.pr := rfl
@[simp] theorem raise_log0_cfg (s : State) (w : Word) : (raise (.log0 w) s).cfg = s.cfg := rfl
@[simp] theorem raise_log0_draws (s : State) (w : Word) : (raise (.log0 w) s).draws = s.draws := rfl
@[simp] theorem raise_log0_pending (s : State) (w : Word) : (raise (.log0 w) s).pending = s.pending := rfl
@[simp] theorem raise_log0_response (s : State) (w : Word) : (raise (.log0 w) s).response = s.response := rfl

/-! ### Raising ERR_BUS -/

@[simp] theorem raise_bus_status (s : State) (addr : Addr) : (raise (.bus addr) s).status = setFlag .errBus s.status := rfl
@[simp] theorem raise_bus_result (s : State) (addr : Addr) : (raise (.bus addr) s).result = s.result := rfl
@[simp] theorem raise_bus_rlen (s : State) (addr : Addr) : (raise (.bus addr) s).rlen = s.rlen := rfl
@[simp] theorem raise_bus_errcmd (s : State) (addr : Addr) : (raise (.bus addr) s).errcmd = s.errcmd := rfl
@[simp] theorem raise_bus_erraddr (s : State) (addr : Addr) : (raise (.bus addr) s).erraddr = addr := rfl
@[simp] theorem raise_bus_pa (s : State) (addr : Addr) : (raise (.bus addr) s).pa = s.pa := rfl
@[simp] theorem raise_bus_pb (s : State) (addr : Addr) : (raise (.bus addr) s).pb = s.pb := rfl
@[simp] theorem raise_bus_pr (s : State) (addr : Addr) : (raise (.bus addr) s).pr = s.pr := rfl
@[simp] theorem raise_bus_cfg (s : State) (addr : Addr) : (raise (.bus addr) s).cfg = s.cfg := rfl
@[simp] theorem raise_bus_draws (s : State) (addr : Addr) : (raise (.bus addr) s).draws = s.draws := rfl
@[simp] theorem raise_bus_pending (s : State) (addr : Addr) : (raise (.bus addr) s).pending = s.pending := rfl
@[simp] theorem raise_bus_response (s : State) (addr : Addr) : (raise (.bus addr) s).response = s.response := rfl

/-! ### Replacing PA -/

@[simp] theorem setBuffer_pa_status (s : State) (m : Memory) : (s.setBuffer .pa m).status = s.status := rfl
@[simp] theorem setBuffer_pa_result (s : State) (m : Memory) : (s.setBuffer .pa m).result = s.result := rfl
@[simp] theorem setBuffer_pa_rlen (s : State) (m : Memory) : (s.setBuffer .pa m).rlen = s.rlen := rfl
@[simp] theorem setBuffer_pa_errcmd (s : State) (m : Memory) : (s.setBuffer .pa m).errcmd = s.errcmd := rfl
@[simp] theorem setBuffer_pa_erraddr (s : State) (m : Memory) : (s.setBuffer .pa m).erraddr = s.erraddr := rfl
@[simp] theorem setBuffer_pa_pa (s : State) (m : Memory) : (s.setBuffer .pa m).pa = m := rfl
@[simp] theorem setBuffer_pa_pb (s : State) (m : Memory) : (s.setBuffer .pa m).pb = s.pb := rfl
@[simp] theorem setBuffer_pa_pr (s : State) (m : Memory) : (s.setBuffer .pa m).pr = s.pr := rfl
@[simp] theorem setBuffer_pa_cfg (s : State) (m : Memory) : (s.setBuffer .pa m).cfg = s.cfg := rfl
@[simp] theorem setBuffer_pa_draws (s : State) (m : Memory) : (s.setBuffer .pa m).draws = s.draws := rfl
@[simp] theorem setBuffer_pa_pending (s : State) (m : Memory) : (s.setBuffer .pa m).pending = s.pending := rfl
@[simp] theorem setBuffer_pa_response (s : State) (m : Memory) : (s.setBuffer .pa m).response = s.response := rfl

/-! ### Replacing PB -/

@[simp] theorem setBuffer_pb_status (s : State) (m : Memory) : (s.setBuffer .pb m).status = s.status := rfl
@[simp] theorem setBuffer_pb_result (s : State) (m : Memory) : (s.setBuffer .pb m).result = s.result := rfl
@[simp] theorem setBuffer_pb_rlen (s : State) (m : Memory) : (s.setBuffer .pb m).rlen = s.rlen := rfl
@[simp] theorem setBuffer_pb_errcmd (s : State) (m : Memory) : (s.setBuffer .pb m).errcmd = s.errcmd := rfl
@[simp] theorem setBuffer_pb_erraddr (s : State) (m : Memory) : (s.setBuffer .pb m).erraddr = s.erraddr := rfl
@[simp] theorem setBuffer_pb_pa (s : State) (m : Memory) : (s.setBuffer .pb m).pa = s.pa := rfl
@[simp] theorem setBuffer_pb_pb (s : State) (m : Memory) : (s.setBuffer .pb m).pb = m := rfl
@[simp] theorem setBuffer_pb_pr (s : State) (m : Memory) : (s.setBuffer .pb m).pr = s.pr := rfl
@[simp] theorem setBuffer_pb_cfg (s : State) (m : Memory) : (s.setBuffer .pb m).cfg = s.cfg := rfl
@[simp] theorem setBuffer_pb_draws (s : State) (m : Memory) : (s.setBuffer .pb m).draws = s.draws := rfl
@[simp] theorem setBuffer_pb_pending (s : State) (m : Memory) : (s.setBuffer .pb m).pending = s.pending := rfl
@[simp] theorem setBuffer_pb_response (s : State) (m : Memory) : (s.setBuffer .pb m).response = s.response := rfl

/-! ### Replacing PR -/

@[simp] theorem setBuffer_pr_status (s : State) (m : Memory) : (s.setBuffer .pr m).status = s.status := rfl
@[simp] theorem setBuffer_pr_result (s : State) (m : Memory) : (s.setBuffer .pr m).result = s.result := rfl
@[simp] theorem setBuffer_pr_rlen (s : State) (m : Memory) : (s.setBuffer .pr m).rlen = s.rlen := rfl
@[simp] theorem setBuffer_pr_errcmd (s : State) (m : Memory) : (s.setBuffer .pr m).errcmd = s.errcmd := rfl
@[simp] theorem setBuffer_pr_erraddr (s : State) (m : Memory) : (s.setBuffer .pr m).erraddr = s.erraddr := rfl
@[simp] theorem setBuffer_pr_pa (s : State) (m : Memory) : (s.setBuffer .pr m).pa = s.pa := rfl
@[simp] theorem setBuffer_pr_pb (s : State) (m : Memory) : (s.setBuffer .pr m).pb = s.pb := rfl
@[simp] theorem setBuffer_pr_pr (s : State) (m : Memory) : (s.setBuffer .pr m).pr = m := rfl
@[simp] theorem setBuffer_pr_cfg (s : State) (m : Memory) : (s.setBuffer .pr m).cfg = s.cfg := rfl
@[simp] theorem setBuffer_pr_draws (s : State) (m : Memory) : (s.setBuffer .pr m).draws = s.draws := rfl
@[simp] theorem setBuffer_pr_pending (s : State) (m : Memory) : (s.setBuffer .pr m).pending = s.pending := rfl
@[simp] theorem setBuffer_pr_response (s : State) (m : Memory) : (s.setBuffer .pr m).response = s.response := rfl

/-! ### Writing an entry of PA -/

@[simp] theorem writeEntry_pa_status (s : State) (i : Nat) (v : Byte) : (s.writeEntry .pa i v).status = s.status := rfl
@[simp] theorem writeEntry_pa_result (s : State) (i : Nat) (v : Byte) : (s.writeEntry .pa i v).result = s.result := rfl
@[simp] theorem writeEntry_pa_rlen (s : State) (i : Nat) (v : Byte) : (s.writeEntry .pa i v).rlen = s.rlen := rfl
@[simp] theorem writeEntry_pa_errcmd (s : State) (i : Nat) (v : Byte) : (s.writeEntry .pa i v).errcmd = s.errcmd := rfl
@[simp] theorem writeEntry_pa_erraddr (s : State) (i : Nat) (v : Byte) : (s.writeEntry .pa i v).erraddr = s.erraddr := rfl
@[simp] theorem writeEntry_pa_pa (s : State) (i : Nat) (v : Byte) : (s.writeEntry .pa i v).pa = insertCell s.pa i v := rfl
@[simp] theorem writeEntry_pa_pb (s : State) (i : Nat) (v : Byte) : (s.writeEntry .pa i v).pb = s.pb := rfl
@[simp] theorem writeEntry_pa_pr (s : State) (i : Nat) (v : Byte) : (s.writeEntry .pa i v).pr = s.pr := rfl
@[simp] theorem writeEntry_pa_cfg (s : State) (i : Nat) (v : Byte) : (s.writeEntry .pa i v).cfg = s.cfg := rfl
@[simp] theorem writeEntry_pa_draws (s : State) (i : Nat) (v : Byte) : (s.writeEntry .pa i v).draws = s.draws := rfl
@[simp] theorem writeEntry_pa_pending (s : State) (i : Nat) (v : Byte) : (s.writeEntry .pa i v).pending = s.pending := rfl
@[simp] theorem writeEntry_pa_response (s : State) (i : Nat) (v : Byte) : (s.writeEntry .pa i v).response = s.response := rfl

/-! ### Writing an entry of PB -/

@[simp] theorem writeEntry_pb_status (s : State) (i : Nat) (v : Byte) : (s.writeEntry .pb i v).status = s.status := rfl
@[simp] theorem writeEntry_pb_result (s : State) (i : Nat) (v : Byte) : (s.writeEntry .pb i v).result = s.result := rfl
@[simp] theorem writeEntry_pb_rlen (s : State) (i : Nat) (v : Byte) : (s.writeEntry .pb i v).rlen = s.rlen := rfl
@[simp] theorem writeEntry_pb_errcmd (s : State) (i : Nat) (v : Byte) : (s.writeEntry .pb i v).errcmd = s.errcmd := rfl
@[simp] theorem writeEntry_pb_erraddr (s : State) (i : Nat) (v : Byte) : (s.writeEntry .pb i v).erraddr = s.erraddr := rfl
@[simp] theorem writeEntry_pb_pa (s : State) (i : Nat) (v : Byte) : (s.writeEntry .pb i v).pa = s.pa := rfl
@[simp] theorem writeEntry_pb_pb (s : State) (i : Nat) (v : Byte) : (s.writeEntry .pb i v).pb = insertCell s.pb i v := rfl
@[simp] theorem writeEntry_pb_pr (s : State) (i : Nat) (v : Byte) : (s.writeEntry .pb i v).pr = s.pr := rfl
@[simp] theorem writeEntry_pb_cfg (s : State) (i : Nat) (v : Byte) : (s.writeEntry .pb i v).cfg = s.cfg := rfl
@[simp] theorem writeEntry_pb_draws (s : State) (i : Nat) (v : Byte) : (s.writeEntry .pb i v).draws = s.draws := rfl
@[simp] theorem writeEntry_pb_pending (s : State) (i : Nat) (v : Byte) : (s.writeEntry .pb i v).pending = s.pending := rfl
@[simp] theorem writeEntry_pb_response (s : State) (i : Nat) (v : Byte) : (s.writeEntry .pb i v).response = s.response := rfl

/-! ### Reset -/

@[simp] theorem resetBlock_status (s : State) : (resetBlock s).status = 0 := rfl
@[simp] theorem resetBlock_result (s : State) : (resetBlock s).result = 0 := rfl
@[simp] theorem resetBlock_rlen (s : State) : (resetBlock s).rlen = 0 := rfl
@[simp] theorem resetBlock_errcmd (s : State) : (resetBlock s).errcmd = 0 := rfl
@[simp] theorem resetBlock_erraddr (s : State) : (resetBlock s).erraddr = 0 := rfl
@[simp] theorem resetBlock_pa (s : State) : (resetBlock s).pa = [] := rfl
@[simp] theorem resetBlock_pb (s : State) : (resetBlock s).pb = [] := rfl
@[simp] theorem resetBlock_pr (s : State) : (resetBlock s).pr = [] := rfl
@[simp] theorem resetBlock_cfg (s : State) : (resetBlock s).cfg = s.cfg := rfl
@[simp] theorem resetBlock_draws (s : State) : (resetBlock s).draws = s.draws + 1 := rfl
@[simp] theorem resetBlock_pending (s : State) : (resetBlock s).pending = s.pending := rfl
@[simp] theorem resetBlock_response (s : State) : (resetBlock s).response = none := rfl

/-! ### The written entries of a buffer -/

@[simp] theorem buffer_pa (s : State) : s.buffer .pa = s.pa := rfl
@[simp] theorem buffer_pb (s : State) : s.buffer .pb = s.pb := rfl
@[simp] theorem buffer_pr (s : State) : s.buffer .pr = s.pr := rfl

end Sys2Proof.Machine
end

