-- ==== Sys2Proof/Laws/Buffer.lean ====
section
/-! SUPPORT. Buffer entries: a read after a write, and the canonical form that every write keeps. -/

namespace Sys2Proof.Machine

/-- Every index of the memory is above `i`. -/
def allAbove (i : Nat) (m : Memory) : Prop := ∀ c ∈ m, i < c.1

theorem rising_cons (j : Nat) (u : Byte) (m : Memory) :
    rising ((j, u) :: m) = true ↔ allAbove j m ∧ rising m = true := by
  induction m generalizing j u with
  | nil => simp [rising, allAbove]
  | cons c m ih =>
    obtain ⟨k, w⟩ := c
    simp only [rising, Bool.and_eq_true, decide_eq_true_eq]
    rw [ih]
    constructor
    · rintro ⟨h1, h2, h3⟩
      refine ⟨?_, h2, h3⟩
      intro c hc
      rcases List.mem_cons.mp hc with rfl | hc
      · exact h1
      · exact Nat.lt_trans h1 (h2 c hc)
    · rintro ⟨h1, h2, h3⟩
      exact ⟨h1 (k, w) (by simp), h2, h3⟩

/-- An entry reads as the byte just written to it. -/
@[simp] theorem lookup_insertCell_same (m : Memory) (i : Nat) (v : Byte) : lookupCell (insertCell m i v) i = some v := by
  induction m with
  | nil => simp [insertCell, lookupCell]
  | cons c m ih =>
    obtain ⟨j, u⟩ := c
    unfold insertCell
    split
    · simp [lookupCell]
    · split
      · simp [lookupCell]
      · rename_i h
        simp [lookupCell, h, ih]

/-- A write leaves every other entry. -/
theorem lookup_insertCell_other (m : Memory) (i j : Nat) (v : Byte) (h : j ≠ i) :
    lookupCell (insertCell m i v) j = lookupCell m j := by
  induction m with
  | nil => simp [insertCell, lookupCell, h]
  | cons c m ih =>
    obtain ⟨k, u⟩ := c
    unfold insertCell
    split
    · simp [lookupCell, h]
    · split
      · rename_i _ hik
        subst hik
        simp [lookupCell, h]
      · simp only [lookupCell, ih]

/-- The cells after a write are the new one and old ones. -/
theorem mem_insertCell {m : Memory} {i : Nat} {v : Byte} {c : Host.Cell} (h : c ∈ insertCell m i v) : c = (i, v) ∨ c ∈ m := by
  induction m with
  | nil => simpa [insertCell] using h
  | cons d m ih =>
    obtain ⟨j, u⟩ := d
    unfold insertCell at h
    split at h
    · simpa using h
    · split at h
      · rcases List.mem_cons.mp h with h | h
        · exact .inl h
        · exact .inr (List.mem_cons_of_mem _ h)
      · rcases List.mem_cons.mp h with h | h
        · exact .inr (by simp [h])
        · rcases ih h with h | h
          · exact .inl h
          · exact .inr (List.mem_cons_of_mem _ h)

/-- A write keeps the indices strictly rising. -/
theorem rising_insertCell (m : Memory) (i : Nat) (v : Byte) (h : rising m = true) : rising (insertCell m i v) = true := by
  induction m with
  | nil => rfl
  | cons c m ih =>
    obtain ⟨j, u⟩ := c
    have hc := (rising_cons j u m).mp h
    unfold insertCell
    split
    · rename_i hij
      rw [rising_cons]
      refine ⟨?_, h⟩
      intro c hm
      rcases List.mem_cons.mp hm with rfl | hm
      · exact hij
      · exact Nat.lt_trans hij (hc.1 c hm)
    · split
      · rename_i hij
        subst hij
        exact (rising_cons i v m).mpr hc
      · rename_i h1 h2
        rw [rising_cons]
        refine ⟨?_, ih hc.2⟩
        intro c hm
        rcases mem_insertCell hm with rfl | hm
        · show j < i
          omega
        · exact hc.1 c hm

theorem wf_iff (n : Nat) (m : Memory) : Memory.wf n m = true ↔ rising m = true ∧ ∀ c ∈ m, c.1 < n := by
  simp [Memory.wf]

/-- A buffer with nothing written is in canonical form. -/
@[simp] theorem wf_nil (n : Nat) : Memory.wf n [] = true := rfl

/-- Writing an entry below the capacity keeps the canonical form. -/
theorem wf_insertCell (n : Nat) (m : Memory) (i : Nat) (v : Byte) (h : Memory.wf n m = true) (hi : i < n) :
    Memory.wf n (insertCell m i v) = true := by
  rw [wf_iff] at h ⊢
  refine ⟨rising_insertCell m i v h.1, ?_⟩
  intro c hc
  rcases mem_insertCell hc with rfl | hc
  · exact hi
  · exact h.2 c hc

/-- Writing entries below the capacity keeps the canonical form. -/
theorem wf_insertCells (n : Nat) (m : Memory) (i : Nat) (vs : List Byte) (h : Memory.wf n m = true) (hi : i + vs.length ≤ n) :
    Memory.wf n (insertCells m i vs) = true := by
  induction vs generalizing m i with
  | nil => exact h
  | cons v vs ih =>
    simp only [List.length_cons] at hi
    exact ih _ _ (wf_insertCell n m i v h (by omega)) (by omega)

/-- What an entry reads as after a list of bytes is written from entry `i` on. -/
theorem lookup_insertCells (m : Memory) (i : Nat) (vs : List Byte) (j : Nat) :
    lookupCell (insertCells m i vs) j =
      if i ≤ j ∧ j < i + vs.length then some (vs.getD (j - i) 0) else lookupCell m j := by
  induction vs generalizing m i with
  | nil => simp [insertCells]
  | cons v vs ih =>
    rw [insertCells, ih]
    by_cases hj : j = i
    · subst hj
      have h1 : ¬ (j + 1 ≤ j ∧ j < j + 1 + vs.length) := by omega
      simp
    · rw [lookup_insertCell_other _ _ _ _ hj]
      by_cases hc : i + 1 ≤ j ∧ j < i + 1 + vs.length
      · have h2 : i ≤ j ∧ j < i + (v :: vs).length := by simp only [List.length_cons]; omega
        rw [if_pos hc, if_pos h2]
        obtain ⟨k, rfl⟩ : ∃ k, j = i + 1 + k := ⟨j - (i + 1), by omega⟩
        have e1 : i + 1 + k - (i + 1) = k := by omega
        have e2 : i + 1 + k - i = k + 1 := by omega
        rw [e1, e2, List.getD_cons_succ]
      · have h2 : ¬ (i ≤ j ∧ j < i + (v :: vs).length) := by simp only [List.length_cons]; omega
        rw [if_neg hc, if_neg h2]

/-- A second write of the same byte to the same entry changes nothing. -/
theorem insertCell_insertCell (m : Memory) (i : Nat) (v : Byte) : insertCell (insertCell m i v) i v = insertCell m i v := by
  induction m with
  | nil => simp [insertCell]
  | cons c m ih =>
    obtain ⟨j, u⟩ := c
    by_cases h1 : i < j
    · simp [insertCell, h1]
    · by_cases h2 : i = j
      · simp [insertCell, h2]
      · simp [insertCell, h1, h2, ih]

/-! ### Entries of the state -/

/-- A state with the same written entries and the same draw reads the same entries. -/
theorem entry_congr {s t : State} (b : BufferId) (i : Nat) (hb : t.buffer b = s.buffer b) (hd : t.draws = s.draws) :
    t.entry b i = s.entry b i := by
  simp only [State.entry, hb, hd]

/-- A state with the same three buffers and the same draw reads the same entries. -/
theorem sameEntries_of {s t : State} (ha : t.pa = s.pa) (hb : t.pb = s.pb) (hr : t.pr = s.pr) (hd : t.draws = s.draws)
    (b : BufferId) (i : Nat) : t.entry b i = s.entry b i := by
  cases b <;> exact entry_congr _ _ (by assumption) hd

/-- An entry never written since reset is its `BUF_INIT` draw (10 R38). -/
theorem entry_unwritten {s : State} {b : BufferId} {i : Nat} (h : lookupCell (s.buffer b) i = none) :
    s.entry b i = Config.bufInit s.draws b i := by
  simp only [State.entry, h]

/-- What an entry of PR reads as after a polynomial command has completed with the coefficients `T`. -/
theorem entry_finishPoly_pr (s : State) (T : List Byte) (i : Nat) :
    (finishPoly T s).entry .pr i = if i < T.length then T.getD i 0 else s.entry .pr i := by
  simp only [State.entry, buffer_pr, finishPoly_pr, finishPoly_draws, lookup_insertCells]
  by_cases h : i < T.length
  · simp [h]
  · simp [h]

@[simp] theorem entries_length (s : State) (b : BufferId) (n : Nat) : (s.entries b n).length = n := by
  simp [State.entries]

end Sys2Proof.Machine
end

