-- ==== Sys2Proof/Laws/Bus.lean ====
section
/-! SUPPORT. The bus and the step, said once: which accesses are refused, what each event does, and what a step can do. -/

namespace Sys2Proof.Machine

/-! ### Flags as bits -/

theorem setFlag_done (st : BitVec 5) : setFlag .done st = st ||| 0b00001 := rfl
theorem setFlag_errIllegal (st : BitVec 5) : setFlag .errIllegal st = st ||| 0b00010 := rfl
theorem setFlag_errLen (st : BitVec 5) : setFlag .errLen st = st ||| 0b00100 := rfl
theorem setFlag_errLog0 (st : BitVec 5) : setFlag .errLog0 st = st ||| 0b01000 := rfl
theorem setFlag_errBus (st : BitVec 5) : setFlag .errBus st = st ||| 0b10000 := rfl

/-- A flag after setting a flag. -/
@[simp] theorem flagIsSet_setFlag (st : BitVec 5) (a b : StatusBit) :
    flagIsSet (setFlag a st) b = (flagIsSet st b || decide (a = b)) := by
  cases a <;> cases b <;> simp [flagIsSet, setFlag, StatusBit.number]

/-- A flag after the host's write to STATUS: cleared where the host wrote 1 (10 R27). -/
theorem flagIsSet_clearFlags (st : BitVec 5) (v : Word) (b : StatusBit) :
    flagIsSet (clearFlags v st) b = (flagIsSet st b && !v.getLsbD b.number) := by
  cases b <;> simp [flagIsSet, clearFlags, StatusBit.number]

/-- Raising an error leaves the configuration, the draw, the host's stream and the bus answer. -/
theorem raise_surroundings (e : BlockError) (s : State) :
    (raise e s).cfg = s.cfg ∧ (raise e s).draws = s.draws ∧ (raise e s).pending = s.pending ∧
      (raise e s).response = s.response := by
  cases e <;> exact ⟨rfl, rfl, rfl, rfl⟩

/-- Raising an error leaves the results and the buffers (60 R162). -/
theorem raise_results (e : BlockError) (s : State) :
    (raise e s).result = s.result ∧ (raise e s).rlen = s.rlen ∧ (raise e s).pa = s.pa ∧ (raise e s).pb = s.pb ∧
      (raise e s).pr = s.pr := by
  cases e <;> exact ⟨rfl, rfl, rfl, rfl, rfl⟩

/-! ### Address decode -/

theorem polyMax_bounds (c : Config) : 1 ≤ c.polyMax ∧ c.polyMax ≤ 64 := by
  have h := c.accepted
  simp only [acceptsConfig, Bool.and_eq_true, decide_eq_true_eq] at h
  omega

theorem aligned_iff (addr : Addr) : aligned addr = true ↔ addr.toNat % 4 = 0 := by
  simp only [aligned, beq_iff_eq]
  rw [BitVec.toNat_eq]
  simp

/-- `bufferAt` by the ranges of 20 R51. -/
theorem bufferAt_cases (addr : Addr) :
    (bufferAt addr = some .pa ∧ 0x100 ≤ addr.toNat ∧ addr.toNat < 0x200) ∨
    (bufferAt addr = some .pb ∧ 0x200 ≤ addr.toNat ∧ addr.toNat < 0x300) ∨
    (bufferAt addr = some .pr ∧ 0x300 ≤ addr.toNat ∧ addr.toNat < 0x400) ∨
    (bufferAt addr = none ∧ (addr.toNat < 0x100 ∨ 0x400 ≤ addr.toNat)) := by
  unfold bufferAt
  split
  · rename_i h; left; refine ⟨rfl, ?_, ?_⟩ <;> omega
  · rename_i h; right; left; refine ⟨rfl, ?_, ?_⟩ <;> omega
  · rename_i h; right; right; left; refine ⟨rfl, ?_, ?_⟩ <;> omega
  · rename_i h1 h2 h3
    right; right; right
    refine ⟨rfl, ?_⟩
    by_contra hc
    have : addr.toNat / 0x100 = 1 ∨ addr.toNat / 0x100 = 2 ∨ addr.toNat / 0x100 = 3 := by omega
    rcases this with h | h | h
    · exact h1 h
    · exact h2 h
    · exact h3 h

/-- The register block: below 0x020 every word has its register, above there is none (20 R51). -/
theorem regAt_eq_none (n : Nat) : regAt n = none ↔ 8 ≤ n := by
  unfold regAt
  split
  case h_9 h0 h1 h2 h3 h4 h5 h6 h7 =>
    simp only [true_iff]
    by_contra hc
    have : n = 0 ∨ n = 1 ∨ n = 2 ∨ n = 3 ∨ n = 4 ∨ n = 5 ∨ n = 6 ∨ n = 7 := by omega
    rcases this with h | h | h | h | h | h | h | h <;> contradiction
  all_goals simp only [reduceCtorEq, false_iff]; omega

theorem inWindow_iff (n : Nat) (b : BufferId) (a : Nat) :
    inWindow n b a = true ↔ bufferBase b ≤ a ∧ a < bufferBase b + 4 * n := by
  simp only [inWindow, decide_eq_true_eq]

theorem isMapped_iff (n a : Nat) : isMapped n a = true ↔
    a < 0x20 ∨ (0x100 ≤ a ∧ a < 0x100 + 4 * n) ∨ (0x200 ≤ a ∧ a < 0x200 + 4 * n) ∨ (0x300 ≤ a ∧ a < 0x300 + 4 * n) := by
  simp only [isMapped, Bool.or_eq_true, decide_eq_true_eq, inWindow_iff, bufferBase, or_assoc]

theorem isWritable_iff (n a : Nat) : isWritable n a = true ↔
    a = 0x008 ∨ a = 0x00C ∨ (0x100 ≤ a ∧ a < 0x100 + 4 * n) ∨ (0x200 ≤ a ∧ a < 0x200 + 4 * n) := by
  simp only [isWritable, Bool.or_eq_true, decide_eq_true_eq, inWindow_iff, bufferBase, or_assoc]

theorem bufferBase_pa : bufferBase .pa = 0x100 := rfl
theorem bufferBase_pb : bufferBase .pb = 0x200 := rfl
theorem bufferBase_pr : bufferBase .pr = 0x300 := rfl

theorem target_of_buffer {n : Nat} {addr : Addr} {b : BufferId} (h : bufferAt addr = some b) :
    target n addr = if (addr.toNat - bufferBase b) / 4 < n then some (.entry b ((addr.toNat - bufferBase b) / 4)) else none := by
  unfold target
  rw [h]

theorem target_of_no_buffer {n : Nat} {addr : Addr} (h : bufferAt addr = none) :
    target n addr = (regAt (addr.toNat / 4)).map .reg := by
  unfold target
  rw [h]

/-- `target` refuses the unmapped addresses (20 R51). -/
theorem target_eq_none (n : Nat) (hn : n ≤ 64) (addr : Addr) (ha : addr.toNat % 4 = 0) :
    target n addr = none ↔ ¬ isMapped n addr.toNat = true := by
  have hlt := addr.isLt
  have e1 := bufferBase_pa
  have e2 := bufferBase_pb
  have e3 := bufferBase_pr
  rw [isMapped_iff]
  rcases bufferAt_cases addr with ⟨h, h1, h2⟩ | ⟨h, h1, h2⟩ | ⟨h, h1, h2⟩ | ⟨h, h1⟩
  case inr.inr.inr =>
    rw [target_of_no_buffer h, Option.map_eq_none_iff, regAt_eq_none]
    omega
  all_goals
    rw [target_of_buffer h]
    split <;> simp only [reduceCtorEq, true_iff, false_iff] <;> omega

/-- The refused addresses of 20 R55 are the misaligned and the unmapped ones. -/
theorem reach_eq_none (n : Nat) (hn : n ≤ 64) (addr : Addr) :
    reach n addr = none ↔ addr.toNat % 4 ≠ 0 ∨ isMapped n addr.toNat = false := by
  unfold reach
  by_cases ha : addr.toNat % 4 = 0
  · rw [if_pos ((aligned_iff addr).mpr ha), target_eq_none n hn addr ha]
    simp only [ha, ne_eq, not_true_eq_false, false_or, Bool.not_eq_true]
  · rw [if_neg (fun h => ha ((aligned_iff addr).mp h))]
    simp only [ha, ne_eq, not_false_eq_true, true_or]

/-- An entry of a buffer is reached at `base + 4·i` (20 R51). -/
theorem reach_eq_entry (n : Nat) (hn : n ≤ 64) (addr : Addr) (b : BufferId) (i : Nat) :
    reach n addr = some (.entry b i) ↔ i < n ∧ addr.toNat = bufferBase b + 4 * i := by
  have hlt := addr.isLt
  have e1 := bufferBase_pa
  have e2 := bufferBase_pb
  have e3 := bufferBase_pr
  unfold reach
  by_cases ha : addr.toNat % 4 = 0
  · rw [if_pos ((aligned_iff addr).mpr ha)]
    rcases bufferAt_cases addr with ⟨h, h1, h2⟩ | ⟨h, h1, h2⟩ | ⟨h, h1, h2⟩ | ⟨h, h1⟩
    case inr.inr.inr =>
      rw [target_of_no_buffer h]
      constructor
      · intro hm
        cases hr : regAt (addr.toNat / 4) <;> simp [hr] at hm
      · rintro ⟨hi, he⟩
        cases b <;> omega
    all_goals
      rw [target_of_buffer h]
      cases b <;> split <;>
        simp only [Option.some.injEq, Target.entry.injEq, reduceCtorEq, true_and, false_and, false_iff] <;> omega
  · rw [if_neg (fun h => ha ((aligned_iff addr).mp h))]
    simp only [reduceCtorEq, false_iff]
    rintro ⟨hi, he⟩
    cases b <;> omega

/-- A register is reached at its offset (20 R51). -/
theorem reach_eq_reg (n : Nat) (addr : Addr) (r : Reg) : reach n addr = some (.reg r) ↔ addr = r.offset := by
  have hlt := addr.isLt
  constructor
  · intro h
    unfold reach at h
    split at h
    · rename_i hal
      have ha := (aligned_iff addr).mp hal
      rcases bufferAt_cases addr with ⟨hb, h1, h2⟩ | ⟨hb, h1, h2⟩ | ⟨hb, h1, h2⟩ | ⟨hb, h1⟩
      case inr.inr.inr =>
        rw [target_of_no_buffer hb] at h
        obtain ⟨r', hr, hrr⟩ := Option.map_eq_some_iff.mp h
        obtain rfl : r' = r := by simpa using hrr
        have hk : addr.toNat / 4 < 8 := by
          by_contra hc
          rw [(regAt_eq_none _).mpr (by omega)] at hr
          cases hr
        obtain ⟨k, hk4⟩ : ∃ k, addr.toNat / 4 = k := ⟨_, rfl⟩
        have hak : addr = BitVec.ofNat 12 (4 * k) := by
          apply BitVec.eq_of_toNat_eq
          rw [BitVec.toNat_ofNat]
          omega
        rw [hk4] at hr hk
        rw [hak]
        revert hr
        clear hak hk4 ha h1 hb h hrr hal hlt
        revert k
        cases r' <;> decide
      all_goals
        rw [target_of_buffer hb] at h
        split at h <;> simp at h
    · simp at h
  · rintro rfl
    cases r <;> rfl

/-! ### Issuing a command -/

/-- Running a command answers a next state, always. -/
theorem exec_next (i : Instr) (s : State) : ∃ t, exec i s = .next t := by
  cases i with
  | nop => exact ⟨_, rfl⟩
  | gfAdd a b => exact ⟨_, rfl⟩
  | gfMul a b => exact ⟨_, rfl⟩
  | gfLog a => simp only [exec, execGfLog]; split <;> exact ⟨_, rfl⟩
  | gfExp e => exact ⟨_, rfl⟩
  | polyMul la lb => simp only [exec, execPolyMul]; split <;> exact ⟨_, rfl⟩
  | polyGen n => simp only [exec, execPolyGen]; split <;> exact ⟨_, rfl⟩

/-- Everything a command can do: complete with nothing, with an element, with coefficients, or raise a command error. -/
theorem exec_cases {i : Instr} {s t : State} (h : exec i s = .next t) :
    (i = .nop ∧ t = complete s) ∨
    (∃ v, scalarResult s.cfg i = some v ∧ t = finishScalar v s) ∨
    (∃ la lb, i = .polyMul la lb ∧ badMulLengths s.cfg.polyMax la lb = false ∧
      t = finishPoly (polymul s.cfg (s.entries .pa la) (s.entries .pb lb)) s) ∨
    (∃ n, i = .polyGen n ∧ badGenDegree s.cfg.polyMax n = false ∧ t = finishPoly (genpoly s.cfg n) s) ∨
    (i = .gfLog 0 ∧ t = raise (.log0 (encode i)) s) ∨
    (∃ la lb, i = .polyMul la lb ∧ badMulLengths s.cfg.polyMax la lb = true ∧ t = raise (.len (encode i)) s) ∨
    (∃ n, i = .polyGen n ∧ badGenDegree s.cfg.polyMax n = true ∧ t = raise (.len (encode i)) s) := by
  cases i with
  | nop => simp only [exec, execNop, Host.Outcome.next.injEq] at h; exact .inl ⟨rfl, h.symm⟩
  | gfAdd a b =>
    simp only [exec, execGfAdd, Host.Outcome.next.injEq] at h
    exact .inr (.inl ⟨_, rfl, h.symm⟩)
  | gfMul a b =>
    simp only [exec, execGfMul, Host.Outcome.next.injEq] at h
    exact .inr (.inl ⟨_, rfl, h.symm⟩)
  | gfLog a =>
    simp only [exec, execGfLog] at h
    split at h
    · rename_i ha
      subst ha
      simp only [Host.Outcome.next.injEq] at h
      exact .inr (.inr (.inr (.inr (.inl ⟨rfl, h.symm⟩))))
    · rename_i ha
      simp only [Host.Outcome.next.injEq] at h
      exact .inr (.inl ⟨_, if_neg ha, h.symm⟩)
  | gfExp e =>
    simp only [exec, execGfExp, Host.Outcome.next.injEq] at h
    exact .inr (.inl ⟨_, rfl, h.symm⟩)
  | polyMul la lb =>
    simp only [exec, execPolyMul] at h
    split at h
    · rename_i hb
      simp only [Host.Outcome.next.injEq] at h
      exact .inr (.inr (.inr (.inr (.inr (.inl ⟨la, lb, rfl, hb, h.symm⟩)))))
    · rename_i hb
      simp only [Host.Outcome.next.injEq] at h
      exact .inr (.inr (.inl ⟨la, lb, rfl, by simpa using hb, h.symm⟩))
  | polyGen n =>
    simp only [exec, execPolyGen] at h
    split at h
    · rename_i hb
      simp only [Host.Outcome.next.injEq] at h
      exact .inr (.inr (.inr (.inr (.inr (.inr ⟨n, rfl, hb, h.symm⟩)))))
    · rename_i hb
      simp only [Host.Outcome.next.injEq] at h
      exact .inr (.inr (.inr (.inl ⟨n, rfl, by simpa using hb, h.symm⟩)))

/-- Issuing a word: it is illegal and raises ERR_ILLEGAL, or it runs its command. -/
theorem issue_cases {w : Word} {s t : State} (h : issue w s = .next t) :
    ((∃ e, decode w = .error e) ∧ t = raise (.illegal w) s) ∨ (∃ i, decode w = .ok i ∧ exec i s = .next t) := by
  unfold issue at h
  split at h
  · rename_i e he
    simp only [Host.Outcome.next.injEq] at h
    exact .inl ⟨⟨e, he⟩, h.symm⟩
  · rename_i i hi
    exact .inr ⟨i, hi, h⟩

/-- No command changes the configuration, the draw, the host's stream or the bus answer, or PA or PB. -/
theorem issue_surroundings {w : Word} {s t : State} (h : issue w s = .next t) :
    t.cfg = s.cfg ∧ t.draws = s.draws ∧ t.pending = s.pending ∧ t.response = s.response ∧ t.erraddr = s.erraddr ∧
      t.pa = s.pa ∧ t.pb = s.pb := by
  rcases issue_cases h with ⟨-, rfl⟩ | ⟨i, -, h⟩
  · simp
  · rcases exec_cases h with ⟨-, rfl⟩ | ⟨v, -, rfl⟩ | ⟨la, lb, -, -, rfl⟩ | ⟨n, -, -, rfl⟩ | ⟨-, rfl⟩ |
      ⟨la, lb, -, -, rfl⟩ | ⟨n, -, -, rfl⟩ <;> simp

/-! ### One event -/

/-- A step with an event offered performs that event. -/
@[simp] theorem step_offer (s : State) (e : HostEvent) : step (s.offer e) = perform e s := rfl

/-- A step performs the oldest pending event, and with none pending does nothing. -/
theorem step_cases (s : State) :
    (s.pending = [] ∧ step s = .next s) ∨
    (∃ e rest, s.pending = e :: rest ∧ step s = perform e { s with pending := rest }) := by
  unfold step
  split
  · rename_i h; exact .inl ⟨h, rfl⟩
  · rename_i e rest h; exact .inr ⟨e, rest, h, rfl⟩

/-- A refused read (20 R55). -/
theorem busRead_refused {addr : Addr} {s : State} (h : reach s.cfg.polyMax addr = none) :
    busRead addr s = { raise (.bus addr) s with response := some (.data 0) } := by
  simp only [busRead, h]

/-- An accepted read (20 R55). -/
theorem busRead_accepted {addr : Addr} {s : State} {g : Target} (h : reach s.cfg.polyMax addr = some g) :
    busRead addr s = { s with response := some (.data (readTarget s g)) } := by
  simp only [busRead, h]

/-- What a write can do: be refused, issue a command, clear flags, or store in PA or PB (20 R56). -/
theorem busWrite_cases {addr : Addr} {be : BitVec 4} {v : Word} {s t : State} (h : busWrite addr be v s = .next t) :
    (t = raise (.bus addr) { s with response := some .written } ∧
      (be ≠ 0b1111 ∨ reach s.cfg.polyMax addr = none ∨ (∃ i, reach s.cfg.polyMax addr = some (.entry .pr i)) ∨
        ∃ r, r ≠ .cmd ∧ r ≠ .status ∧ reach s.cfg.polyMax addr = some (.reg r))) ∨
    (be = 0b1111 ∧ addr = 0x008 ∧ issue v { s with response := some .written } = .next t) ∨
    (be = 0b1111 ∧ addr = 0x00C ∧ t = { s with status := clearFlags v s.status, response := some .written }) ∨
    (∃ b i, be = 0b1111 ∧ b ≠ .pr ∧ reach s.cfg.polyMax addr = some (.entry b i) ∧
      t = State.writeEntry { s with response := some .written } b i (v.extractLsb' 0 8)) := by
  unfold busWrite at h
  simp only at h
  split at h
  · rename_i hr
    simp only [Host.Outcome.next.injEq] at h
    exact .inl ⟨h.symm, .inr (.inl hr)⟩
  · rename_i g hr
    split at h
    · rename_i hbe
      cases g with
      | reg r =>
        have ha := (reach_eq_reg _ _ _).mp hr
        cases r with
        | cmd => exact .inr (.inl ⟨hbe, ha, h⟩)
        | status =>
          simp only [writeTarget, Host.Outcome.next.injEq] at h
          exact .inr (.inr (.inl ⟨hbe, ha, h.symm⟩))
        | id | param | result | rlen | errcmd | erraddr =>
          simp only [writeTarget, Host.Outcome.next.injEq] at h
          exact .inl ⟨h.symm, .inr (.inr (.inr ⟨_, by simp, by simp, hr⟩))⟩
      | entry b i =>
        cases b with
        | pa =>
          simp only [writeTarget, Host.Outcome.next.injEq] at h
          exact .inr (.inr (.inr ⟨.pa, i, hbe, by simp, hr, h.symm⟩))
        | pb =>
          simp only [writeTarget, Host.Outcome.next.injEq] at h
          exact .inr (.inr (.inr ⟨.pb, i, hbe, by simp, hr, h.symm⟩))
        | pr =>
          simp only [writeTarget, Host.Outcome.next.injEq] at h
          exact .inl ⟨h.symm, .inr (.inr (.inl ⟨i, hr⟩))⟩
    · rename_i hbe
      simp only [Host.Outcome.next.injEq] at h
      exact .inl ⟨h.symm, .inl hbe⟩

/-- A full-word write to CMD issues its word. -/
@[simp] theorem perform_cmd (w : Word) (s : State) :
    perform (.write 0x008 0b1111 w) s = issue w { s with response := some .written } := rfl

/-- A full-word write to STATUS clears flags. -/
@[simp] theorem perform_clear (v : Word) (s : State) :
    perform (.write 0x00C 0b1111 v) s =
      .next { s with status := clearFlags v s.status, response := some .written } := rfl

/-- The writable addresses that a full-word aligned write reaches (20 R56). -/
theorem isWritable_of_reach (n : Nat) (hn : n ≤ 64) (addr : Addr) :
    (addr.toNat % 4 = 0 ∧ isWritable n addr.toNat = true) ↔
      (addr = 0x008 ∨ addr = 0x00C ∨ ∃ b i, b ≠ .pr ∧ reach n addr = some (.entry b i)) := by
  have hlt := addr.isLt
  have e1 := bufferBase_pa
  have e2 := bufferBase_pb
  have e8 : addr = 0x008 ↔ addr.toNat = 8 := by rw [BitVec.toNat_eq]; rfl
  have eC : addr = 0x00C ↔ addr.toNat = 12 := by rw [BitVec.toNat_eq]; rfl
  rw [isWritable_iff, e8, eC]
  constructor
  · rintro ⟨ha, h | h | h | h⟩
    · exact .inl h
    · exact .inr (.inl h)
    · refine .inr (.inr ⟨.pa, (addr.toNat - 0x100) / 4, by simp, ?_⟩)
      rw [reach_eq_entry n hn]
      omega
    · refine .inr (.inr ⟨.pb, (addr.toNat - 0x200) / 4, by simp, ?_⟩)
      rw [reach_eq_entry n hn]
      omega
  · rintro (h | h | ⟨b, i, hb, h⟩)
    · omega
    · omega
    · rw [reach_eq_entry n hn] at h
      cases b
      · omega
      · omega
      · exact absurd rfl hb

/-- An entry's address is `base + 4·i`, with no wrap-around. -/
theorem entryAddr_toNat (b : BufferId) (i : Nat) (hi : i < 64) : (entryAddr b i).toNat = bufferBase b + 4 * i := by
  rw [entryAddr, BitVec.toNat_ofNat]
  cases b <;> simp only [bufferBase] <;> omega

/-- Everything one event can do: reset the block, be refused, answer a read, clear flags, store in PA or PB, or issue a
command. -/
theorem perform_cases {e : HostEvent} {s t : State} (h : perform e s = .next t) :
    (isReset e = true ∧ t = resetBlock s) ∨
    (∃ addr r, refusedAddr s.cfg.polyMax e = some addr ∧ commandOf? e = none ∧
      t = { raise (.bus addr) s with response := some r }) ∨
    (∃ addr g, e = .read addr ∧ refusedAddr s.cfg.polyMax e = none ∧ reach s.cfg.polyMax addr = some g ∧
      t = { s with response := some (.data (readTarget s g)) }) ∨
    (∃ v, e = .write 0x00C 0b1111 v ∧ refusedAddr s.cfg.polyMax e = none ∧
      t = { s with status := clearFlags v s.status, response := some .written }) ∨
    (∃ b i v, b ≠ .pr ∧ i < s.cfg.polyMax ∧ e = .write (entryAddr b i) 0b1111 v ∧
      refusedAddr s.cfg.polyMax e = none ∧ commandOf? e = none ∧
      t = State.writeEntry { s with response := some .written } b i (v.extractLsb' 0 8)) ∨
    (∃ w, e = .write 0x008 0b1111 w ∧ refusedAddr s.cfg.polyMax e = none ∧
      issue w { s with response := some .written } = .next t) := by
  have hn := (polyMax_bounds s.cfg).2
  cases e with
  | reset =>
    simp only [perform, Host.Outcome.next.injEq] at h
    exact .inl ⟨rfl, h.symm⟩
  | resetDuringCommand w =>
    simp only [perform, Host.Outcome.next.injEq] at h
    exact .inl ⟨rfl, h.symm⟩
  | read addr =>
    simp only [perform, Host.Outcome.next.injEq] at h
    cases hr : reach s.cfg.polyMax addr with
    | none =>
      rw [busRead_refused hr] at h
      rw [reach_eq_none _ hn] at hr
      refine .inr (.inl ⟨addr, _, ?_, rfl, h.symm⟩)
      simp only [refusedAddr]
      rw [if_neg]
      rintro ⟨h1, h2⟩
      rcases hr with hr | hr
      · exact hr h1
      · simp [hr] at h2
    | some g =>
      rw [busRead_accepted hr] at h
      refine .inr (.inr (.inl ⟨addr, g, rfl, ?_, hr, h.symm⟩))
      simp only [refusedAddr]
      rw [if_pos]
      by_contra hc
      rw [(reach_eq_none _ hn addr).mpr] at hr
      · cases hr
      · by_cases h4 : addr.toNat % 4 = 0
        · exact .inr (by simpa [h4] using hc)
        · exact .inl h4
  | write addr be v =>
    simp only [perform] at h
    have hw := isWritable_of_reach s.cfg.polyMax hn addr
    rcases busWrite_cases h with ⟨rfl, hc⟩ | ⟨rfl, rfl, h⟩ | ⟨rfl, rfl, rfl⟩ | ⟨b, i, rfl, hb, hr, rfl⟩
    · have hnot : ¬ (be = 0b1111 ∧ (addr = 0x008 ∨ addr = 0x00C ∨ ∃ b i, b ≠ .pr ∧ reach s.cfg.polyMax addr = some (.entry b i))) := by
        rintro ⟨rfl, h'⟩
        rcases hc with hc | hc | ⟨i, hc⟩ | ⟨r, hr1, hr2, hc⟩
        · exact hc rfl
        · rcases h' with h' | h' | ⟨b, j, hb, h'⟩
          · rw [(reach_eq_reg _ addr .cmd).mpr h'] at hc
            cases hc
          · rw [(reach_eq_reg _ addr .status).mpr h'] at hc
            cases hc
          · rw [h'] at hc
            cases hc
        · rcases h' with h' | h' | ⟨b, j, hb, h'⟩
          · rw [(reach_eq_reg _ addr .cmd).mpr h'] at hc
            cases hc
          · rw [(reach_eq_reg _ addr .status).mpr h'] at hc
            cases hc
          · rw [h'] at hc
            cases hc
            exact hb rfl
        · rcases h' with h' | h' | ⟨b, j, hb, h'⟩
          · rw [(reach_eq_reg _ addr .cmd).mpr h'] at hc
            cases hc
            exact hr1 rfl
          · rw [(reach_eq_reg _ addr .status).mpr h'] at hc
            cases hc
            exact hr2 rfl
          · rw [h'] at hc
            cases hc
      refine .inr (.inl ⟨addr, .written, ?_, ?_, rfl⟩)
      · simp only [refusedAddr]
        rw [if_neg]
        rintro ⟨h1, h2, h3⟩
        exact hnot ⟨h3, hw.mp ⟨h1, h2⟩⟩
      · simp only [commandOf?]
        rw [if_neg]
        rintro ⟨rfl, h3⟩
        exact hnot ⟨h3, .inl rfl⟩
    · refine .inr (.inr (.inr (.inr (.inr ⟨v, rfl, ?_, h⟩))))
      have hw' := hw.mpr (.inl rfl)
      simp only [refusedAddr]
      rw [if_pos ⟨hw'.1, hw'.2, trivial⟩]
    · refine .inr (.inr (.inr (.inl ⟨v, rfl, ?_, rfl⟩)))
      have hw' := hw.mpr (.inr (.inl rfl))
      simp only [refusedAddr]
      rw [if_pos ⟨hw'.1, hw'.2, trivial⟩]
    · have hi := (reach_eq_entry _ hn addr b i).mp hr
      have ha : addr = entryAddr b i := by
        apply BitVec.eq_of_toNat_eq
        rw [entryAddr_toNat b i (by omega)]
        exact hi.2
      have hw' := hw.mpr (.inr (.inr ⟨b, i, hb, hr⟩))
      refine .inr (.inr (.inr (.inr (.inl ⟨b, i, v, hb, hi.1, by rw [ha], ?_, ?_, rfl⟩))))
      · simp only [refusedAddr]
        rw [if_pos ⟨hw'.1, hw'.2, trivial⟩]
      · simp only [commandOf?]
        rw [if_neg]
        rintro ⟨h8, -⟩
        rw [(reach_eq_reg _ addr .cmd).mpr h8] at hr
        cases hr

end Sys2Proof.Machine
end

