-- ==== Sys2Proof/Laws/Decode.lean ====
section
/-! SUPPORT. The fields of a word, what the decoder reads, and which words it refuses. -/

namespace Sys2Proof.Machine

/-- The value of a packed word, as the sum of its fields (30 R80). -/
theorem packFields_toNat (op : BitVec 4) (fa fb : Byte) :
    (packFields op fa fb).toNat = op.toNat * 2 ^ 28 + fa.toNat * 2 ^ 8 + fb.toNat := by
  have h1 := op.isLt
  have h2 := fa.isLt
  have h3 := fb.isLt
  simp only [packFields, BitVec.toNat_append, BitVec.toNat_ofNat, Nat.zero_mod, Nat.or_zero]
  rw [← Nat.shiftLeft_add_eq_or_of_lt h3, ← Nat.shiftLeft_add_eq_or_of_lt h2]
  simp only [Nat.shiftLeft_eq]
  omega

@[simp] theorem opField_packFields (op : BitVec 4) (fa fb : Byte) : opField (packFields op fa fb) = op.toNat := by
  have h1 := op.isLt
  have h2 := fa.isLt
  have h3 := fb.isLt
  simp only [opField, BitVec.extractLsb'_toNat, packFields_toNat, Nat.shiftRight_eq_div_pow]
  omega

@[simp] theorem rsvField_packFields (op : BitVec 4) (fa fb : Byte) : rsvField (packFields op fa fb) = 0 := by
  have h1 := op.isLt
  have h2 := fa.isLt
  have h3 := fb.isLt
  apply BitVec.eq_of_toNat_eq
  simp only [rsvField, BitVec.extractLsb'_toNat, packFields_toNat, Nat.shiftRight_eq_div_pow]
  show _ = 0
  omega

@[simp] theorem faField_packFields (op : BitVec 4) (fa fb : Byte) : faField (packFields op fa fb) = fa := by
  have h1 := op.isLt
  have h2 := fa.isLt
  have h3 := fb.isLt
  apply BitVec.eq_of_toNat_eq
  simp only [faField, BitVec.extractLsb'_toNat, packFields_toNat, Nat.shiftRight_eq_div_pow]
  omega

@[simp] theorem fbField_packFields (op : BitVec 4) (fa fb : Byte) : fbField (packFields op fa fb) = fb := by
  have h1 := op.isLt
  have h2 := fa.isLt
  have h3 := fb.isLt
  apply BitVec.eq_of_toNat_eq
  simp only [fbField, BitVec.extractLsb'_toNat, packFields_toNat, Nat.shiftRight_eq_div_pow]
  omega

/-- A word is its OP, RSV, FA and FB (30 R80). -/
theorem word_toNat_fields (w : Word) :
    w.toNat = opField w * 2 ^ 28 + (rsvField w).toNat * 2 ^ 16 + (faField w).toNat * 2 ^ 8 + (fbField w).toNat := by
  have h := w.isLt
  simp only [opField, rsvField, faField, fbField, BitVec.extractLsb'_toNat, Nat.shiftRight_eq_div_pow]
  omega

/-- When a word with a defined opcode is refused (30 R84). -/
theorem acceptFields_ok {w : Word} {unused : Byte} {i j : Instr} :
    acceptFields w unused i = .ok j ↔ rsvField w = 0 ∧ unused = 0 ∧ i = j := by
  unfold acceptFields
  split
  · rename_i h
    simp only [reduceCtorEq, false_iff]
    exact fun hc => h hc.1
  · rename_i h
    split
    · rename_i h'
      simp only [reduceCtorEq, false_iff]
      exact fun hc => h' hc.2.1
    · rename_i h'
      simp only [Except.ok.injEq, not_not.mp h, not_not.mp h', true_and]

theorem opField_lt (w : Word) : opField w < 16 := (w.extractLsb' 28 4).isLt

/-- The decoder, by opcode: what it reads where it reads a command (30 R85). -/
theorem decode_ok {w : Word} {i : Instr} : decode w = .ok i ↔ rsvField w = 0 ∧
    ((opField w = 0 ∧ faField w = 0 ∧ fbField w = 0 ∧ i = .nop) ∨
     (opField w = 1 ∧ i = .gfAdd (faField w) (fbField w)) ∨
     (opField w = 2 ∧ i = .gfMul (faField w) (fbField w)) ∨
     (opField w = 3 ∧ fbField w = 0 ∧ i = .gfLog (faField w)) ∨
     (opField w = 4 ∧ fbField w = 0 ∧ i = .gfExp (faField w).toNat) ∨
     (opField w = 5 ∧ i = .polyMul (faField w).toNat (fbField w).toNat) ∨
     (opField w = 6 ∧ fbField w = 0 ∧ i = .polyGen (faField w).toNat)) := by
  unfold decode
  split
  case h_8 h0 h1 h2 h3 h4 h5 h6 =>
    simp only [reduceCtorEq, false_iff]
    rintro ⟨-, h | h | h | h | h | h | h⟩
    · exact h0 h.1
    · exact h1 h.1
    · exact h2 h.1
    · exact h3 h.1
    · exact h4 h.1
    · exact h5 h.1
    · exact h6 h.1
  all_goals
    rename_i h
    simp only [acceptFields_ok, h, elementOperand, exponentOperand, lengthOperand]
    simp [eq_comm (a := i), BitVec.or_eq_zero_iff, and_assoc]

/-- The words that the decoder refuses are those that 60 R163 lists. -/
theorem decode_error (w : Word) : (∃ e, decode w = .error e) ↔ illegalWord w := by
  have hop := opField_lt w
  have key : (∃ e, decode w = .error e) ↔ ¬ ∃ i, decode w = .ok i := by
    cases decode w <;> simp
  rw [key]
  have e4 : ∀ n : Nat, n < 16 → (w.extractLsb' 28 4 = BitVec.ofNat 4 n ↔ opField w = n) := by
    intro n hn
    rw [opField, BitVec.toNat_eq, BitVec.toNat_ofNat, Nat.mod_eq_of_lt hn]
  have h0 := e4 0 (by omega)
  have h3 := e4 3 (by omega)
  have h4 := e4 4 (by omega)
  have h6 := e4 6 (by omega)
  simp only [illegalWord, decode_ok]
  rw [show (w.extractLsb' 28 4 = 0) ↔ opField w = 0 from h0, show (w.extractLsb' 28 4 = 3) ↔ opField w = 3 from h3,
    show (w.extractLsb' 28 4 = 4) ↔ opField w = 4 from h4, show (w.extractLsb' 28 4 = 6) ↔ opField w = 6 from h6]
  show _ ↔ (7 ≤ opField w ∨ rsvField w ≠ 0 ∨ (opField w = 0 ∧ (faField w ≠ 0 ∨ fbField w ≠ 0)) ∨
    ((opField w = 3 ∨ opField w = 4 ∨ opField w = 6) ∧ fbField w ≠ 0))
  simp only [exists_and_left, exists_or, exists_eq, and_true, ne_eq]
  clear h0 h3 h4 h6 e4 key
  generalize opField w = n at *
  generalize (rsvField w = 0) = R
  generalize (faField w = 0) = A
  generalize (fbField w = 0) = B
  interval_cases n <;> simp <;> tauto
end Sys2Proof.Machine
end

