-- ==== Sys2Proof/Laws/Field.lean ====
section
/-! SUPPORT. The tables, the products and the generator polynomial: their lengths and what each entry is. -/

namespace Sys2Proof.Machine

/-- `withByte` only fixes the order of evaluation. -/
@[simp] theorem withByte_eq {α : Type} (x : Byte) (k : Byte → α) : withByte x k = k x := by
  unfold withByte
  split
  · rename_i h
    have : x = 0 := BitVec.eq_of_toNat_eq (by simpa using h)
    rw [this]
  · rename_i n h
    have : x = BitVec.ofNat 8 (n + 1) := by
      apply BitVec.eq_of_toNat_eq
      rw [BitVec.toNat_ofNat, h]
      have := x.isLt
      omega
    rw [this]

/-! ### The carry-less product is additive -/

/-- A fold of conditional XORs is additive in the value it starts from, where each condition is additive. -/
theorem foldl_step_xor {n : Nat} (g : Nat → BitVec n) (ks : List Nat) (p q : BitVec n) :
    ks.foldl (fun p k => if p.getLsbD k then p ^^^ g k else p) (p ^^^ q) =
      ks.foldl (fun p k => if p.getLsbD k then p ^^^ g k else p) p ^^^
        ks.foldl (fun p k => if p.getLsbD k then p ^^^ g k else p) q := by
  induction ks generalizing p q with
  | nil => rfl
  | cons k ks ih =>
    simp only [List.foldl_cons]
    rw [← ih]
    congr 1
    rw [BitVec.getLsbD_xor]
    cases hp : p.getLsbD k <;> cases hq : q.getLsbD k <;> simp
    · ac_rfl
    · ac_rfl
    · ext i hi
      simp
      cases p[i] <;> cases q[i] <;> cases (g k)[i] <;> rfl

/-- Reduction modulo the reduction polynomial is additive. -/
theorem reduceBy_xor (f : BitVec 9) (p q : BitVec 15) : reduceBy f (p ^^^ q) = reduceBy f p ^^^ reduceBy f q :=
  foldl_step_xor (fun k => f.setWidth 15 <<< (k - 8)) _ p q

/-- The carry-less product as a XOR of shifted copies. -/
theorem clmul_eq (a b : Byte) : clmul a b = (List.range 8).foldl (fun p k => p ^^^ if b.getLsbD k then a.setWidth 15 <<< k else 0) 0 := by
  have general : ∀ (ks : List Nat) (p : BitVec 15),
      ks.foldl (fun p k => if b.getLsbD k then p ^^^ (a.setWidth 15 <<< k) else p) p =
        ks.foldl (fun p k => p ^^^ if b.getLsbD k then a.setWidth 15 <<< k else 0) p := by
    intro ks
    induction ks with
    | nil => intro p; rfl
    | cons k ks ih =>
      intro p
      simp only [List.foldl_cons]
      rw [ih]
      congr 1
      split <;> simp
  exact general _ _

/-- A XOR of terms that are each a XOR is the XOR of the two folds. -/
theorem foldl_xor_xor {n : Nat} (g h : Nat → BitVec n) (ks : List Nat) (p q : BitVec n) :
    ks.foldl (fun p k => p ^^^ (g k ^^^ h k)) (p ^^^ q) =
      ks.foldl (fun p k => p ^^^ g k) p ^^^ ks.foldl (fun p k => p ^^^ h k) q := by
  induction ks generalizing p q with
  | nil => rfl
  | cons k ks ih =>
    simp only [List.foldl_cons]
    rw [← ih]
    congr 1
    ac_rfl

/-- The carry-less product is additive in its second factor. -/
theorem clmul_xor_right (a b b' : Byte) : clmul a (b ^^^ b') = clmul a b ^^^ clmul a b' := by
  simp only [clmul_eq]
  rw [← foldl_xor_xor]
  simp only [BitVec.xor_self]
  congr 1
  funext p k
  rw [BitVec.getLsbD_xor]
  cases b.getLsbD k <;> cases b'.getLsbD k <;> simp

/-- The carry-less product is additive in its first factor. -/
theorem clmul_xor_left (a a' b : Byte) : clmul (a ^^^ a') b = clmul a b ^^^ clmul a' b := by
  simp only [clmul_eq]
  rw [← foldl_xor_xor]
  simp only [BitVec.xor_self]
  congr 1
  funext p k
  rw [BitVec.setWidth_xor, BitVec.shiftLeft_xor_distrib]
  split <;> simp

/-- `clmulmod` is additive in its second factor. -/
theorem clmulmod_xor_right (f : BitVec 9) (a b b' : Byte) : clmulmod f a (b ^^^ b') = clmulmod f a b ^^^ clmulmod f a b' := by
  rw [clmulmod, clmul_xor_right, reduceBy_xor, BitVec.setWidth_xor]
  rfl

/-- `clmulmod` is additive in its first factor. -/
theorem clmulmod_xor_left (f : BitVec 9) (a a' b : Byte) : clmulmod f (a ^^^ a') b = clmulmod f a b ^^^ clmulmod f a' b := by
  rw [clmulmod, clmul_xor_left, reduceBy_xor, BitVec.setWidth_xor]
  rfl

/-! ### The antilog table -/

theorem powersFrom_succ (f : BitVec 9) (a : Byte) (n : Nat) (x : Byte) :
    powersFrom f a (n + 1) x = x :: powersFrom f a n (clmulmod f x a) := by
  simp [powersFrom]

@[simp] theorem powersFrom_length (f : BitVec 9) (a : Byte) (n : Nat) (x : Byte) : (powersFrom f a n x).length = n := by
  induction n generalizing x with
  | zero => rfl
  | succ n ih => simp [powersFrom_succ, ih]

@[simp] theorem expTable_length (f : BitVec 9) (a : Byte) : (expTable f a).length = 255 := powersFrom_length f a 255 1

/-- Each entry of the table is the one before it times α (10 R32). -/
theorem powersFrom_getD_succ (f : BitVec 9) (a : Byte) (n i : Nat) (x : Byte) (h : i + 1 < n) :
    (powersFrom f a n x).getD (i + 1) 0 = clmulmod f ((powersFrom f a n x).getD i 0) a := by
  induction n generalizing x i with
  | zero => omega
  | succ n ih =>
    rw [powersFrom_succ, List.getD_cons_succ]
    cases i with
    | zero =>
      obtain ⟨m, rfl⟩ : ∃ m, n = m + 1 := ⟨n - 1, by omega⟩
      simp [powersFrom_succ]
    | succ i => rw [List.getD_cons_succ, ih i _ (by omega)]

/-- The bits of `bytesIn` are the bytes the table holds. -/
theorem testBit_bytesIn (t : List Byte) (k : Nat) : (bytesIn t).testBit k = true ↔ ∃ x ∈ t, x.toNat = k := by
  have general : ∀ (t : List Byte) (m : Nat),
      (t.foldl (fun seen x => seen ||| 2 ^ x.toNat) m).testBit k = true ↔ m.testBit k = true ∨ ∃ x ∈ t, x.toNat = k := by
    intro t
    induction t with
    | nil => intro m; simp
    | cons y t ih =>
      intro m
      rw [List.foldl_cons, ih]
      simp only [Nat.testBit_or, Bool.or_eq_true, Nat.testBit_two_pow, decide_eq_true_eq, List.mem_cons, exists_eq_or_imp, or_assoc]
  rw [bytesIn, general]
  simp

/-- In an accepted configuration the table holds exactly the nonzero bytes (00 R7). -/
theorem mem_expTable (c : Config) (x : Byte) : x ∈ expTable c.fieldPoly c.alpha ↔ x ≠ 0 := by
  have hacc := c.accepted
  simp only [acceptsConfig, Bool.and_eq_true, beq_iff_eq] at hacc
  have hbit := testBit_bytesIn (expTable c.fieldPoly c.alpha) x.toNat
  rw [hacc.2] at hbit
  have hmem : (∃ y ∈ expTable c.fieldPoly c.alpha, y.toNat = x.toNat) ↔ x ∈ expTable c.fieldPoly c.alpha := by
    constructor
    · rintro ⟨y, hy, he⟩
      exact BitVec.eq_of_toNat_eq he ▸ hy
    · exact fun h => ⟨x, h, rfl⟩
  rw [hmem] at hbit
  rw [← hbit]
  have all : ∀ k, k < 256 → ((2 ^ 256 - 2 : Nat).testBit k = true ↔ k ≠ 0) := by decide +kernel
  rw [all _ x.isLt]
  constructor
  · rintro h rfl
    exact h rfl
  · rintro h he
    exact h (BitVec.eq_of_toNat_eq (by simpa using he))

/-- In an accepted configuration no byte stands in the table twice (00 R7). -/
theorem expTable_nodup (c : Config) : (expTable c.fieldPoly c.alpha).Nodup := by
  have hset : (expTable c.fieldPoly c.alpha).toFinset = Finset.univ.erase (0 : Byte) := by
    ext x
    simp [mem_expTable]
  have hcard : (expTable c.fieldPoly c.alpha).toFinset.card = 255 := by
    rw [hset, Finset.card_erase_of_mem (Finset.mem_univ _), Finset.card_univ]
    have : Fintype.card Byte = 256 := by
      rw [Fintype.card_congr (BitVec.equivFin (m := 8)).toEquiv]
      simp
    omega
  apply Multiset.coe_nodup.mp
  apply Multiset.toFinset_card_eq_card_iff_nodup.mp
  rw [Multiset.coe_card, expTable_length]
  exact hcard

/-! ### Products and generators -/

@[simp] theorem polyCoeffs_length (c : Config) (A B : List Byte) (k n : Nat) : (polyCoeffs c A B k n).length = n := by
  induction n generalizing k with
  | zero => rfl
  | succ n ih => simp [polyCoeffs, ih]

theorem polyCoeffs_getD (c : Config) (A B : List Byte) (k n j : Nat) (h : j < n) :
    (polyCoeffs c A B k n).getD j 0 = polyCoeff c A B (k + j) := by
  induction n generalizing k j with
  | zero => omega
  | succ n ih =>
    simp only [polyCoeffs, withByte_eq]
    cases j with
    | zero => simp
    | succ j =>
      rw [List.getD_cons_succ, ih (k + 1) j (by omega)]
      congr 1
      omega

/-- The product has `LA + LB − 1` coefficients (41 R130). -/
@[simp] theorem polymul_length (c : Config) (A B : List Byte) : (polymul c A B).length = A.length + B.length - 1 :=
  polyCoeffs_length ..

/-- Coefficient `k` of the product (41 R130). -/
theorem polymul_getD (c : Config) (A B : List Byte) (k : Nat) (h : k < A.length + B.length - 1) :
    (polymul c A B).getD k 0 = polyCoeff c A B k := by
  rw [polymul, polyCoeffs_getD _ _ _ _ _ _ h, Nat.zero_add]

/-- The generator polynomial of degree `n` has `n + 1` coefficients (41 R132). -/
@[simp] theorem genpoly_length (c : Config) (n : Nat) : (genpoly c n).length = n + 1 := by
  induction n with
  | zero => rfl
  | succ n ih => simp [genpoly, ih]

end Sys2Proof.Machine
end

