-- ==== Sys2Proof/Laws/PerInstr.lean ====
section
/-! SUPPORT. What is proved command by command: the shape of each encoding (30 R80, R82). -/

namespace Sys2Proof.Laws.EncodeShape

open Sys2Proof.Machine

/-- The word of a command has the shape of its row in 30 R82: its opcode is the row's, its operands stand in FA and FB, RSV is
zero, and the fields that 30 R82 marks unused are zero. -/
def Statement (i : Instr) : Prop :=
  rsvField (encode i) = 0 ∧
    match i with
    | .nop => opField (encode i) = 0 ∧ faField (encode i) = 0 ∧ fbField (encode i) = 0
    | .gfAdd a b => opField (encode i) = 1 ∧ faField (encode i) = a ∧ fbField (encode i) = b
    | .gfMul a b => opField (encode i) = 2 ∧ faField (encode i) = a ∧ fbField (encode i) = b
    | .gfLog a => opField (encode i) = 3 ∧ faField (encode i) = a ∧ fbField (encode i) = 0
    | .gfExp e => opField (encode i) = 4 ∧ faField (encode i) = BitVec.ofNat 8 e ∧ fbField (encode i) = 0
    | .polyMul la lb => opField (encode i) = 5 ∧ faField (encode i) = BitVec.ofNat 8 la ∧ fbField (encode i) = BitVec.ofNat 8 lb
    | .polyGen n => opField (encode i) = 6 ∧ faField (encode i) = BitVec.ofNat 8 n ∧ fbField (encode i) = 0

theorem nop : Statement .nop := by simp [Statement, encode]

theorem gfAdd (a b : Byte) : Statement (.gfAdd a b) := by simp [Statement, encode]

theorem gfMul (a b : Byte) : Statement (.gfMul a b) := by simp [Statement, encode]

theorem gfLog (a : Byte) : Statement (.gfLog a) := by simp [Statement, encode]

theorem gfExp (e : Nat) : Statement (.gfExp e) := by simp [Statement, encode, toField]

theorem polyMul (la lb : Nat) : Statement (.polyMul la lb) := by simp [Statement, encode, toField]

theorem polyGen (n : Nat) : Statement (.polyGen n) := by simp [Statement, encode, toField]

end Sys2Proof.Laws.EncodeShape
end

