-- ==== Sys2Proof/Tests/Slice0.lean ====
section
/-! SUPPORT. Tests. Every expected value is the spec's: the rows of 95_test_vectors.md, the tables of 10 R33, and the words
written from the fields of 30 R80. The last part shows, for every statement with hypotheses, a case that meets them. -/

namespace Sys2Proof.Tests

open Sys2Proof.Machine

/-! ### Helpers -/

/-- The state after one event. -/
def after (e : HostEvent) (s : State) : Option State :=
  match step (s.offer e) with
  | .next t => some t
  | .fault _ => none
  | .refused _ => none

/-- What a read answers. -/
def answer (addr : Addr) (s : State) : Option Response := (after (rd addr) s).bind (·.response)

/-- PA = [12, 34, 56] and PB = [78, 9A], all else as after reset (the operands of 41 R134's example). -/
def sample : State := { State.reset with pa := [(0, 0x12), (1, 0x34), (2, 0x56)], pb := [(0, 0x78), (1, 0x9A)] }

/-- All flags set (95 B13). -/
def flagged : State := { sample with status := 0x1F }

/-! ### Ill-formed terms (WellFormed) and refused configurations (00 R6, R7) -/

theorem test_wf_refuses_exponent_256 : (Instr.gfExp 256).wf = false := by decide
theorem test_wf_refuses_first_length_256 : (Instr.polyMul 256 1).wf = false := by decide
theorem test_wf_refuses_second_length_256 : (Instr.polyMul 1 256).wf = false := by decide
theorem test_wf_refuses_degree_256 : (Instr.polyGen 256).wf = false := by decide
theorem test_config_refuses_degree_seven_poly : Config.make 0x01D 0x02 32 = none := by decide +kernel
theorem test_config_refuses_alpha_zero : Config.make 0x11D 0x00 32 = none := by decide +kernel
theorem test_config_refuses_capacity_zero : Config.make 0x11D 0x02 0 = none := by decide +kernel
theorem test_config_refuses_capacity_65 : Config.make 0x11D 0x02 65 = none := by decide +kernel
/-- In the AES field 0x02 generates only 51 elements, so the table repeats. -/
theorem test_config_refuses_alpha_not_primitive : Config.make 0x11B 0x02 32 = none := by decide +kernel
theorem test_config_accepts_another_field : (Config.make 0x11B 0x03 64).isSome = true := by decide +kernel

/-! ### Decoding: words written out bit by bit from 30 R80 and R82 -/

theorem test_decode_nop : decode 0b00000000000000000000000000000000 = .ok .nop := by decide
theorem test_decode_gfAdd : decode 0b00010000000000000101001111001010 = .ok (.gfAdd 0x53 0xCA) := by decide
theorem test_decode_gfMul : decode 0b00100000000000001000111000000010 = .ok (.gfMul 0x8E 0x02) := by decide
theorem test_decode_gfLog : decode 0b00110000000000000101001100000000 = .ok (.gfLog 0x53) := by decide
theorem test_decode_gfExp : decode 0b01000000000000001111111000000000 = .ok (.gfExp 254) := by decide
theorem test_decode_polyMul : decode 0b01010000000000000000001100000010 = .ok (.polyMul 3 2) := by decide
theorem test_decode_polyGen : decode 0b01100000000000000000011100000000 = .ok (.polyGen 7) := by decide
theorem test_decode_refuses_reserved_opcodes :
    [7, 8, 9, 10, 11, 12, 13, 14, 15].all (fun op => decode (BitVec.ofNat 32 (op * 2 ^ 28)) = .error .reservedOpcode) = true := by
  decide
/-- 95 F31, F34. -/
theorem test_decode_refuses_rsv :
    decode 0x20010203 = .error .reservedField ∧ decode 0x40FF0000 = .error .reservedField := by decide
/-- 95 F29, F30. -/
theorem test_decode_refuses_unused_fields :
    decode 0x30000001 = .error .unusedField ∧ decode 0x00000001 = .error .unusedField := by decide
/-- No word is selected by two rows of 30 R82. -/
theorem test_opcode_rows_do_not_overlap :
    opcodeRows.Pairwise (fun r r' => (r.pattern ^^^ r'.pattern) &&& (r.mask &&& r'.mask) ≠ 0) := by decide
theorem test_decodeTableWord : decodeTableWord 32 0x200053CA = some (.gfMul 0x53 0xCA) := by decide

/-! ### The tables of 10 R33 -/

theorem test_exp_table : expTable 0x11D 0x02 =
  ([0x01, 0x02, 0x04, 0x08, 0x10, 0x20, 0x40, 0x80, 0x1D, 0x3A, 0x74, 0xE8, 0xCD, 0x87, 0x13, 0x26] ++
   [0x4C, 0x98, 0x2D, 0x5A, 0xB4, 0x75, 0xEA, 0xC9, 0x8F, 0x03, 0x06, 0x0C, 0x18, 0x30, 0x60, 0xC0] ++
   [0x9D, 0x27, 0x4E, 0x9C, 0x25, 0x4A, 0x94, 0x35, 0x6A, 0xD4, 0xB5, 0x77, 0xEE, 0xC1, 0x9F, 0x23] ++
   [0x46, 0x8C, 0x05, 0x0A, 0x14, 0x28, 0x50, 0xA0, 0x5D, 0xBA, 0x69, 0xD2, 0xB9, 0x6F, 0xDE, 0xA1] ++
   [0x5F, 0xBE, 0x61, 0xC2, 0x99, 0x2F, 0x5E, 0xBC, 0x65, 0xCA, 0x89, 0x0F, 0x1E, 0x3C, 0x78, 0xF0] ++
   [0xFD, 0xE7, 0xD3, 0xBB, 0x6B, 0xD6, 0xB1, 0x7F, 0xFE, 0xE1, 0xDF, 0xA3, 0x5B, 0xB6, 0x71, 0xE2] ++
   [0xD9, 0xAF, 0x43, 0x86, 0x11, 0x22, 0x44, 0x88, 0x0D, 0x1A, 0x34, 0x68, 0xD0, 0xBD, 0x67, 0xCE] ++
   [0x81, 0x1F, 0x3E, 0x7C, 0xF8, 0xED, 0xC7, 0x93, 0x3B, 0x76, 0xEC, 0xC5, 0x97, 0x33, 0x66, 0xCC] ++
   [0x85, 0x17, 0x2E, 0x5C, 0xB8, 0x6D, 0xDA, 0xA9, 0x4F, 0x9E, 0x21, 0x42, 0x84, 0x15, 0x2A, 0x54] ++
   [0xA8, 0x4D, 0x9A, 0x29, 0x52, 0xA4, 0x55, 0xAA, 0x49, 0x92, 0x39, 0x72, 0xE4, 0xD5, 0xB7, 0x73] ++
   [0xE6, 0xD1, 0xBF, 0x63, 0xC6, 0x91, 0x3F, 0x7E, 0xFC, 0xE5, 0xD7, 0xB3, 0x7B, 0xF6, 0xF1, 0xFF] ++
   [0xE3, 0xDB, 0xAB, 0x4B, 0x96, 0x31, 0x62, 0xC4, 0x95, 0x37, 0x6E, 0xDC, 0xA5, 0x57, 0xAE, 0x41] ++
   [0x82, 0x19, 0x32, 0x64, 0xC8, 0x8D, 0x07, 0x0E, 0x1C, 0x38, 0x70, 0xE0, 0xDD, 0xA7, 0x53, 0xA6] ++
   [0x51, 0xA2, 0x59, 0xB2, 0x79, 0xF2, 0xF9, 0xEF, 0xC3, 0x9B, 0x2B, 0x56, 0xAC, 0x45, 0x8A, 0x09] ++
   [0x12, 0x24, 0x48, 0x90, 0x3D, 0x7A, 0xF4, 0xF5, 0xF7, 0xF3, 0xFB, 0xEB, 0xCB, 0x8B, 0x0B, 0x16] ++
   [0x2C, 0x58, 0xB0, 0x7D, 0xFA, 0xE9, 0xCF, 0x83, 0x1B, 0x36, 0x6C, 0xD8, 0xAD, 0x47, 0x8E]) := by decide +kernel

theorem test_log_table : (List.range 255).map (fun k => logRom Config.default (BitVec.ofNat 8 (k + 1))) =
  ([0x00, 0x01, 0x19, 0x02, 0x32, 0x1A, 0xC6, 0x03, 0xDF, 0x33, 0xEE, 0x1B, 0x68, 0xC7, 0x4B] ++
   [0x04, 0x64, 0xE0, 0x0E, 0x34, 0x8D, 0xEF, 0x81, 0x1C, 0xC1, 0x69, 0xF8, 0xC8, 0x08, 0x4C, 0x71] ++
   [0x05, 0x8A, 0x65, 0x2F, 0xE1, 0x24, 0x0F, 0x21, 0x35, 0x93, 0x8E, 0xDA, 0xF0, 0x12, 0x82, 0x45] ++
   [0x1D, 0xB5, 0xC2, 0x7D, 0x6A, 0x27, 0xF9, 0xB9, 0xC9, 0x9A, 0x09, 0x78, 0x4D, 0xE4, 0x72, 0xA6] ++
   [0x06, 0xBF, 0x8B, 0x62, 0x66, 0xDD, 0x30, 0xFD, 0xE2, 0x98, 0x25, 0xB3, 0x10, 0x91, 0x22, 0x88] ++
   [0x36, 0xD0, 0x94, 0xCE, 0x8F, 0x96, 0xDB, 0xBD, 0xF1, 0xD2, 0x13, 0x5C, 0x83, 0x38, 0x46, 0x40] ++
   [0x1E, 0x42, 0xB6, 0xA3, 0xC3, 0x48, 0x7E, 0x6E, 0x6B, 0x3A, 0x28, 0x54, 0xFA, 0x85, 0xBA, 0x3D] ++
   [0xCA, 0x5E, 0x9B, 0x9F, 0x0A, 0x15, 0x79, 0x2B, 0x4E, 0xD4, 0xE5, 0xAC, 0x73, 0xF3, 0xA7, 0x57] ++
   [0x07, 0x70, 0xC0, 0xF7, 0x8C, 0x80, 0x63, 0x0D, 0x67, 0x4A, 0xDE, 0xED, 0x31, 0xC5, 0xFE, 0x18] ++
   [0xE3, 0xA5, 0x99, 0x77, 0x26, 0xB8, 0xB4, 0x7C, 0x11, 0x44, 0x92, 0xD9, 0x23, 0x20, 0x89, 0x2E] ++
   [0x37, 0x3F, 0xD1, 0x5B, 0x95, 0xBC, 0xCF, 0xCD, 0x90, 0x87, 0x97, 0xB2, 0xDC, 0xFC, 0xBE, 0x61] ++
   [0xF2, 0x56, 0xD3, 0xAB, 0x14, 0x2A, 0x5D, 0x9E, 0x84, 0x3C, 0x39, 0x53, 0x47, 0x6D, 0x41, 0xA2] ++
   [0x1F, 0x2D, 0x43, 0xD8, 0xB7, 0x7B, 0xA4, 0x76, 0xC4, 0x17, 0x49, 0xEC, 0x7F, 0x0C, 0x6F, 0xF6] ++
   [0x6C, 0xA1, 0x3B, 0x52, 0x29, 0x9D, 0x55, 0xAA, 0xFB, 0x60, 0x86, 0xB1, 0xBB, 0xCC, 0x3E, 0x5A] ++
   [0xCB, 0x59, 0x5F, 0xB0, 0x9C, 0xA9, 0xA0, 0x51, 0x0B, 0xF5, 0x16, 0xEB, 0x7A, 0x75, 0x2C, 0xD7] ++
   [0x4F, 0xAE, 0xD5, 0xE9, 0xE6, 0xE7, 0xAD, 0xE8, 0x74, 0xD6, 0xF4, 0xEA, 0xA8, 0x50, 0x58, 0xAF]) := by decide +kernel

/-! ### The commands -/

/-- 95 F1. -/
theorem test_nop : (after (cmd .nop) sample).map (fun t => (t.status, t.result)) = some (1, 0) := by decide +kernel
/-- 95 F2. -/
theorem test_gfAdd : (after (cmd (.gfAdd 0x53 0xCA)) sample).map (fun t => (t.status, t.result)) = some (1, 0x99) := by
  decide +kernel
/-- 95 F5. -/
theorem test_gfMul : (after (cmd (.gfMul 0x53 0xCA)) sample).map (fun t => (t.status, t.result)) = some (1, 0x8F) := by
  decide +kernel
/-- 95 F12. -/
theorem test_gfMul_zero : (after (cmd (.gfMul 0x00 0x37)) flagged).map (fun t => (t.status, t.result)) = some (0x1F, 0) := by
  decide +kernel
/-- 95 F20. -/
theorem test_gfLog : (after (cmd (.gfLog 0x8E)) sample).map (fun t => (t.status, t.result)) = some (1, 0xFE) := by
  decide +kernel
/-- 95 F22. -/
theorem test_gfLog_zero : (after (cmd (.gfLog 0x00)) sample).map (fun t => (t.status, t.result, t.errcmd)) =
    some (0x09, 0, 0x30000000) := by decide +kernel
/-- 95 F27. -/
theorem test_gfExp : (after (cmd (.gfExp 254)) sample).map (fun t => (t.status, t.result)) = some (1, 0x8E) := by
  decide +kernel
/-- 95 F28. -/
theorem test_gfExp_255 : (after (cmd (.gfExp 255)) sample).map (·.result) = some 0x01 := by decide +kernel
/-- 95 P-1. -/
theorem test_polyMul : (after (cmd (.polyMul 3 2)) sample).map (fun t => (t.status, t.rlen, t.pr)) =
    some (1, 4, [(0, 0x23), (1, 0xE9), (2, 0x18), (3, 0x67)]) := by decide +kernel
/-- 95 P-12. -/
theorem test_polyMul_too_long : (after (cmd (.polyMul 17 17)) sample).map (fun t => (t.status, t.errcmd, t.pr)) =
    some (0x05, 0x50001111, []) := by decide +kernel
/-- 95 section 3, n = 7. -/
theorem test_polyGen : (after (cmd (.polyGen 7)) sample).map (fun t => (t.rlen, t.pr.map Prod.snd)) =
    some (8, [0x01, 0x7F, 0x7A, 0x9A, 0xA4, 0x0B, 0x44, 0x75]) := by decide +kernel
/-- 95 section 3, n = 32. -/
theorem test_polyGen_too_long : (after (cmd (.polyGen 32)) sample).map (fun t => (t.status, t.rlen)) = some (0x05, 0) := by
  decide +kernel
/-- 95 F33. -/
theorem test_reserved_opcode : (after (wr 0x008 0xF0000000) sample).map (fun t => (t.status, t.errcmd)) =
    some (0x03, 0xF0000000) := by decide +kernel
theorem test_withFetchWord : step (State.reset.withFetchWord 32 0x10005A5A) =
    .next { State.reset with status := 1, response := some .written } := by rfl

/-! ### The bus and reset -/

/-- 95 B1, B2, B3. -/
theorem test_read_constants : answer 0x000 sample = some (.data 0x47460001) ∧
    answer 0x004 sample = some (.data 0x00021D20) ∧ answer 0x008 sample = some (.data 0) := by decide +kernel
/-- 95 B4. -/
theorem test_read_misaligned : (after (rd 0x002) sample).map (fun t => (t.status, t.erraddr, t.response)) =
    some (0x10, 0x002, some (.data 0)) := by decide +kernel
/-- 95 B6, B17. -/
theorem test_read_unmapped : (after (rd 0x180) sample).map (fun t => (t.status, t.erraddr)) = some (0x10, 0x180) ∧
    (after (rd 0xFFC) sample).map (fun t => (t.status, t.erraddr)) = some (0x10, 0xFFC) := by decide +kernel
/-- 95 B7, B8. -/
theorem test_write_read_only : (after (wr 0x010 1) sample).map (fun t => (t.status, t.erraddr, t.result)) = some (0x10, 0x010, 0) ∧
    (after (wr 0x300 5) sample).map (fun t => (t.status, t.erraddr, t.pr)) = some (0x10, 0x300, []) := by decide +kernel
/-- 95 B9, B10. -/
theorem test_write_partial : (after (wrBe 0x100 0x55 0b0001) sample).map (fun t => (t.status, t.erraddr, t.pa)) =
      some (0x10, 0x100, sample.pa) ∧
    (after (wrBe 0x008 0 0b0011) sample).map (fun t => (t.status, t.erraddr)) = some (0x10, 0x008) := by decide +kernel
/-- 95 B12. -/
theorem test_write_keeps_low_byte : ((after (wr 0x100 0xFFFFFF12) State.reset).bind (answer 0x100)) = some (.data 0x12) := by
  decide +kernel
/-- 95 B13, B14. -/
theorem test_status_write_one_clears : (after (wr 0x00C 0x0A) flagged).map (·.status) = some 0x15 ∧
    (after (wr 0x00C 0xFFFFFFE0) flagged).map (·.status) = some 0x1F := by decide +kernel
/-- 95 B15. -/
theorem test_reset : (after .reset flagged).map (fun t => (t.status, t.result, t.rlen)) = some (0, 0, 0) ∧
    (after .reset flagged).map (fun t => (t.errcmd, t.erraddr, t.pa)) = some (0, 0, []) := by decide +kernel

/-! ### The assembler (30 R86, R87) -/

theorem test_assemble_example : assemble "gf.mul 0x53, 0xCA" = some 0x200053CA := by decide +kernel
theorem test_assemble_decimal : assemble "poly.mul 3,2" = some 0x50000302 := by decide +kernel
theorem test_assemble_refuses_256 : assemble "gf.exp 256" = none := by decide +kernel
theorem test_assemble_refuses_missing_operand : assemble "gf.add 1" = none := by decide +kernel
theorem test_assemble_pseudo : assemble "gf.sq 0x80" = some 0x20008080 ∧ assemble "gf.one" = some 0x40000000 := by
  decide +kernel

/-! ### Cases that meet the hypotheses of the statements

One theorem for each statement with hypotheses, named after it; its parts meet the hypotheses of the statement's clauses, at
a boundary of the range where there is one. -/

/-- The sample state after `poly.gen 1`: PR[0..1] written, RLEN = 2. -/
def generated : State := { sample with status := 1, pr := [(0, 0x01), (1, 0x01)], rlen := 2 }

/-- The sample state with `poly.mul 3, 2` about to be written to CMD. -/
def offered : State := sample.offer (.write 0x008 0b1111 0x50000302)

theorem witness_EncodeThenDecodeGivesTheCommand :
    (Instr.polyMul 255 255).wf = true ∧ (Instr.gfExp 255).wf = true ∧ (Instr.polyGen 0).wf = true := by decide

theorem witness_DecodeThenEncodeGivesTheWord :
    decode 0x5000FFFF = .ok (.polyMul 255 255) ∧ decode 0x00000000 = .ok .nop := by decide

theorem witness_DecodeFollowsTheMatchAndMaskTable :
    decode 0x6000FF00 = .ok (.polyGen 255) ∧
    (∃ r ∈ opcodeRows, r.selects 0x6000FF00 = true) ∧ (∀ r ∈ opcodeRows, r.selects 0x6000FF01 = false) := by decide

theorem witness_StepRunsTheDecodedCommand :
    offered.pending = .write 0x008 0b1111 0x50000302 :: [] ∧ decode 0x50000302 = .ok (.polyMul 3 2) := by decide

/-- The largest accepted product of a block of capacity 32. -/
theorem witness_EveryEventCompletes : sample.pending = [] ∧ badMulLengths 32 16 17 = false := by decide

/-- One word for each way to be illegal, and a legal word at the top of its range. -/
theorem witness_IllegalWordsRaiseErrIllegal :
    illegalWord 0x70000000 ∧ illegalWord 0x20010203 ∧ illegalWord 0x00000001 ∧ illegalWord 0x00000100 ∧
    illegalWord 0x30000001 ∧ illegalWord 0x40000001 ∧ illegalWord 0x60000001 ∧ ¬ illegalWord 0x6000FF00 := by
  refine ⟨?_, ?_, ?_, ?_, ?_, ?_, ?_, ?_⟩ <;> unfold illegalWord <;> decide

theorem witness_NopOnlySetsDone : (0x00000001 : Word).extractLsb' 28 4 = 0 ∧ (0x00000001 : Word) ≠ 0 := by decide

theorem witness_GfAddWritesTheXor :
    (0x1000FFFF : Word).extractLsb' 28 4 = 1 ∧ (0x1000FFFF : Word).extractLsb' 16 12 = 0 ∧
    (∃ t, exec (.gfAdd 0xFF 0xFF) sample = .next t) ∧ (∃ t, exec (.gfAdd 0xFF 0) sample = .next t) :=
  ⟨by decide, by decide, ⟨_, rfl⟩, ⟨_, rfl⟩⟩

theorem witness_GfMulWritesTheFieldProduct :
    (0x2000FFFF : Word).extractLsb' 28 4 = 2 ∧ (0x2000FFFF : Word).extractLsb' 16 12 = 0 ∧
    (∃ t, exec (.gfMul 0 0xFF) sample = .next t) ∧ (∃ t, exec (.gfMul 1 0xFF) sample = .next t) ∧
    (∃ t, exec (.gfMul 0x8E (gfexp sample.cfg (255 - gflog sample.cfg 0x8E))) sample = .next t) ∧
    sample.cfg = Config.default ∧ (∃ t, exec (.gfMul 0x53 0xCA) sample = .next t) ∧
    (∃ t, exec (.gfMul 0x8E 0x02) sample = .next t) ∧ (∃ t, exec (.gfMul 0x02 0x80) sample = .next t) :=
  ⟨by decide, by decide, ⟨_, rfl⟩, ⟨_, rfl⟩, ⟨_, rfl⟩, rfl, ⟨_, rfl⟩, ⟨_, rfl⟩, ⟨_, rfl⟩⟩

theorem witness_GfLogWritesTheLogarithm :
    (0xFF : Byte) ≠ 0 ∧ (0x3000FF00 : Word).extractLsb' 28 4 = 3 ∧ ¬ illegalWord 0x3000FF00 ∧
    (∃ t, exec (.gfLog 1) sample = .next t) ∧ (∃ t, exec (.gfLog sample.cfg.alpha) sample = .next t) ∧
    sample.cfg = Config.default ∧ (∃ t, exec (.gfLog 0x8E) sample = .next t) ∧ (∃ t, exec (.gfLog 0x53) sample = .next t) := by
  refine ⟨by decide, by decide, ?_, ⟨_, rfl⟩, ⟨_, rfl⟩, rfl, ⟨_, rfl⟩, ⟨_, rfl⟩⟩
  unfold illegalWord
  decide

theorem witness_GfExpWritesThePowerOfAlpha :
    255 < 256 ∧ (0x4000FF00 : Word).extractLsb' 28 4 = 4 ∧ ¬ illegalWord 0x4000FF00 ∧
    (∃ t, exec (.gfExp 0) sample = .next t) ∧ (∃ t, exec (.gfExp 255) sample = .next t) ∧
    sample.cfg = Config.default ∧ (∃ t, exec (.gfExp 8) sample = .next t) := by
  refine ⟨by decide, by decide, ?_, ⟨_, rfl⟩, ⟨_, rfl⟩, rfl, ⟨_, rfl⟩⟩
  unfold illegalWord
  decide

/-- Lengths that just fit (16 + 17 − 1 = 32), one for each way to be too short or too long, and the spec's example. -/
theorem witness_PolyMulWritesTheProduct :
    (1 ≤ 16 ∧ 1 ≤ 17 ∧ 16 + 17 - 1 ≤ sample.cfg.polyMax) ∧ (33 < 256 ∧ sample.cfg.polyMax < 33) ∧ (17 < 256 ∧ sample.cfg.polyMax < 17 + 17 - 1) ∧
    (0x5000FFFF : Word).extractLsb' 28 4 = 5 ∧ (0x5000FFFF : Word).extractLsb' 16 12 = 0 ∧
    lookupCell (sample.buffer .pa) 3 = none ∧ sample.cfg = Config.default ∧
    sample.entries .pa 3 = [0x12, 0x34, 0x56] ∧ sample.entries .pb 2 = [0x78, 0x9A] ∧
    (∃ t, exec (.polyMul 3 2) sample = .next t) :=
  ⟨by decide, by decide, by decide, by decide, by decide, by decide, rfl, by decide, by decide, ⟨_, rfl⟩⟩

/-- The largest accepted degree, and the next one. -/
theorem witness_PolyGenWritesTheGeneratorPolynomial :
    255 < 256 ∧ 31 + 1 ≤ sample.cfg.polyMax ∧ (32 < 256 ∧ sample.cfg.polyMax < 32 + 1) ∧
    (0x6000FF00 : Word).extractLsb' 28 4 = 6 ∧ ¬ illegalWord 0x6000FF00 ∧ sample.cfg = Config.default ∧
    (∃ t, exec (.polyGen 7) sample = .next t) := by
  refine ⟨by decide, by decide, by decide, by decide, ?_, rfl, ⟨_, rfl⟩⟩
  unfold illegalWord
  decide

/-- `poly.gen 32` in a block of capacity 32. -/
theorem lengthErrorWord_gen_32 : lengthErrorWord sample.cfg.polyMax 0x60002000 := .inr ⟨32, by decide, by decide⟩

theorem witness_ErrLenIsRaisedByBadLengthsOnly :
    isReset (.write 0x008 0b1111 0x60002000) = false ∧
    commandOf? (.write 0x008 0b1111 0x60002000) = some 0x60002000 ∧ lengthErrorWord sample.cfg.polyMax 0x60002000 ∧
    flagIsSet sample.status .errLen = false ∧
    ∃ t, step (sample.offer (.write 0x008 0b1111 0x60002000)) = .next t ∧ flagIsSet t.status .errLen = true :=
  ⟨rfl, by decide, lengthErrorWord_gen_32, by decide, _, rfl, by decide⟩

theorem witness_ErrLog0IsRaisedByTheLogarithmOfZeroOnly : flagIsSet sample.status .errLog0 = false ∧
    ∃ t, step (sample.offer (.write 0x008 0b1111 0x30000000)) = .next t ∧ flagIsSet t.status .errLog0 = true :=
  ⟨by decide, _, rfl, by decide⟩

/-- One event for each of the six outcomes, from a clear STATUS, and one on top of flags already set; a reset, and a write to
STATUS that clears some flags; and a misaligned and a partial write at CMD. -/
theorem witness_AtMostOneErrorPerEvent : sample.status = 0 ∧
    (∃ t, step (sample.offer (.read 0x000)) = .next t ∧ t.status = 0) ∧
    (∃ t, step (sample.offer (.write 0x008 0b1111 0x00000000)) = .next t ∧ t.status = 0b00001) ∧
    (∃ t, step (sample.offer (.write 0x008 0b1111 0x70000000)) = .next t ∧ t.status = 0b00011) ∧
    (∃ t, step (sample.offer (.write 0x008 0b1111 0x60002000)) = .next t ∧ t.status = 0b00101) ∧
    (∃ t, step (sample.offer (.write 0x008 0b1111 0x30000000)) = .next t ∧ t.status = 0b01001) ∧
    (∃ t, step (sample.offer (.read 0xFFC)) = .next t ∧ t.status = 0b10000) ∧
    (∃ t, step (State.offer { sample with status := 0b10010 } (.write 0x008 0b1111 0x30000000)) = .next t ∧ t.status = 0b11011) ∧
    (isReset .reset = true ∧ ∃ t, step (flagged.offer .reset) = .next t ∧ t.status = 0) ∧
    (∃ t, step (flagged.offer (.write 0x00C 0b1111 0xFFFFFFE9)) = .next t ∧ t.status = 0b10110) ∧
    (isReset (.read 0x000) = false ∧ ∀ v : Word, HostEvent.read 0x000 ≠ .write 0x00C 0b1111 v) ∧
    (0x00B : Addr).toNat / 4 = 2 ∧ (0x00B : Addr) ≠ 0x008 ∧ (0x008 : Addr).toNat / 4 = 2 ∧ (0b0111 : BitVec 4) ≠ 0b1111 :=
  ⟨rfl, ⟨_, rfl, by decide⟩, ⟨_, rfl, by decide⟩, ⟨_, rfl, by decide⟩, ⟨_, rfl, by decide⟩, ⟨_, rfl, by decide⟩,
    ⟨_, rfl, by decide⟩, ⟨_, rfl, by decide⟩, ⟨rfl, _, rfl, by decide⟩, ⟨_, rfl, by decide⟩, ⟨rfl, fun v h => by cases h⟩,
    by decide, by decide, by decide, by decide⟩

/-- Misaligned, unmapped (the first address after PA), partial, and read-only. -/
theorem witness_RefusedAccessesOnlyRaiseErrBus :
    refusedAddr sample.cfg.polyMax (.read 0x003) = some 0x003 ∧ refusedAddr sample.cfg.polyMax (.read 0x180) = some 0x180 ∧
    refusedAddr sample.cfg.polyMax (.write 0x100 0b1110 0) = some 0x100 ∧
    refusedAddr sample.cfg.polyMax (.write 0x37C 0b1111 0) = some 0x37C := by decide

/-- The edges of each window of 20 R51. -/
theorem witness_ReadsReturnTheTargetsValue :
    ((0x001 : Addr).toNat % 4 ≠ 0 ∧ isMapped sample.cfg.polyMax (0x020 : Addr).toNat = false ∧
      isMapped sample.cfg.polyMax (0x380 : Addr).toNat = false) ∧
    ((0x01C : Addr).toNat % 4 = 0 ∧ isMapped sample.cfg.polyMax (0x01C : Addr).toNat = true) ∧
    (31 < sample.cfg.polyMax ∧ isMapped sample.cfg.polyMax (0x37C : Addr).toNat = true ∧
      (0x17C : Addr).toNat = 0x100 + 4 * 31 ∧ (0x27C : Addr).toNat = 0x200 + 4 * 31 ∧ (0x37C : Addr).toNat = 0x300 + 4 * 31) := by
  decide

theorem witness_WritesActOnTheirTarget :
    ((0x009 : Addr).toNat % 4 ≠ 0 ∧ isWritable sample.cfg.polyMax (0x000 : Addr).toNat = false ∧
      isWritable sample.cfg.polyMax (0x300 : Addr).toNat = false ∧ (0b0000 : BitVec 4) ≠ 0b1111) ∧
    31 < sample.cfg.polyMax := by decide

theorem witness_WrittenEntriesReadBackZeroExtended : BufferId.pb ≠ .pr ∧ 31 < sample.cfg.polyMax := by decide

theorem witness_ReadsHaveNoSideEffectAndWritesAreIdempotent :
    (refusedAddr sample.cfg.polyMax (.read 0x37C) = none ∧ ∃ t, step (sample.offer (.read 0x37C)) = .next t) ∧
    (refusedAddr sample.cfg.polyMax (.read 0x380) = some 0x380 ∧ ∃ t, step (sample.offer (.read 0x380)) = .next t) ∧
    (commandOf? (.write 0x17C 0b1111 0xFF) = none ∧ ∃ t, step (sample.offer (.write 0x17C 0b1111 0xFF)) = .next t) :=
  ⟨⟨by decide, _, rfl⟩, ⟨by decide, _, rfl⟩, by decide, _, rfl⟩

theorem witness_ParamReportsTheConfiguration : sample.cfg = Config.default := rfl

/-- A scalar command, and an event that leaves RESULT. -/
theorem witness_ResultIsWrittenByScalarCommandsOnly :
    isReset (.write 0x008 0b1111 0x100000FF) = false ∧
    (∃ t, step (sample.offer (.write 0x008 0b1111 0x100000FF)) = .next t) ∧
    commandOf? (.write 0x008 0b1111 0x100000FF) = some 0x100000FF ∧ decode 0x100000FF = .ok (.gfAdd 0 0xFF) ∧
    scalarResult sample.cfg (.gfAdd 0 0xFF) = some 0xFF ∧
    (∀ w i v, commandOf? (.read 0x010) = some w → decode w = .ok i → scalarResult sample.cfg i ≠ some v) :=
  ⟨rfl, ⟨_, rfl⟩, by decide, by decide, by decide, fun w i v h => by simp [commandOf?] at h⟩

/-- The longest product, and an event that leaves RLEN. -/
theorem witness_RlenIsWrittenByPolynomialCommandsOnly :
    isReset (.write 0x008 0b1111 0x50001011) = false ∧
    (∃ t, step (sample.offer (.write 0x008 0b1111 0x50001011)) = .next t) ∧
    commandOf? (.write 0x008 0b1111 0x50001011) = some 0x50001011 ∧ decode 0x50001011 = .ok (.polyMul 16 17) ∧
    polyLength sample.cfg.polyMax (.polyMul 16 17) = some 32 ∧
    (∀ w i n, commandOf? (.read 0x014) = some w → decode w = .ok i → polyLength sample.cfg.polyMax i ≠ some n) :=
  ⟨rfl, ⟨_, rfl⟩, by decide, by decide, by decide, fun w i n h => by simp [commandOf?] at h⟩

/-- An erroneous word, and an event that leaves ERRCMD: the host clearing STATUS. -/
theorem witness_ErrcmdHoldsTheLastErroneousWord :
    isReset (.write 0x008 0b1111 0x60002000) = false ∧
    (∃ t, step (sample.offer (.write 0x008 0b1111 0x60002000)) = .next t) ∧
    commandOf? (.write 0x008 0b1111 0x60002000) = some 0x60002000 ∧ erroneousWord sample.cfg.polyMax 0x60002000 ∧
    (∀ w, commandOf? (.write 0x00C 0b1111 0x1F) = some w → ¬ erroneousWord sample.cfg.polyMax w) :=
  ⟨rfl, ⟨_, rfl⟩, by decide, .inr (.inl lengthErrorWord_gen_32), fun w h => by simp [commandOf?] at h⟩

theorem witness_ErraddrHoldsTheLastRefusedAddress :
    isReset (.read 0xFFF) = false ∧ (∃ t, step (sample.offer (.read 0xFFF)) = .next t) ∧
    refusedAddr sample.cfg.polyMax (.read 0xFFF) = some 0xFFF ∧
    refusedAddr sample.cfg.polyMax (.write 0x00C 0b1111 0x1F) = none := ⟨rfl, ⟨_, rfl⟩, by decide, by decide⟩

/-- A flag that the host's write leaves, and DONE being set. -/
theorem witness_FlagsStayUntilTheHostClearsThem :
    isReset (.write 0x00C 0b1111 0x0F) = false ∧ (∃ t, step (flagged.offer (.write 0x00C 0b1111 0x0F)) = .next t) ∧
    flagIsSet flagged.status .errBus = true ∧ (0x0F : Word).getLsbD StatusBit.errBus.number = false ∧
    flagIsSet sample.status .done = false ∧
    (∃ t, step (sample.offer (.write 0x008 0b1111 0)) = .next t ∧ flagIsSet t.status .done = true) :=
  ⟨rfl, ⟨_, rfl⟩, by decide, by decide, by decide, _, rfl, by decide⟩

/-- A write to the last entry of PA, and an event that leaves it. -/
theorem witness_OperandBuffersAreWrittenByTheHostOnly :
    isReset (.write 0x17C 0b1111 0xFF) = false ∧ BufferId.pa ≠ .pr ∧ 31 < sample.cfg.polyMax ∧
    (∃ t, step (sample.offer (.write 0x17C 0b1111 0xFF)) = .next t) ∧
    HostEvent.write 0x17C 0b1111 0xFF = .write (BitVec.ofNat 12 (bufferBase .pa + 4 * 31)) 0b1111 0xFF ∧
    (∀ v : Word, HostEvent.read 0x17C ≠ .write (BitVec.ofNat 12 (bufferBase .pa + 4 * 31)) 0b1111 v) :=
  ⟨rfl, by decide, by decide, ⟨_, rfl⟩, by decide, fun v h => by cases h⟩

/-- `poly.gen 0` over a PR whose entry 0 the previous result left at 05. -/
theorem witness_ResultBufferIsWrittenByPolynomialCommandsOnly :
    isReset (.write 0x008 0b1111 0x60000000) = false ∧
    (∃ t, step (State.offer { sample with pr := [(0, 0x05)] } (.write 0x008 0b1111 0x60000000)) = .next t ∧
      t.entry .pr 0 ≠ State.entry { sample with pr := [(0, 0x05)] } .pr 0) ∧
    31 < sample.cfg.polyMax := ⟨rfl, ⟨_, rfl, by decide⟩, by decide⟩

theorem witness_TablesFollowTheirRecurrence :
    (0x11D : BitVec 9).getLsbD 8 = true ∧ (0x100 : BitVec 9).getLsbD 8 = true ∧ ∃ t, step sample = .next t :=
  ⟨by decide, by decide, _, rfl⟩

theorem witness_GfexpAndGflogAreInverse : (0xFF : Byte) ≠ 0 := by decide

theorem witness_FieldLawsHoldInEveryConfiguration : (0x01 : Byte) ≠ 0 := by decide

/-- One leading zero in each factor. -/
theorem witness_PolymulIsTheConvolution : ([0x00, 0x01] : List Byte) ≠ [] ∧ ([0x00, 0x05] : List Byte) ≠ [] ∧
    2 < ([0x00, 0x01] : List Byte).length + ([0x00, 0x05] : List Byte).length - 1 ∧
    (∀ i, i < 1 → ([0x00, 0x01] : List Byte).getD i 0 = 0) ∧ (∀ j, j < 1 → ([0x00, 0x05] : List Byte).getD j 0 = 0) ∧
    1 < 1 + 1 := by decide

theorem witness_PolymulObeysTheLawsOfPolynomials :
    ([0x12, 0x34] : List Byte) ≠ [] ∧ ([0x78] : List Byte) ≠ [] ∧ ([0x00] : List Byte) ≠ [] := by decide

theorem witness_GenpolyIsTheProductOfItsFactors : [2, 0, 1].Perm (List.range 3) := by decide

theorem witness_GenpolyHasItsRoots : 1 ≤ 1 ∧ 0 < 1 := by decide

/-- Two states that differ in everything a command may not read. -/
theorem witness_CommandsDependOnTheirOperandsOnly :
    sample.cfg = State.cfg { sample with result := 0xFF, status := 0x1F, pr := [(7, 0xAA)] } ∧
    decode 0x50000302 = .ok (.polyMul 3 2) ∧
    sample.entries .pa 3 = State.entries { sample with result := 0xFF, status := 0x1F, pr := [(7, 0xAA)] } .pa 3 ∧
    sample.entries .pb 2 = State.entries { sample with result := 0xFF, status := 0x1F, pr := [(7, 0xAA)] } .pb 2 ∧
    (∃ t, step (sample.offer (.write 0x008 0b1111 0x50000302)) = .next t) ∧
    (∃ t, step (State.offer { sample with result := 0xFF, status := 0x1F, pr := [(7, 0xAA)] }
      (.write 0x008 0b1111 0x50000302)) = .next t) :=
  ⟨rfl, by decide, by decide, by decide, ⟨_, rfl⟩, ⟨_, rfl⟩⟩

theorem witness_ResetLeavesTheListedValues :
    isReset .reset = true ∧ isReset (.resetDuringCommand 0x60001F00) = true ∧
    ∃ t, step (sample.offer (.write 0x008 0b1111 0x60001F00)) = .next t := ⟨rfl, rfl, _, rfl⟩

theorem witness_NoEventChangesTheConfiguration : ∃ t, step (sample.offer .reset) = .next t := ⟨_, rfl⟩

/-- A state with entries, a result and an error recorded, and a step from it. -/
theorem witness_EveryStepKeepsTheInvariant :
    State.Inv { generated with status := 0x05, errcmd := 0x60002000 } ∧
    ∃ t, step (State.offer { generated with status := 0x05, errcmd := 0x60002000 } (.write 0x008 0b1111 0x60001F00)) = .next t :=
  ⟨⟨by decide, by decide, by decide, by decide, by decide, .inr (.inr (.inl lengthErrorWord_gen_32)),
    fun _ => .inr (.inl lengthErrorWord_gen_32)⟩, _, rfl⟩

/-- For each clause: the largest operand; a line; two operand texts, one with spaces; an operand too large, alone and beside a
good one; one operand where two are needed, two where one is, one where none is; an unknown mnemonic. -/
theorem witness_AssemblerWritesTheCommandWords :
    255 ≤ 255 ∧ operandValue "0xFF".toList = some 255 ∧ ([1] : List Nat).length ≠ 2 ∧ ([1, 2] : List Nat).length ≠ 1 ∧
    ([1] : List Nat) ≠ [] ∧
    assembleLine "poly.gen 255".toList = some (.polyGen 255) ∧
    (operandValue "0x53".toList = some 0x53 ∧ operandValue " 202".toList = some 0xCA) ∧
    (',' ∉ ['2', '5', '6'] ∧ operandValue ['2', '5', '6'] = none ∧ ∃ c ∈ ['2', '5', '6'], c ≠ ' ') ∧
    (operandValue "".toList = none ∧ 2 ≤ ["1".toList, "".toList].length) ∧
    (operandValue "1".toList ≠ none ∧ ["1".toList].length ≠ 2 ∧ ["1".toList, "1".toList].length ≠ 1 ∧ ["1".toList] ≠ []) ∧
    ("gf.div" ≠ "" ∧ ' ' ∉ "gf.div".toList ∧ "gf.div" ∉ ["nop", "gf.add", "gf.mul", "gf.log", "gf.exp", "poly.mul", "poly.gen",
      "gf.sub", "gf.mov", "gf.clr", "gf.one", "gf.sq"]) :=
  ⟨by decide, by decide +kernel, by decide, by decide, by decide, by decide +kernel, by decide +kernel,
    ⟨by decide, by decide, '2', by decide, by decide⟩, by decide +kernel, by decide +kernel, by simp⟩

/-- Lines as 30 R86 writes them, and lines that it refuses. -/
theorem test_lines_assemble :
    assemble (lineOf "gf.mul" ["0x53".toList, " 0xCA".toList]) = some 0x200053CA ∧ assemble (lineOf "nop" []) = some 0 ∧
    lineOf "gf.mul" ["0x53".toList, " 0xCA".toList] = "gf.mul 0x53, 0xCA" ∧
    assemble "gf.exp 256" = none ∧ assemble "gf.add 1," = none ∧ assemble "nop 0" = none ∧ assemble "gf.log 1, 2" = none := by
  decide +kernel

/-- 255 in decimal and in hexadecimal of either case, 256, and a text with a space in front. -/
theorem witness_OperandTextsAreReadAsTheirNumbers :
    (([2, 5, 5] : List (Fin 10)) ≠ [] ∧ operandValue (([2, 5, 5] : List (Fin 10)).map fun d => Nat.digitChar d.val) = some 255) ∧
    operandValue (([2, 5, 6] : List (Fin 10)).map fun d => Nat.digitChar d.val) = none ∧
    (([15, 15] : List (Fin 16)) ≠ [] ∧
      List.Forall₂ (fun c d => c = Nat.digitChar d.val ∨ c = (Nat.digitChar d.val).toUpper) "fF".toList ([15, 15] : List (Fin 16)) ∧
      operandValue ('0' :: 'x' :: "fF".toList) = some 255) ∧
    operandValue " 7".toList ≠ none :=
  ⟨by decide +kernel, by decide +kernel, ⟨by decide, .cons (.inl rfl) (.cons (.inr rfl) .nil), by decide +kernel⟩, by decide +kernel⟩

end Sys2Proof.Tests
end

section
/-! PROOF of the statement of 00 (scope): which configurations the model accepts (00 R6, R7). -/

namespace Sys2Proof.Machine

/-- The bits of `2 ^ 256 - 2`, the set of all nonzero bytes. -/
theorem testBit_nonzeroBytes (k : Nat) : (2 ^ 256 - 2 : Nat).testBit k = true ↔ k < 256 ∧ k ≠ 0 := by
  rw [Nat.testBit_two_pow_sub_succ (x := 1) (n := 256) (by decide)]
  simp [← Bool.not_eq_true, Nat.testBit_one_eq_true_iff_self_eq_zero]

/-- The set of a table's bytes is the set of all nonzero ones when exactly these stand in the table. -/
theorem bytesIn_eq_of_mem_iff {t : List Byte} (h : ∀ x : Byte, x ∈ t ↔ x ≠ 0) : bytesIn t = 2 ^ 256 - 2 := by
  apply Nat.eq_of_testBit_eq
  intro k
  rw [Bool.eq_iff_iff, testBit_bytesIn, testBit_nonzeroBytes]
  constructor
  · rintro ⟨x, hx, rfl⟩
    exact ⟨x.isLt, fun h0 => (h x).mp hx (BitVec.eq_of_toNat_eq h0)⟩
  · rintro ⟨hlt, hk⟩
    have hnat : (BitVec.ofNat 8 k).toNat = k := by simp [Nat.mod_eq_of_lt hlt]
    refine ⟨BitVec.ofNat 8 k, (h _).mpr fun h0 => hk ?_, hnat⟩
    rw [← hnat, h0]
    rfl

/-- A table with every nonzero byte and fewer than 256 entries has no room for 0. -/
theorem zero_notMem_of_length_lt {t : List Byte} (hlen : t.length < 256) (h : ∀ x : Byte, x ≠ 0 → x ∈ t) : 0 ∉ t := by
  intro h0
  have hall : t.toFinset = Finset.univ := by
    rw [Finset.eq_univ_iff_forall]
    intro x
    rw [List.mem_toFinset]
    by_cases hx : x = 0
    · exact hx ▸ h0
    · exact h x hx
  have hcard : t.toFinset.card = 2 ^ 8 := by
    rw [hall, Finset.card_univ, Fintype.card_congr (BitVec.equivFin (m := 8)).toEquiv, Fintype.card_fin]
  have := t.toFinset_card_le
  omega

/-- `acceptsConfig` by its clauses. -/
theorem acceptsConfig_iff (fieldPoly : BitVec 9) (alpha : Byte) (polyMax : Nat) :
    acceptsConfig fieldPoly alpha polyMax = true ↔
      fieldPoly.getLsbD 8 = true ∧ alpha ≠ 0 ∧ 1 ≤ polyMax ∧ polyMax ≤ 64 ∧
        bytesIn (expTable fieldPoly alpha) = 2 ^ 256 - 2 := by
  simp only [acceptsConfig, Bool.and_eq_true, bne_iff_ne, beq_iff_eq, decide_eq_true_eq, and_assoc]

/-- `Config.make` answers exactly on the parameters that the check accepts. -/
theorem config_make_isSome_iff (fieldPoly : BitVec 9) (alpha : Byte) (polyMax : Nat) :
    (Config.make fieldPoly alpha polyMax).isSome = true ↔ acceptsConfig fieldPoly alpha polyMax = true := by
  unfold Config.make
  split <;> simp [*]

/-- On the parameters of a configuration, `Config.make` answers that configuration. -/
theorem config_make_self (c : Config) : Config.make c.fieldPoly c.alpha c.polyMax = some c := dif_pos c.accepted

/-- In an accepted configuration each nonzero byte stands in the table once. -/
theorem count_expTable (c : Config) {x : Byte} (hx : x ≠ 0) : (expTable c.fieldPoly c.alpha).count x = 1 :=
  List.count_eq_one_of_mem (expTable_nodup c) ((mem_expTable c x).mpr hx)

/-- A table that holds each nonzero byte once passes the check of 00 R7: its 255 entries leave no room for 0. -/
theorem bytesIn_expTable_of_count {fieldPoly : BitVec 9} {alpha : Byte}
    (h : ∀ x : Byte, x ≠ 0 → (expTable fieldPoly alpha).count x = 1) :
    bytesIn (expTable fieldPoly alpha) = 2 ^ 256 - 2 := by
  have hmem : ∀ x : Byte, x ≠ 0 → x ∈ expTable fieldPoly alpha := fun x hx =>
    List.count_pos_iff.mp (by rw [h x hx]; exact Nat.one_pos)
  have hzero : 0 ∉ expTable fieldPoly alpha := zero_notMem_of_length_lt (by simp) hmem
  exact bytesIn_eq_of_mem_iff fun x => ⟨fun hx h0 => hzero (h0 ▸ hx), hmem x⟩

/-- Settles O31: the table has 255 entries, so it holds each nonzero byte once exactly when the bytes it holds are all the
nonzero ones and no other, which is what `acceptsConfig` checks. -/
theorem acceptedTablesHoldEachNonzeroByteOnce : Obligations.AcceptedTablesHoldEachNonzeroByteOnce := by
  unfold Obligations.AcceptedTablesHoldEachNonzeroByteOnce
  refine ⟨fun fieldPoly alpha polyMax => ?_, config_make_self Config.default⟩
  rw [config_make_isSome_iff]
  constructor
  · intro hacc
    obtain ⟨hpoly, halpha, hmin, hmax, -⟩ := (acceptsConfig_iff ..).mp hacc
    exact ⟨hpoly, halpha, hmin, hmax, fun x hx => count_expTable ⟨fieldPoly, alpha, polyMax, hacc⟩ hx⟩
  · rintro ⟨hpoly, halpha, hmin, hmax, hcount⟩
    exact (acceptsConfig_iff ..).mpr ⟨hpoly, halpha, hmin, hmax, bytesIn_expTable_of_count hcount⟩

end Sys2Proof.Machine
end

section
/-! PROOF of the statements of 10 (architectural state): what an event writes to PARAM, RESULT, RLEN, ERRCMD, ERRADDR and PR,
and what it may read to do so. -/

namespace Sys2Proof.Machine

/-! ### The bits above a register's width -/

/-- A register reads 0 above its width. -/
theorem extractLsb'_setWidth_eq_zero {m k : Nat} (n : Nat) (x : BitVec m) (h : m ≤ k) :
    (x.setWidth 32).extractLsb' k n = 0 := by
  ext j hj
  have hhigh : x.getLsbD (k + j) = false := BitVec.getLsbD_of_ge x _ (by omega)
  simp [BitVec.getLsbD_setWidth, hhigh]

/-- The fields of PARAM (10 R25). -/
theorem paramValue_fields (c : Config) :
    (paramValue c).extractLsb' 0 8 = BitVec.ofNat 8 c.polyMax ∧
      (paramValue c).extractLsb' 8 8 = c.fieldPoly.extractLsb' 0 8 ∧
      (paramValue c).extractLsb' 16 8 = c.alpha ∧ (paramValue c).extractLsb' 24 8 = 0 := by
  have skip {m : Nat} (k : Nat) (hi : BitVec m) (lo : Byte) :
      (hi ++ lo).extractLsb' (k + 8) 8 = hi.extractLsb' k 8 :=
    BitVec.extractLsb'_append_eq_of_le (by omega)
  exact ⟨BitVec.extractLsb'_append_eq_right, (skip 0 ..).trans BitVec.extractLsb'_append_eq_right,
    (skip 8 ..).trans ((skip 0 ..).trans BitVec.extractLsb'_append_eq_right),
    (skip 16 ..).trans ((skip 8 ..).trans BitVec.extractLsb'_append_eq_left)⟩

/-- Settles O23: PARAM is the concatenation of its fields, and an accepted configuration meets the ranges of 00 R6. -/
theorem paramReportsTheConfiguration : Obligations.ParamReportsTheConfiguration := by
  unfold Obligations.ParamReportsTheConfiguration
  refine ⟨fun s => ?_, fun s hs => ?_⟩
  · obtain ⟨hmax, hpoly, halpha, hzero⟩ := paramValue_fields s.cfg
    obtain ⟨hbit, -, hone, hle, -⟩ := (acceptsConfig_iff ..).mp s.cfg.accepted
    refine ⟨?_, hone, hle, hpoly, hbit, halpha, hzero⟩
    show ((paramValue s.cfg).extractLsb' 0 8).toNat = _
    rw [hmax, BitVec.toNat_ofNat, Nat.mod_eq_of_lt (by omega)]
  · show paramValue s.cfg = _
    rw [hs]
    rfl

/-! ### Words and their commands -/

/-- A word with RSV = 0 is packed from its other fields (30 R80). -/
theorem packFields_of_rsvField {w : Word} (h : rsvField w = 0) :
    packFields (BitVec.ofNat 4 (opField w)) (faField w) (fbField w) = w := by
  apply BitVec.eq_of_toNat_eq
  have hop : (BitVec.ofNat 4 (opField w)).toNat = opField w := by
    rw [BitVec.toNat_ofNat, Nat.mod_eq_of_lt (opField_lt w)]
  have hrsv : (rsvField w).toNat = 0 := by rw [h]; rfl
  rw [packFields_toNat, word_toNat_fields w, hop, hrsv]
  omega

/-- An operand field, read as an unsigned integer, is put back as it was (30 R81, R86). -/
@[simp] theorem toField_toNat (f : Byte) : toField f.toNat = f :=
  (BitVec.ofNat_toNat 8 f).trans (BitVec.setWidth_eq f)

/-- A word that decodes is the encoding of its command (30 R82). -/
theorem encode_of_decode {w : Word} {i : Instr} (h : decode w = .ok i) : encode i = w := by
  obtain ⟨hrsv, hcmd⟩ := decode_ok.mp h
  have hw := packFields_of_rsvField hrsv
  rcases hcmd with ⟨hop, hfa, hfb, rfl⟩ | ⟨hop, rfl⟩ | ⟨hop, rfl⟩ | ⟨hop, hfb, rfl⟩ | ⟨hop, hfb, rfl⟩ | ⟨hop, rfl⟩ |
    ⟨hop, hfb, rfl⟩
  all_goals conv_rhs => rw [← hw]
  all_goals simp [encode, *]

/-! ### Which commands write what -/

/-- POLY.MUL writes coefficients exactly where it does not refuse its lengths (41 R134). -/
theorem polyLength_polyMul (n la lb : Nat) :
    polyLength n (.polyMul la lb) = if badMulLengths n la lb then none else some (la + lb - 1) := by
  have hbad : badMulLengths n la lb = true ↔ _ := decide_eq_true_iff
  have hok : (1 ≤ la ∧ 1 ≤ lb ∧ la + lb - 1 ≤ n) ↔ ¬ badMulLengths n la lb = true := by
    rw [hbad]
    omega
  exact (if_congr hok rfl rfl).trans (ite_not ..)

/-- POLY.GEN writes coefficients exactly where it does not refuse its degree (41 R135). -/
theorem polyLength_polyGen (n d : Nat) :
    polyLength n (.polyGen d) = if badGenDegree n d then none else some (d + 1) := by
  have hbad : badGenDegree n d = true ↔ _ := decide_eq_true_iff
  have hok : d + 1 ≤ n ↔ ¬ badGenDegree n d = true := by rw [hbad, not_lt]
  exact (if_congr hok rfl rfl).trans (ite_not ..)

/-- POLY.MUL with lengths that it accepts. -/
theorem polyLength_polyMul_of_ok {n la lb : Nat} (h : badMulLengths n la lb = false) :
    polyLength n (.polyMul la lb) = some (la + lb - 1) :=
  (polyLength_polyMul n la lb).trans (if_neg (ne_true_of_eq_false h))

/-- POLY.MUL with lengths that it refuses. -/
theorem polyLength_polyMul_of_bad {n la lb : Nat} (h : badMulLengths n la lb = true) :
    polyLength n (.polyMul la lb) = none :=
  (polyLength_polyMul n la lb).trans (if_pos h)

/-- POLY.GEN with a degree that it accepts. -/
theorem polyLength_polyGen_of_ok {n d : Nat} (h : badGenDegree n d = false) : polyLength n (.polyGen d) = some (d + 1) :=
  (polyLength_polyGen n d).trans (if_neg (ne_true_of_eq_false h))

/-- POLY.GEN with a degree that it refuses. -/
theorem polyLength_polyGen_of_bad {n d : Nat} (h : badGenDegree n d = true) : polyLength n (.polyGen d) = none :=
  (polyLength_polyGen n d).trans (if_pos h)

/-- A result has from 1 to POLY_MAX coefficients (10 R29). -/
theorem polyLength_bounds {m n : Nat} {i : Instr} (h : polyLength m i = some n) : 1 ≤ n ∧ n ≤ m := by
  cases i with
  | polyMul la lb =>
    obtain ⟨hc, hn⟩ := Option.ite_none_right_eq_some.mp h
    obtain rfl := Option.some.inj hn
    omega
  | polyGen d =>
    obtain ⟨hc, hn⟩ := Option.ite_none_right_eq_some.mp h
    obtain rfl := Option.some.inj hn
    omega
  | nop | gfAdd | gfMul | gfLog | gfExp => cases h

/-- A command that writes an element writes no coefficients. -/
theorem polyLength_of_scalarResult {c : Config} {i : Instr} {v : Byte} (n : Nat) (h : scalarResult c i = some v) :
    polyLength n i = none := by
  cases i with
  | polyMul | polyGen => cases h
  | nop | gfAdd | gfMul | gfLog | gfExp => rfl

/-- A word that decodes raises a command error exactly when its command is not NOP and writes neither an element nor
coefficients (60 R161). -/
theorem erroneousWord_of_decode (c : Config) {w : Word} {i : Instr} (h : decode w = .ok i) :
    erroneousWord c.polyMax w ↔ i ≠ .nop ∧ scalarResult c i = none ∧ polyLength c.polyMax i = none := by
  have hlegal : ¬ illegalWord w := by
    rw [← decode_error, h]
    simp
  simp only [erroneousWord, lengthErrorWord, hlegal, h, false_or, Except.ok.injEq]
  cases i with
  | nop | gfAdd | gfMul | gfExp => simp [scalarResult]
  | gfLog a => simp [scalarResult, polyLength]
  | polyMul la lb =>
    have hnone : polyLength c.polyMax (.polyMul la lb) = none ↔ badMulLengths c.polyMax la lb = true := by
      simp [polyLength_polyMul]
    simp [scalarResult, hnone, badMulLengths]
  | polyGen d => simp [scalarResult, polyLength]

/-! ### What a command leaves in each register and in PR -/

/-- RESULT after a command: its element, where it writes one (10 R28). -/
theorem exec_result {i : Instr} {s t : State} (h : exec i s = .next t) :
    t.result = (scalarResult s.cfg i).getD s.result := by
  rcases exec_cases h with ⟨rfl, rfl⟩ | ⟨v, hv, rfl⟩ | ⟨la, lb, rfl, -, rfl⟩ | ⟨n, rfl, -, rfl⟩ | ⟨rfl, rfl⟩ |
    ⟨la, lb, rfl, -, rfl⟩ | ⟨n, rfl, -, rfl⟩
  case inr.inl => rw [hv]; rfl
  all_goals rfl

/-- A command writes PR and RLEN together, from as many coefficients as its lengths say, or neither (10 R29, R35). -/
theorem exec_poly_cases {i : Instr} {s t : State} (h : exec i s = .next t) :
    (∃ T, polyLength s.cfg.polyMax i = some T.length ∧ t = finishPoly T s) ∨
      (polyLength s.cfg.polyMax i = none ∧ t.rlen = s.rlen ∧ ∀ k, t.entry .pr k = s.entry .pr k) := by
  rcases exec_cases h with ⟨rfl, rfl⟩ | ⟨v, hv, rfl⟩ | ⟨la, lb, rfl, hb, rfl⟩ | ⟨n, rfl, hb, rfl⟩ | ⟨rfl, rfl⟩ |
    ⟨la, lb, rfl, hb, rfl⟩ | ⟨n, rfl, hb, rfl⟩
  · exact .inr ⟨rfl, rfl, fun _ => rfl⟩
  · exact .inr ⟨polyLength_of_scalarResult _ hv, rfl, fun _ => rfl⟩
  · exact .inl ⟨_, by rw [polyLength_polyMul_of_ok hb, polymul_length, entries_length, entries_length], rfl⟩
  · exact .inl ⟨_, by rw [polyLength_polyGen_of_ok hb, genpoly_length], rfl⟩
  · exact .inr ⟨rfl, rfl, fun _ => rfl⟩
  · exact .inr ⟨polyLength_polyMul_of_bad hb, rfl, fun _ => rfl⟩
  · exact .inr ⟨polyLength_polyGen_of_bad hb, rfl, fun _ => rfl⟩

/-- RLEN after a polynomial command holds the whole count: 7 bits are enough for POLY_MAX (10 R29). -/
theorem finishPoly_rlen_toNat {c : Config} {i : Instr} {T : List Byte} (s : State)
    (h : polyLength c.polyMax i = some T.length) : (finishPoly T s).rlen.toNat = T.length := by
  have hT := (polyLength_bounds h).2
  have hmax := (polyMax_bounds c).2
  rw [finishPoly_rlen, BitVec.toNat_ofNat, Nat.mod_eq_of_lt (by omega)]

/-- ERRCMD after a command word: the word itself where it raises a command error (10 R30). -/
theorem issue_errcmd {w : Word} {s t : State} (h : issue w s = .next t) :
    (erroneousWord s.cfg.polyMax w ∧ t.errcmd = w) ∨ (¬ erroneousWord s.cfg.polyMax w ∧ t.errcmd = s.errcmd) := by
  rcases issue_cases h with ⟨herr, rfl⟩ | ⟨i, hi, h⟩
  · exact .inl ⟨.inl ((decode_error w).mp herr), rfl⟩
  · rw [erroneousWord_of_decode s.cfg hi]
    have hw := encode_of_decode hi
    rcases exec_cases h with ⟨rfl, rfl⟩ | ⟨v, hv, rfl⟩ | ⟨la, lb, rfl, hb, rfl⟩ | ⟨n, rfl, hb, rfl⟩ | ⟨rfl, rfl⟩ |
      ⟨la, lb, rfl, hb, rfl⟩ | ⟨n, rfl, hb, rfl⟩
    · exact .inr ⟨by simp, rfl⟩
    · exact .inr ⟨by simp [hv], rfl⟩
    · exact .inr ⟨by simp [polyLength_polyMul_of_ok hb], rfl⟩
    · exact .inr ⟨by simp [polyLength_polyGen_of_ok hb], rfl⟩
    · exact .inl ⟨⟨by simp, rfl, rfl⟩, hw⟩
    · exact .inl ⟨⟨by simp, rfl, polyLength_polyMul_of_bad hb⟩, hw⟩
    · exact .inl ⟨⟨by simp, rfl, polyLength_polyGen_of_bad hb⟩, hw⟩

/-! ### What an event that issues no command leaves -/

/-- The registers and the buffer that only commands write are as before. -/
def SameResults (s t : State) : Prop :=
  t.result = s.result ∧ t.rlen = s.rlen ∧ t.errcmd = s.errcmd ∧ ∀ k, t.entry .pr k = s.entry .pr k

/-- An event but a reset issues a command word, or leaves what only commands write (10 R26). -/
theorem step_offer_cases {e : HostEvent} {s t : State} (he : isReset e = false) (h : step (s.offer e) = .next t) :
    (∃ w, commandOf? e = some w ∧ issue w { s with response := some .written } = .next t) ∨
      (commandOf? e = none ∧ SameResults s t) := by
  rcases perform_cases h with ⟨hr, -⟩ | ⟨addr, r, -, hc, rfl⟩ | ⟨addr, g, rfl, -, -, rfl⟩ | ⟨v, rfl, -, rfl⟩ |
    ⟨b, i, v, hb, -, -, -, hc, rfl⟩ | ⟨w, rfl, -, hi⟩
  · rw [he] at hr
    cases hr
  · exact .inr ⟨hc, rfl, rfl, rfl, fun _ => rfl⟩
  · exact .inr ⟨rfl, rfl, rfl, rfl, fun _ => rfl⟩
  · exact .inr ⟨rfl, rfl, rfl, rfl, fun _ => rfl⟩
  · cases b with
    | pa | pb => exact .inr ⟨hc, rfl, rfl, rfl, fun _ => rfl⟩
    | pr => exact absurd rfl hb
  · exact .inl ⟨w, rfl, hi⟩

/-- An event but a reset runs a command, or no word it issues decodes and RESULT, RLEN and PR are as before. -/
theorem step_offer_exec_cases {e : HostEvent} {s t : State} (he : isReset e = false) (h : step (s.offer e) = .next t) :
    (∃ w i, commandOf? e = some w ∧ decode w = .ok i ∧ exec i { s with response := some .written } = .next t) ∨
      ((∀ w i, commandOf? e = some w → decode w ≠ .ok i) ∧
        t.result = s.result ∧ t.rlen = s.rlen ∧ ∀ k, t.entry .pr k = s.entry .pr k) := by
  rcases step_offer_cases he h with ⟨w, hw, hi⟩ | ⟨hc, hresult, hrlen, -, hpr⟩
  · rcases issue_cases hi with ⟨⟨err, herr⟩, rfl⟩ | ⟨i, hdec, hx⟩
    · refine .inr ⟨fun w' i hw' hdec => ?_, rfl, rfl, fun _ => rfl⟩
      obtain rfl := Option.some.inj (hw.symm.trans hw')
      exact absurd (herr.symm.trans hdec) (by simp)
    · exact .inl ⟨w, i, hw, hdec, hx⟩
  · exact .inr ⟨fun w i hw => by simp [hc] at hw, hresult, hrlen, hpr⟩

/-- An event issues at most one command. -/
theorem issuedCommand_unique {e : HostEvent} {w w' : Word} {i j : Instr} (hw : commandOf? e = some w) (hi : decode w = .ok i)
    (hw' : commandOf? e = some w') (hj : decode w' = .ok j) : i = j := by
  obtain rfl := Option.some.inj (hw.symm.trans hw')
  exact Except.ok.inj (hi.symm.trans hj)

/-! ### The statements about single registers and PR -/

/-- Settles O24, from what each command leaves in RESULT. -/
theorem resultIsWrittenByScalarCommandsOnly : Obligations.ResultIsWrittenByScalarCommandsOnly := by
  unfold Obligations.ResultIsWrittenByScalarCommandsOnly
  intro s t e he h
  rw [← and_assoc]
  refine ⟨?_, extractLsb'_setWidth_eq_zero 24 t.result le_rfl⟩
  rcases step_offer_exec_cases he h with ⟨w, i, hw, hdec, hx⟩ | ⟨hnone, hkept, -, -⟩
  · have hresult := exec_result hx
    constructor
    · intro w' j v hw' hdec' hv
      obtain rfl := issuedCommand_unique hw hdec hw' hdec'
      simpa [hv] using hresult
    · intro hno
      simpa [Option.eq_none_iff_forall_ne_some.mpr (hno w i · hw hdec)] using hresult
  · exact ⟨fun w i v hw hdec _ => absurd hdec (hnone w i hw), fun _ => hkept⟩

/-- Settles O25: a command writes RLEN exactly where it writes coefficients. -/
theorem rlenIsWrittenByPolynomialCommandsOnly : Obligations.RlenIsWrittenByPolynomialCommandsOnly := by
  unfold Obligations.RlenIsWrittenByPolynomialCommandsOnly
  intro s t e he h
  rw [← and_assoc]
  refine ⟨?_, extractLsb'_setWidth_eq_zero 25 t.rlen le_rfl⟩
  rcases step_offer_exec_cases he h with ⟨w, i, hw, hdec, hx⟩ | ⟨hnone, -, hkept, -⟩
  · rcases exec_poly_cases hx with ⟨T, hT, rfl⟩ | ⟨hno, hkept, -⟩
    · refine ⟨fun w' j n hw' hdec' hn => ?_, fun hno => absurd hT (hno w i _ hw hdec)⟩
      obtain rfl := issuedCommand_unique hw hdec hw' hdec'
      obtain rfl := Option.some.inj (hT.symm.trans hn)
      exact ⟨finishPoly_rlen_toNat _ hT, polyLength_bounds hT⟩
    · refine ⟨fun w' j n hw' hdec' hn => ?_, fun _ => hkept⟩
      obtain rfl := issuedCommand_unique hw hdec hw' hdec'
      exact absurd (hno.symm.trans hn) (by simp)
  · exact ⟨fun w i n hw hdec _ => absurd hdec (hnone w i hw), fun _ => hkept⟩

/-- Settles O26, from what each word leaves in ERRCMD. -/
theorem errcmdHoldsTheLastErroneousWord : Obligations.ErrcmdHoldsTheLastErroneousWord := by
  unfold Obligations.ErrcmdHoldsTheLastErroneousWord
  intro s t e he h
  rcases step_offer_cases he h with ⟨w, hw, hi⟩ | ⟨hc, -, -, hkept, -⟩
  · rw [hw]
    simp only [Option.some.injEq, forall_eq']
    rcases issue_errcmd hi with ⟨herr, hset⟩ | ⟨hok, hkept⟩
    · exact ⟨fun _ => hset, fun hok => absurd herr hok⟩
    · exact ⟨fun herr => absurd herr hok, fun _ => hkept⟩
  · exact ⟨fun w hw => by simp [hc] at hw, fun _ => hkept⟩

/-- Settles O27, by the cases of one event: only a refused access raises ERR_BUS. -/
theorem erraddrHoldsTheLastRefusedAddress : Obligations.ErraddrHoldsTheLastRefusedAddress := by
  unfold Obligations.ErraddrHoldsTheLastRefusedAddress
  intro s t e he h
  rw [step_offer] at h
  rw [← and_assoc]
  refine ⟨?_, extractLsb'_setWidth_eq_zero 20 t.erraddr le_rfl⟩
  have kept : refusedAddr s.cfg.polyMax e = none → t.erraddr = s.erraddr →
      (∀ addr, refusedAddr s.cfg.polyMax e = some addr → t.erraddr = addr) ∧
        (refusedAddr s.cfg.polyMax e = none → t.erraddr = s.erraddr) :=
    fun hnone heq => ⟨fun addr ha => by simp [hnone] at ha, fun _ => heq⟩
  rcases perform_cases h with ⟨hr, -⟩ | ⟨addr, r, ha, -, rfl⟩ | ⟨addr, g, -, hn, -, rfl⟩ | ⟨v, -, hn, rfl⟩ |
    ⟨b, i, v, hb, -, -, hn, -, rfl⟩ | ⟨w, -, hn, hi⟩
  · rw [he] at hr
    cases hr
  · rw [ha]
    simp
  · exact kept hn rfl
  · exact kept hn rfl
  · cases b <;> exact kept hn rfl
  · obtain ⟨-, -, -, -, herraddr, -, -⟩ := issue_surroundings hi
    exact kept hn herraddr

/-- The address of an entry reaches it (20 R51). -/
theorem reach_entryAddr (c : Config) (b : BufferId) {i : Nat} (hi : i < c.polyMax) :
    reach c.polyMax (entryAddr b i) = some (.entry b i) := by
  have hmax := (polyMax_bounds c).2
  rw [reach_eq_entry _ hmax]
  exact ⟨hi, entryAddr_toNat b i (by omega)⟩

/-- A host write to an entry of PR is refused, whatever its byte enables (10 R35). -/
theorem busWrite_pr {addr : Addr} {s : State} {i : Nat} (be : BitVec 4) (v : Word)
    (h : reach s.cfg.polyMax addr = some (.entry .pr i)) :
    busWrite addr be v s = .next (raise (.bus addr) { s with response := some .written }) := by
  simp only [busWrite, h, writeTarget, ite_self]

/-- Settles O30: a command writes PR only as coefficients, from entry 0 on; the host's writes to PR are refused. -/
theorem resultBufferIsWrittenByPolynomialCommandsOnly : Obligations.ResultBufferIsWrittenByPolynomialCommandsOnly := by
  unfold Obligations.ResultBufferIsWrittenByPolynomialCommandsOnly
  refine ⟨fun s t e i he h hne => ?_, fun s i be v hi => ?_, fun s i hi => ?_⟩
  · rcases step_offer_exec_cases he h with ⟨w, c, hw, hdec, hx⟩ | ⟨-, -, -, hkept⟩
    · rcases exec_poly_cases hx with ⟨T, hT, rfl⟩ | ⟨-, -, hkept⟩
      · refine ⟨w, c, T.length, hw, hdec, hT, finishPoly_rlen_toNat _ hT, ?_⟩
        by_contra hlt
        rw [entry_finishPoly_pr, if_neg hlt] at hne
        exact hne rfl
      · exact absurd (hkept i) hne
    · exact absurd (hkept i) hne
  · exact ⟨_, busWrite_pr be v (reach_entryAddr s.cfg .pr hi), by simp, fun b k => by cases b <;> rfl⟩
  · exact ⟨_, congrArg _ (busRead_accepted (reach_entryAddr s.cfg .pr hi)), rfl⟩

/-! ### Two runs of one word -/

/-- The ends a command can come to (30 R85, 60 R162), as changes of the state. -/
def IsCommandEffect (f : State → State) : Prop :=
  f = complete ∨ (∃ v, f = finishScalar v) ∨ (∃ T, f = finishPoly T) ∨ ∃ e, f = raise e

theorem isCommandEffect_complete : IsCommandEffect complete := .inl rfl
theorem isCommandEffect_finishScalar (v : Byte) : IsCommandEffect (finishScalar v) := .inr (.inl ⟨v, rfl⟩)
theorem isCommandEffect_finishPoly (T : List Byte) : IsCommandEffect (finishPoly T) := .inr (.inr (.inl ⟨T, rfl⟩))
theorem isCommandEffect_raise (e : BlockError) : IsCommandEffect (raise e) := .inr (.inr (.inr ⟨e, rfl⟩))

/-- Two states with one configuration and equal operands of POLY.MUL give a command one effect (10 R37). -/
theorem exec_sameEffect {i : Instr} {s s' : State} (hcfg : s.cfg = s'.cfg)
    (hop : ∀ la lb, i = .polyMul la lb → s.entries .pa la = s'.entries .pa la ∧ s.entries .pb lb = s'.entries .pb lb) :
    ∃ f, IsCommandEffect f ∧ exec i s = .next (f s) ∧ exec i s' = .next (f s') := by
  cases i with
  | nop => exact ⟨_, isCommandEffect_complete, rfl, rfl⟩
  | gfAdd a b => exact ⟨_, isCommandEffect_finishScalar (gfadd a b), rfl, rfl⟩
  | gfMul a b => exact ⟨_, isCommandEffect_finishScalar (gfmul s.cfg a b), rfl, hcfg ▸ rfl⟩
  | gfExp e => exact ⟨_, isCommandEffect_finishScalar (gfexp s.cfg e), rfl, hcfg ▸ rfl⟩
  | gfLog a =>
    simp only [exec, execGfLog, ← hcfg]
    split
    · exact ⟨_, isCommandEffect_raise _, rfl, rfl⟩
    · exact ⟨_, isCommandEffect_finishScalar _, rfl, rfl⟩
  | polyMul la lb =>
    obtain ⟨hpa, hpb⟩ := hop la lb rfl
    simp only [exec, execPolyMul, ← hcfg, ← hpa, ← hpb]
    split
    · exact ⟨_, isCommandEffect_raise _, rfl, rfl⟩
    · exact ⟨_, isCommandEffect_finishPoly _, rfl, rfl⟩
  | polyGen n =>
    simp only [exec, execPolyGen, ← hcfg]
    split
    · exact ⟨_, isCommandEffect_raise _, rfl, rfl⟩
    · exact ⟨_, isCommandEffect_finishPoly _, rfl, rfl⟩

/-- Two states with one configuration and equal operands of POLY.MUL give a command word one effect (10 R37). -/
theorem issue_sameEffect {w : Word} {s s' : State} (hcfg : s.cfg = s'.cfg)
    (hop : ∀ la lb, decode w = .ok (.polyMul la lb) →
      s.entries .pa la = s'.entries .pa la ∧ s.entries .pb lb = s'.entries .pb lb) :
    ∃ f, IsCommandEffect f ∧ issue w s = .next (f s) ∧ issue w s' = .next (f s') := by
  unfold issue
  split
  · exact ⟨_, isCommandEffect_raise _, rfl, rfl⟩
  · rename_i i hi
    exact exec_sameEffect hcfg fun la lb h => hop la lb (h ▸ hi)

section

variable {f : State → State} (hf : IsCommandEffect f)
include hf

/-- The flags that an effect raises do not depend on the state. -/
theorem IsCommandEffect.exists_status : ∃ m, ∀ s, (f s).status = s.status ||| m := by
  rcases hf with rfl | ⟨v, rfl⟩ | ⟨T, rfl⟩ | ⟨e, rfl⟩
  case inr.inr.inr =>
    cases e with
    | bus => exact ⟨_, fun s => setFlag_errBus s.status⟩
    | illegal | len | log0 => exact ⟨_, fun s => BitVec.or_assoc s.status _ _⟩
  all_goals exact ⟨_, fun s => setFlag_done s.status⟩

/-- RESULT after one effect on two states. -/
theorem IsCommandEffect.result_agree (s s' : State) :
    (f s).result = (f s').result ∨ (f s).result = s.result ∧ (f s').result = s'.result := by
  rcases hf with rfl | ⟨v, rfl⟩ | ⟨T, rfl⟩ | ⟨e, rfl⟩
  · exact .inr ⟨rfl, rfl⟩
  · exact .inl rfl
  · exact .inr ⟨rfl, rfl⟩
  · cases e <;> exact .inr ⟨rfl, rfl⟩

/-- RLEN after one effect on two states. -/
theorem IsCommandEffect.rlen_agree (s s' : State) :
    (f s).rlen = (f s').rlen ∨ (f s).rlen = s.rlen ∧ (f s').rlen = s'.rlen := by
  rcases hf with rfl | ⟨v, rfl⟩ | ⟨T, rfl⟩ | ⟨e, rfl⟩
  · exact .inr ⟨rfl, rfl⟩
  · exact .inr ⟨rfl, rfl⟩
  · exact .inl rfl
  · cases e <;> exact .inr ⟨rfl, rfl⟩

/-- ERRCMD after one effect on two states. -/
theorem IsCommandEffect.errcmd_agree (s s' : State) :
    (f s).errcmd = (f s').errcmd ∨ (f s).errcmd = s.errcmd ∧ (f s').errcmd = s'.errcmd := by
  rcases hf with rfl | ⟨v, rfl⟩ | ⟨T, rfl⟩ | ⟨e, rfl⟩
  · exact .inr ⟨rfl, rfl⟩
  · exact .inr ⟨rfl, rfl⟩
  · exact .inr ⟨rfl, rfl⟩
  · cases e with
    | bus => exact .inr ⟨rfl, rfl⟩
    | illegal | len | log0 => exact .inl rfl

/-- An entry of PR after one effect on two states. -/
theorem IsCommandEffect.entry_pr_agree (s s' : State) (k : Nat) :
    (f s).entry .pr k = (f s').entry .pr k ∨
      (f s).entry .pr k = s.entry .pr k ∧ (f s').entry .pr k = s'.entry .pr k := by
  rcases hf with rfl | ⟨v, rfl⟩ | ⟨T, rfl⟩ | ⟨e, rfl⟩
  · exact .inr ⟨rfl, rfl⟩
  · exact .inr ⟨rfl, rfl⟩
  · simp only [entry_finishPoly_pr]
    by_cases hk : k < T.length
    · exact .inl (by simp only [if_pos hk])
    · exact .inr ⟨if_neg hk, if_neg hk⟩
  · cases e <;> exact .inr ⟨rfl, rfl⟩

end

/-- Settles O39: the two runs come to one effect, which writes the same to both states or leaves both. -/
theorem commandsDependOnTheirOperandsOnly : Obligations.CommandsDependOnTheirOperandsOnly := by
  unfold Obligations.CommandsDependOnTheirOperandsOnly
  intro s s' t t' w hcfg hop h h'
  obtain ⟨f, hf, hfs, hfs'⟩ := issue_sameEffect (s := { s with response := some .written })
    (s' := { s' with response := some .written }) hcfg hop
  obtain rfl := Host.Outcome.next.inj (hfs.symm.trans h)
  obtain rfl := Host.Outcome.next.inj (hfs'.symm.trans h')
  obtain ⟨m, hm⟩ := hf.exists_status
  exact ⟨⟨m, hm _, hm _⟩, hf.result_agree _ _, hf.rlen_agree _ _, hf.errcmd_agree _ _, hf.entry_pr_agree _ _⟩

end Sys2Proof.Machine
end

section
/-! PROOF of the statements of 20 (memory and bus): what each read and each write does, and that reads and writes repeat. -/

namespace Sys2Proof.Machine

/-! ### Which accesses are refused -/

/-- A read is refused where its address reaches nothing (20 R55). -/
theorem refusedAddr_read {c : Config} {addr a : Addr} :
    refusedAddr c.polyMax (.read addr) = some a ↔ reach c.polyMax addr = none ∧ addr = a := by
  have hmax := (polyMax_bounds c).2
  simp only [refusedAddr, Option.ite_none_left_eq_some, Option.some.injEq, reach_eq_none _ hmax, not_and_or,
    Bool.not_eq_true, ne_eq]

/-- A read is performed where its address reaches a target (20 R55). -/
theorem reach_of_refusedAddr_read {c : Config} {addr : Addr} (h : refusedAddr c.polyMax (.read addr) = none) :
    ∃ g, reach c.polyMax addr = some g := by
  refine Option.ne_none_iff_exists'.mp fun hr => ?_
  rw [refusedAddr_read.mpr ⟨hr, rfl⟩] at h
  cases h

/-- A write is refused for its address or its byte enables (20 R56). -/
theorem refusedAddr_write {n : Nat} {addr a : Addr} {be : BitVec 4} {v : Word} :
    refusedAddr n (.write addr be v) = some a ↔
      (addr.toNat % 4 ≠ 0 ∨ isWritable n addr.toNat = false ∨ be ≠ 0b1111) ∧ addr = a := by
  simp only [refusedAddr, Option.ite_none_left_eq_some, Option.some.injEq, not_and_or, Bool.not_eq_true, ne_eq]

/-! ### What a refused access does -/

/-- A refused read raises ERR_BUS and answers 0 (20 R55). -/
theorem step_read_refused {s : State} {addr : Addr} (h : reach s.cfg.polyMax addr = none) :
    step (s.offer (.read addr)) =
      .next { s with status := s.status ||| 0b10000, erraddr := addr, response := some (.data 0) } :=
  congrArg _ (busRead_refused h)

/-- Issuing a word answers a next state, always. -/
theorem issue_next (w : Word) (s : State) : ∃ t, issue w s = .next t := by
  unfold issue
  split
  · exact ⟨_, rfl⟩
  · exact exec_next _ s

/-- A write to a target answers a next state, always. -/
theorem writeTarget_next (addr : Addr) (v : Word) (s : State) (g : Target) : ∃ t, writeTarget addr v s g = .next t := by
  cases g with
  | reg r =>
    cases r with
    | cmd => exact issue_next v s
    | id | param | status | result | rlen | errcmd | erraddr => exact ⟨_, rfl⟩
  | entry b i => cases b <;> exact ⟨_, rfl⟩

/-- The bus answers every write with a next state. -/
theorem busWrite_next (addr : Addr) (be : BitVec 4) (v : Word) (s : State) : ∃ t, busWrite addr be v s = .next t := by
  simp only [busWrite]
  split
  · exact ⟨_, rfl⟩
  · split
    · exact writeTarget_next ..
    · exact ⟨_, rfl⟩

/-- A refused write raises ERR_BUS and completes: every other outcome of a write needs a full word and a writable address
(20 R56). -/
theorem step_write_refused {s : State} {addr a : Addr} {be : BitVec 4} {v : Word}
    (h : refusedAddr s.cfg.polyMax (.write addr be v) = some a) :
    step (s.offer (.write addr be v)) =
      .next { s with status := s.status ||| 0b10000, erraddr := addr, response := some .written } := by
  obtain ⟨hbad, -⟩ := refusedAddr_write.mp h
  have hw := isWritable_of_reach _ (polyMax_bounds s.cfg).2 addr
  have hno (hbe : be = 0b1111) (ha : addr = 0x008 ∨ addr = 0x00C ∨
      ∃ b i, b ≠ .pr ∧ reach s.cfg.polyMax addr = some (.entry b i)) : False := by
    obtain ⟨h4, hwr⟩ := hw.mpr ha
    simp [h4, hwr, hbe] at hbad
  obtain ⟨t, ht⟩ := busWrite_next addr be v s
  rcases busWrite_cases ht with ⟨rfl, -⟩ | ⟨hbe, ha, -⟩ | ⟨hbe, ha, -⟩ | ⟨b, i, hbe, hb, hr, -⟩
  · exact ht
  · exact (hno hbe (.inl ha)).elim
  · exact (hno hbe (.inr (.inl ha))).elim
  · exact (hno hbe (.inr (.inr ⟨b, i, hb, hr⟩))).elim

/-- Settles O18: a refused access only raises ERR_BUS and answers. -/
theorem refusedAccessesOnlyRaiseErrBus : Obligations.RefusedAccessesOnlyRaiseErrBus := by
  unfold Obligations.RefusedAccessesOnlyRaiseErrBus
  intro s e addr h
  cases e with
  | read a =>
    obtain ⟨hr, rfl⟩ := refusedAddr_read.mp h
    exact ⟨_, step_read_refused hr, rfl, rfl, fun _ => rfl, nofun, rfl, rfl, rfl, sameEntries_of rfl rfl rfl rfl,
      rfl, rfl, rfl⟩
  | write a be v =>
    obtain ⟨-, rfl⟩ := refusedAddr_write.mp h
    exact ⟨_, step_write_refused h, rfl, rfl, nofun, fun _ _ _ => rfl, rfl, rfl, rfl, sameEntries_of rfl rfl rfl rfl,
      rfl, rfl, rfl⟩
  | reset | resetDuringCommand => cases h

/-! ### What an accepted read answers -/

/-- An accepted read changes the answer on the bus and nothing else (20 R55, R59). -/
theorem step_read {s : State} {addr : Addr} {g : Target} (h : reach s.cfg.polyMax addr = some g) :
    step (s.offer (.read addr)) = .next { s with response := some (.data (readTarget s g)) } :=
  congrArg _ (busRead_accepted h)

/-- The target reached at a register's offset reads as that register. -/
theorem readTarget_of_offset {s : State} {addr : Addr} {g : Target} (r : Reg) (hg : reach s.cfg.polyMax addr = some g)
    (h : addr = r.offset) : readTarget s g = readReg s r := by
  obtain rfl := Option.some.inj (hg.symm.trans ((reach_eq_reg _ addr r).mpr h))
  rfl

/-- The target reached at an entry's address reads as that entry, zero-extended. -/
theorem readTarget_toNat_of_entry {s : State} {addr : Addr} {g : Target} (b : BufferId) {i : Nat}
    (hg : reach s.cfg.polyMax addr = some g) (hi : i < s.cfg.polyMax) (h : addr.toNat = bufferBase b + 4 * i) :
    (readTarget s g).toNat = (s.entry b i).toNat := by
  obtain rfl := Option.some.inj (hg.symm.trans ((reach_eq_entry _ (polyMax_bounds s.cfg).2 addr b i).mpr ⟨hi, h⟩))
  exact BitVec.toNat_setWidth_of_le (by decide)

/-- PARAM as a number: the sum of its fields at their places (10 R25). -/
theorem paramValue_toNat (c : Config) :
    (paramValue c).toNat = c.polyMax + 2 ^ 8 * (c.fieldPoly.toNat % 2 ^ 8) + 2 ^ 16 * c.alpha.toNat := by
  have hmax := (polyMax_bounds c).2
  have hpoly : c.fieldPoly.toNat % 2 ^ 8 < 2 ^ 8 := Nat.mod_lt _ (by decide)
  have hnat : c.polyMax % 2 ^ 8 < 2 ^ 8 := Nat.mod_lt _ (by decide)
  simp only [paramValue, BitVec.toNat_append, BitVec.extractLsb'_toNat, BitVec.toNat_ofNat, Nat.shiftRight_zero]
  rw [← Nat.shiftLeft_add_eq_or_of_lt hnat, ← Nat.shiftLeft_add_eq_or_of_lt hpoly]
  simp only [Nat.zero_mod, Nat.zero_mul, Nat.zero_or, Nat.shiftLeft_eq]
  omega

/-- Settles O19: an address reaches nothing, or one register or entry, which the read answers. -/
theorem readsReturnTheTargetsValue : Obligations.ReadsReturnTheTargetsValue := by
  unfold Obligations.ReadsReturnTheTargetsValue
  refine ⟨fun s addr h => step_read_refused ((reach_eq_none _ (polyMax_bounds s.cfg).2 addr).mpr h),
    fun s addr h4 hmap => ?_⟩
  obtain ⟨g, hg⟩ : ∃ g, reach s.cfg.polyMax addr = some g :=
    reach_of_refusedAddr_read (if_pos ⟨h4, hmap⟩)
  have hreg (r : Reg) (ha : addr = r.offset) := readTarget_of_offset r hg ha
  have hwidth {w : Nat} (x : BitVec w) (hw : w ≤ 32) : (x.setWidth 32).toNat = x.toNat := BitVec.toNat_setWidth_of_le hw
  refine ⟨readTarget s g, step_read hg, hreg .id, ?_, hreg .cmd, ?_, ?_, ?_, hreg .errcmd, ?_, fun i hi => ?_⟩
  · exact fun ha => (congrArg _ (hreg .param ha)).trans (paramValue_toNat s.cfg)
  · exact fun ha => (congrArg _ (hreg .status ha)).trans (hwidth s.status (by decide))
  · exact fun ha => (congrArg _ (hreg .result ha)).trans (hwidth s.result (by decide))
  · exact fun ha => (congrArg _ (hreg .rlen ha)).trans (hwidth s.rlen (by decide))
  · exact fun ha => (congrArg _ (hreg .erraddr ha)).trans (hwidth s.erraddr (by decide))
  · exact ⟨readTarget_toNat_of_entry .pa hg hi, readTarget_toNat_of_entry .pb hg hi,
      readTarget_toNat_of_entry .pr hg hi⟩

/-! ### What an accepted write does -/

/-- A written entry holds the byte written. -/
@[simp] theorem entry_writeEntry_same (s : State) (b : BufferId) (i : Nat) (v : Byte) :
    (s.writeEntry b i v).entry b i = v := by
  cases b <;> simp [State.entry, State.writeEntry]

/-- Writing an entry leaves every other entry of its buffer. -/
theorem entry_writeEntry_other (s : State) (b : BufferId) {i j : Nat} (v : Byte) (h : j ≠ i) :
    (s.writeEntry b i v).entry b j = s.entry b j := by
  cases b <;> simp [State.entry, State.writeEntry, lookup_insertCell_other _ _ _ _ h]

/-- A full-word write to an entry of PA or PB stores the low byte there (20 R56). -/
theorem step_write_entry (s : State) {b : BufferId} {i : Nat} (v : Word) (hb : b ≠ .pr) (hi : i < s.cfg.polyMax) :
    step (s.offer (.write (entryAddr b i) 0b1111 v)) =
      .next (State.writeEntry { s with response := some .written } b i (v.extractLsb' 0 8)) := by
  have hr := reach_entryAddr s.cfg b hi
  cases b with
  | pa | pb => simp only [step_offer, perform, busWrite, hr, writeTarget, if_true]
  | pr => exact absurd rfl hb

/-- The byte that a write stores is the word modulo 256. -/
theorem lowByte_toNat (v : Word) : (v.extractLsb' 0 8).toNat = v.toNat % 2 ^ 8 := BitVec.extractLsb'_toNat ..

/-- Settles O20, by the kinds of target: a write to each has one outcome. -/
theorem writesActOnTheirTarget : Obligations.WritesActOnTheirTarget := by
  unfold Obligations.WritesActOnTheirTarget
  refine ⟨fun s addr be v h => step_write_refused (refusedAddr_write.mpr ⟨h, rfl⟩), fun s v => perform_cmd v s,
    fun s v => ⟨_, perform_clear v s, fun k hk => ?_, rfl⟩, fun s v i hi => ⟨?_, ?_⟩⟩
  · simp [clearFlags, hk]
  · exact ⟨_, step_write_entry s v (b := .pa) nofun hi, by rw [entry_writeEntry_same, lowByte_toNat],
      fun j hj => entry_writeEntry_other _ _ _ hj, rfl⟩
  · exact ⟨_, step_write_entry s v (b := .pb) nofun hi, by rw [entry_writeEntry_same, lowByte_toNat],
      fun j hj => entry_writeEntry_other _ _ _ hj, rfl⟩

/-! ### Reading back what was written -/

/-- A read of a buffer entry answers the entry, zero-extended (20 R58). -/
theorem step_read_entry (s : State) (b : BufferId) {i : Nat} (hi : i < s.cfg.polyMax) :
    step (s.offer (.read (entryAddr b i))) = .next { s with response := some (.data ((s.entry b i).setWidth 32)) } :=
  step_read (reach_entryAddr s.cfg b hi)

/-- Writing an entry leaves the configuration. -/
@[simp] theorem writeEntry_cfg (s : State) (b : BufferId) (i : Nat) (v : Byte) : (s.writeEntry b i v).cfg = s.cfg := by
  cases b <;> rfl

/-- Writing an entry leaves the flags. -/
@[simp] theorem writeEntry_status (s : State) (b : BufferId) (i : Nat) (v : Byte) :
    (s.writeEntry b i v).status = s.status := by
  cases b <;> rfl

/-- The low byte of a word, zero-extended, is the word with its upper bits cleared. -/
theorem lowByte_setWidth (v : Word) : (v.extractLsb' 0 8).setWidth 32 = v &&& 0xFF := by
  apply BitVec.eq_of_toNat_eq
  rw [BitVec.toNat_setWidth_of_le (by decide), lowByte_toNat, BitVec.toNat_and]
  exact (Nat.and_two_pow_sub_one_eq_mod v.toNat 8).symm

/-- A value zero-extended to a word stays within its own width. -/
theorem setWidth_toNat_lt {w : Nat} (x : BitVec w) (h : w ≤ 32) : (x.setWidth 32).toNat < 2 ^ w := by
  rw [BitVec.toNat_setWidth_of_le h]
  exact x.isLt

/-- Settles O21: the read reaches the entry just written, in the configuration the write left. -/
theorem writtenEntriesReadBackZeroExtended : Obligations.WrittenEntriesReadBackZeroExtended := by
  unfold Obligations.WrittenEntriesReadBackZeroExtended
  refine ⟨fun s b i v hb hi => ?_, fun s b i hi => ?_, fun s => ?_⟩
  · refine ⟨_, _, step_write_entry s v hb hi, step_read_entry _ b (by rwa [writeEntry_cfg]), ?_, writeEntry_status ..,
      writeEntry_status ..⟩
    rw [entry_writeEntry_same, lowByte_setWidth]
  · exact ⟨_, step_read_entry s b hi, rfl, setWidth_toNat_lt _ (by decide)⟩
  · exact ⟨setWidth_toNat_lt s.result (by decide), setWidth_toNat_lt s.rlen (by decide),
      setWidth_toNat_lt s.status (by decide), setWidth_toNat_lt s.erraddr (by decide)⟩

/-! ### Repeated accesses -/

/-- What a target reads as does not depend on the last answer on the bus. -/
theorem readTarget_response (s : State) (r : Option Response) (g : Target) :
    readTarget { s with response := r } g = readTarget s g := by
  cases g <;> rfl

/-- Clearing the same flags again changes nothing. -/
theorem clearFlags_clearFlags (v : Word) (st : BitVec 5) : clearFlags v (clearFlags v st) = clearFlags v st := by
  simp only [clearFlags, BitVec.and_assoc, BitVec.and_self]

/-- Writing the same byte to the same entry again changes nothing. -/
theorem writeEntry_writeEntry (s : State) (b : BufferId) (i : Nat) (v : Byte) :
    (s.writeEntry b i v).writeEntry b i v = s.writeEntry b i v := by
  cases b <;> simp [State.writeEntry, State.setBuffer, insertCell_insertCell]

/-- Writing an entry and setting the answer on the bus commute. -/
theorem writeEntry_response (s : State) (r : Option Response) (b : BufferId) (i : Nat) (v : Byte) :
    { s.writeEntry b i v with response := r } = State.writeEntry { s with response := r } b i v := by
  cases b <;> rfl

/-- A write that issues no command, repeated at once, changes nothing (20 R59). -/
theorem step_write_twice {s t : State} {addr : Addr} {be : BitVec 4} {v : Word}
    (hc : commandOf? (.write addr be v) = none) (h : step (s.offer (.write addr be v)) = .next t) :
    step (t.offer (.write addr be v)) = .next t := by
  cases hr : refusedAddr s.cfg.polyMax (.write addr be v) with
  | some a =>
    obtain rfl := Host.Outcome.next.inj ((step_write_refused hr).symm.trans h)
    refine Eq.trans (step_write_refused hr) ?_
    simp only [BitVec.or_assoc, BitVec.or_self]
  | none =>
    rw [step_offer] at h
    rcases perform_cases h with ⟨hreset, -⟩ | ⟨a, r, ha, -, -⟩ | ⟨a, g, he, -⟩ | ⟨w, he, -, rfl⟩ |
      ⟨b, i, w, hb, hi, he, -, -, rfl⟩ | ⟨w, he, -⟩
    · cases hreset
    · cases hr.symm.trans ha
    · cases he
    · cases he
      rw [step_offer, perform_clear]
      simp only [clearFlags_clearFlags]
    · cases he
      rw [step_write_entry _ _ hb (by rwa [writeEntry_cfg]), writeEntry_response, writeEntry_writeEntry]
    · cases he
      cases hc

/-- Settles O22: a read's answer does not depend on the last one, and each effect of a write but a command is idempotent. -/
theorem readsHaveNoSideEffectAndWritesAreIdempotent : Obligations.ReadsHaveNoSideEffectAndWritesAreIdempotent := by
  unfold Obligations.ReadsHaveNoSideEffectAndWritesAreIdempotent
  refine ⟨fun s t addr hok h => ?_, fun s t addr href h => ?_, fun s t addr be v hc h => step_write_twice hc h⟩
  · obtain ⟨g, hg⟩ := reach_of_refusedAddr_read hok
    obtain rfl := Host.Outcome.next.inj ((step_read hg).symm.trans h)
    exact ⟨rfl, (step_read hg).trans (by rw [readTarget_response])⟩
  · obtain ⟨hr, -⟩ := refusedAddr_read.mp href
    obtain rfl := Host.Outcome.next.inj ((step_read_refused hr).symm.trans h)
    show flagIsSet (setFlag .errBus s.status) .errBus = true
    simp

end Sys2Proof.Machine
end

section
/-! PROOF of the statements of 30 (encoding): what an illegal word does and what a legal one leaves, and what each
pseudo-instruction writes. -/

namespace Sys2Proof.Machine

/-! ### Illegal words -/

/-- Issuing a word that the decoder refuses (30 R85). -/
theorem issue_of_decode_error {w : Word} {e : DecodeError} (s : State) (h : decode w = .error e) :
    issue w s = .next (raise (.illegal w) s) := by
  simp only [issue, h]

/-- Issuing a word that decodes runs its command (30 R85). -/
theorem issue_of_decode_ok {w : Word} {i : Instr} (s : State) (h : decode w = .ok i) : issue w s = exec i s := by
  simp only [issue, h]

/-- Raising ERR_ILLEGAL, as a whole: two flags and ERRCMD (60 R162, R163). -/
theorem raise_illegal_eq (w : Word) (s : State) :
    raise (.illegal w) s = { s with status := s.status ||| 0b00011, errcmd := w } := by
  have hstatus : setFlag .done (setFlag .errIllegal s.status) = s.status ||| 0b00011 := BitVec.or_assoc ..
  exact congrArg (fun st => { s with status := st, errcmd := w }) hstatus

/-- The decoder reads a command from every word that 60 R163 does not list (30 R85). -/
theorem exists_decode_of_not_illegalWord {w : Word} (h : ¬ illegalWord w) : ∃ i, decode w = .ok i := by
  cases hd : decode w with
  | error e => exact absurd ((decode_error w).mp ⟨e, hd⟩) h
  | ok i => exact ⟨i, rfl⟩

/-- A command that runs leaves ERR_ILLEGAL: only a word that the decoder refuses raises it (60 R163). -/
theorem exec_errIllegal {i : Instr} {s t : State} (h : exec i s = .next t) :
    flagIsSet t.status .errIllegal = flagIsSet s.status .errIllegal := by
  rcases exec_cases h with ⟨-, rfl⟩ | ⟨v, -, rfl⟩ | ⟨la, lb, -, -, rfl⟩ | ⟨n, -, -, rfl⟩ | ⟨-, rfl⟩ |
    ⟨la, lb, -, -, rfl⟩ | ⟨n, -, -, rfl⟩ <;> simp

/-- Only the word 0 is NOP (30 R83): a word that decodes is the encoding of its command. -/
theorem decode_eq_nop_iff {w : Word} : decode w = .ok .nop ↔ w = 0 := by
  constructor
  · intro h
    exact (encode_of_decode h).symm
  · rintro rfl
    rfl

/-- Settles O7: the decoder refuses exactly the illegal words, and no command that runs raises ERR_ILLEGAL. -/
theorem illegalWordsRaiseErrIllegal : Obligations.IllegalWordsRaiseErrIllegal := by
  unfold Obligations.IllegalWordsRaiseErrIllegal
  refine ⟨fun s w hw => ?_, fun s w hw => ?_, fun w => decode_eq_nop_iff⟩
  · obtain ⟨e, he⟩ := (decode_error w).mpr hw
    rw [step_offer, perform_cmd, issue_of_decode_error _ he, raise_illegal_eq]
  · obtain ⟨i, hi⟩ := exists_decode_of_not_illegalWord hw
    obtain ⟨t, ht⟩ := exec_next i { s with response := some .written }
    have hflag := exec_errIllegal ht
    exact ⟨⟨i, hi⟩, t, (issue_of_decode_ok _ hi).trans ht, hflag⟩

/-! ### Pseudo-instructions -/

/-- A command that writes an element completes with it in RESULT (40 R106 to R109). -/
theorem exec_of_scalarResult {i : Instr} {s : State} {v : Byte} (h : scalarResult s.cfg i = some v) :
    ∃ t, exec i s = .next t ∧ t.result = v := by
  obtain ⟨t, ht⟩ := exec_next i s
  exact ⟨t, ht, by rw [exec_result ht, h, Option.getD_some]⟩

/-- The antilog table begins with 1 (10 R32). -/
theorem expRom_zero (c : Config) : expRom c 0 = 1 := by
  rw [expRom, expTable, powersFrom_succ, List.getD_cons_zero]

/-- Settles O46: the assembler's entries are the expansions, and each writes the element of its one command. -/
theorem pseudoInstructionsAreTheirExpansions : Obligations.PseudoInstructionsAreTheirExpansions := by
  unfold Obligations.PseudoInstructionsAreTheirExpansions
  intro s a b
  have hmov : scalarResult s.cfg (pseudoMov a) = some a := congrArg some BitVec.xor_zero
  have hone : scalarResult s.cfg pseudoOne = some 1 := congrArg some (expRom_zero s.cfg)
  refine ⟨?_, rfl, ?_, rfl, commandOf_gfClr, rfl, commandOf_gfOne, rfl, ?_, rfl, exec_of_scalarResult rfl,
    exec_of_scalarResult hmov, exec_of_scalarResult rfl, exec_of_scalarResult hone, exec_of_scalarResult rfl⟩
  · rw [commandOf_gfSub, toField_toNat, toField_toNat]
  · rw [commandOf_gfMov, toField_toNat]
  · rw [commandOf_gfSq, toField_toNat]

end Sys2Proof.Machine
end

section
/-! PROOF layer of 40 (field operations): bit vectors as polynomials over GF(2), and bytes as their residues modulo
`FIELD_POLY`. The residues form a commutative ring in which `clmulmod` is the product, so the ring's laws are those of
`clmulmod`. -/

namespace Sys2Proof.Machine

open Polynomial

/-! ### Bit vectors as polynomials -/

/-- The polynomial over GF(2) whose coefficients are the bits of `v` (10 R32). -/
noncomputable def bitsPoly {n : Nat} (v : BitVec n) : (ZMod 2)[X] :=
  ∑ k ∈ Finset.range n, if v.getLsbD k then X ^ k else 0

/-- Coefficient `k` is bit `k`. -/
theorem bitsPoly_coeff {n : Nat} (v : BitVec n) (k : Nat) :
    (bitsPoly v).coeff k = if v.getLsbD k then 1 else 0 := by
  have hterm : ∀ j, (if v.getLsbD j then X ^ j else 0 : (ZMod 2)[X]).coeff k =
      if k = j then (if v.getLsbD k then 1 else 0) else 0 := by
    intro j
    by_cases hkj : k = j
    · subst hkj
      split <;> simp
    · split <;> simp [coeff_X_pow, hkj]
  rw [bitsPoly, finsetSum_coeff, Finset.sum_congr rfl fun j _ => hterm j, Finset.sum_ite_eq]
  by_cases hk : k < n
  · simp [hk]
  · simp [hk, BitVec.getLsbD_of_ge v k (by omega)]

/-- Bit vectors with the same bits, whatever their widths, are the same polynomial. -/
theorem bitsPoly_congr {m n : Nat} {v : BitVec m} {w : BitVec n} (h : ∀ k, v.getLsbD k = w.getLsbD k) :
    bitsPoly v = bitsPoly w := by
  ext k
  rw [bitsPoly_coeff, bitsPoly_coeff, h]

/-- Different bit vectors of one width are different polynomials. -/
theorem bitsPoly_injective {n : Nat} {v w : BitVec n} (h : bitsPoly v = bitsPoly w) : v = w := by
  apply BitVec.eq_of_getLsbD_eq
  intro k _
  have hk := congrArg (coeff · k) h
  simp only [bitsPoly_coeff] at hk
  cases hv : v.getLsbD k <;> cases hw : w.getLsbD k <;> simp [hv, hw] at hk ⊢

theorem bitsPoly_degree_lt {n : Nat} (v : BitVec n) : (bitsPoly v).degree < n := by
  rw [degree_lt_iff_coeff_zero]
  intro k hk
  rw [bitsPoly_coeff, BitVec.getLsbD_of_ge v k hk]
  rfl

@[simp] theorem bitsPoly_zero (n : Nat) : bitsPoly (0 : BitVec n) = 0 := by
  ext k
  simp [bitsPoly_coeff]

/-- XOR adds polynomials (40 R101). -/
theorem bitsPoly_xor {n : Nat} (v w : BitVec n) : bitsPoly (v ^^^ w) = bitsPoly v + bitsPoly w := by
  ext k
  rw [coeff_add, bitsPoly_coeff, bitsPoly_coeff, bitsPoly_coeff, BitVec.getLsbD_xor]
  cases v.getLsbD k <;> cases w.getLsbD k <;> decide

/-- A shift that drops no bit multiplies by a power of X. -/
theorem bitsPoly_shiftLeft {m n k : Nat} (v : BitVec n) (h : n + k ≤ m) :
    bitsPoly (v.setWidth m <<< k) = bitsPoly v * X ^ k := by
  ext j
  rw [coeff_mul_X_pow', bitsPoly_coeff, bitsPoly_coeff, BitVec.getLsbD_shiftLeft, BitVec.getLsbD_setWidth]
  by_cases hj : k ≤ j
  · by_cases hn : j < n + k
    · have h1 : j < m := by omega
      have h2 : ¬ j < k := by omega
      have h3 : j - k < m := by omega
      simp [hj, h1, h2, h3]
    · simp [hj, BitVec.getLsbD_of_ge v (j - k) (by omega)]
  · simp [hj]

/-- A XOR of terms is the sum of their polynomials. -/
theorem bitsPoly_foldl_xor {n : Nat} (g : Nat → BitVec n) (ks : List Nat) (p : BitVec n) :
    bitsPoly (ks.foldl (fun p k => p ^^^ g k) p) = bitsPoly p + (ks.map fun k => bitsPoly (g k)).sum := by
  induction ks generalizing p with
  | nil => simp
  | cons k ks ih => rw [List.foldl_cons, ih, bitsPoly_xor, List.map_cons, List.sum_cons, add_assoc]

/-- The carry-less product is the product of polynomials (10 R32). -/
theorem bitsPoly_clmul (a b : Byte) : bitsPoly (clmul a b) = bitsPoly a * bitsPoly b := by
  have hterm : ∀ k ∈ Finset.range 8, bitsPoly (if b.getLsbD k then a.setWidth 15 <<< k else 0) =
      bitsPoly a * if b.getLsbD k then X ^ k else 0 := by
    intro k hk
    have hk8 := Finset.mem_range.mp hk
    split
    · exact bitsPoly_shiftLeft a (by omega)
    · rw [bitsPoly_zero, mul_zero]
  rw [clmul_eq, bitsPoly_foldl_xor, bitsPoly_zero, zero_add, ← List.sum_toFinset _ List.nodup_range,
    List.toFinset_range, Finset.sum_congr rfl hterm, ← Finset.mul_sum]
  rfl

/-! ### Reduction modulo the reduction polynomial -/

/-- One round of the reduction: clear bit `k` with a shifted copy of the reduction polynomial (10 R32). -/
def reduceRound (f : BitVec 9) (p : BitVec 15) (k : Nat) : BitVec 15 :=
  if p.getLsbD k then p ^^^ (f.setWidth 15 <<< (k - 8)) else p

/-- The rounds for the bits `n + 7` down to 8. -/
def reduceRounds (f : BitVec 9) (n : Nat) (p : BitVec 15) : BitVec 15 :=
  ((List.range n).reverse.map (· + 8)).foldl (reduceRound f) p

theorem reduceRound_of_clear (f : BitVec 9) {p : BitVec 15} {k : Nat} (h : p.getLsbD k = false) : reduceRound f p k = p :=
  if_neg (ne_true_of_eq_false h)

theorem reduceRound_of_set (f : BitVec 9) {p : BitVec 15} {n : Nat} (h : p.getLsbD (n + 8) = true) :
    reduceRound f p (n + 8) = p ^^^ (f.setWidth 15 <<< n) := if_pos h

theorem reduceBy_eq_reduceRounds (f : BitVec 9) (p : BitVec 15) : reduceBy f p = reduceRounds f 7 p := rfl

theorem reduceRounds_succ (f : BitVec 9) (n : Nat) (p : BitVec 15) :
    reduceRounds f (n + 1) p = reduceRounds f n (reduceRound f p (n + 8)) := by
  simp [reduceRounds, List.range_succ]

/-- A round keeps the residue: it adds a multiple of the reduction polynomial. -/
theorem mk_reduceRound (f : BitVec 9) (p : BitVec 15) {n : Nat} (hn : n ≤ 6) :
    AdjoinRoot.mk (bitsPoly f) (bitsPoly (reduceRound f p (n + 8))) = AdjoinRoot.mk (bitsPoly f) (bitsPoly p) := by
  cases hbit : p.getLsbD (n + 8) with
  | false => rw [reduceRound_of_clear f hbit]
  | true =>
    rw [reduceRound_of_set f hbit, bitsPoly_xor, bitsPoly_shiftLeft f (by omega), map_add, map_mul, AdjoinRoot.mk_self,
      zero_mul, add_zero]

/-- A round clears its bit and leaves the bits above it, because bit 8 of `FIELD_POLY` is its highest and is set (00 R6). -/
theorem reduceRound_high {f : BitVec 9} (hf : f.getLsbD 8 = true) {p : BitVec 15} {n : Nat}
    (hp : ∀ j, n + 9 ≤ j → p.getLsbD j = false) (j : Nat) (hj : n + 8 ≤ j) :
    (reduceRound f p (n + 8)).getLsbD j = false := by
  by_cases hlarge : 15 ≤ j
  · exact BitVec.getLsbD_of_ge _ _ hlarge
  have hshift : (f.setWidth 15 <<< n).getLsbD j = f.getLsbD (j - n) := by
    have h1 : j < 15 := by omega
    have h2 : ¬ j < n := by omega
    simp [h1, h2]
  cases hbit : p.getLsbD (n + 8) with
  | false =>
    rw [reduceRound_of_clear f hbit]
    by_cases hjn : j = n + 8
    · rw [hjn, hbit]
    · exact hp j (by omega)
  | true =>
    rw [reduceRound_of_set f hbit, BitVec.getLsbD_xor, hshift]
    by_cases hjn : j = n + 8
    · rw [hjn, Nat.add_sub_cancel_left, hbit, hf]
      rfl
    · rw [hp j (by omega), BitVec.getLsbD_of_ge f _ (by omega)]
      rfl

/-- The rounds keep the residue. -/
theorem mk_reduceRounds (f : BitVec 9) {n : Nat} (hn : n ≤ 7) (p : BitVec 15) :
    AdjoinRoot.mk (bitsPoly f) (bitsPoly (reduceRounds f n p)) = AdjoinRoot.mk (bitsPoly f) (bitsPoly p) := by
  induction n generalizing p with
  | zero => rfl
  | succ n ih => rw [reduceRounds_succ, ih (by omega), mk_reduceRound f p (by omega)]

/-- The rounds clear all bits from 8 on. -/
theorem reduceRounds_high {f : BitVec 9} (hf : f.getLsbD 8 = true) {n : Nat} {p : BitVec 15}
    (hp : ∀ j, n + 8 ≤ j → p.getLsbD j = false) (j : Nat) (hj : 8 ≤ j) : (reduceRounds f n p).getLsbD j = false := by
  induction n generalizing p with
  | zero => exact hp j (by omega)
  | succ n ih =>
    rw [reduceRounds_succ]
    exact ih (reduceRound_high hf fun j hj => hp j (by omega))

/-- The reduced value is a byte: cutting it to 8 bits loses nothing. -/
theorem bitsPoly_clmulmod {f : BitVec 9} (hf : f.getLsbD 8 = true) (a b : Byte) :
    bitsPoly (clmulmod f a b) = bitsPoly (reduceBy f (clmul a b)) := by
  apply bitsPoly_congr
  intro k
  rw [clmulmod, BitVec.getLsbD_setWidth]
  by_cases hk : k < 8
  · simp [hk]
  · have hhigh := reduceRounds_high (n := 7) hf (fun j hj => BitVec.getLsbD_of_ge (clmul a b) j hj) k (by omega)
    rw [reduceBy_eq_reduceRounds, hhigh, Bool.and_false]

/-! ### Residues -/

/-- A byte as a residue modulo the reduction polynomial (10 R32). -/
noncomputable def residue (f : BitVec 9) (a : Byte) : AdjoinRoot (bitsPoly f) := AdjoinRoot.mk _ (bitsPoly a)

theorem residue_eq_mk (f : BitVec 9) (a : Byte) : residue f a = AdjoinRoot.mk _ (bitsPoly a) := rfl

@[simp] theorem residue_zero (f : BitVec 9) : residue f 0 = 0 := by
  rw [residue_eq_mk, bitsPoly_zero, map_zero]

@[simp] theorem residue_one (f : BitVec 9) : residue f 1 = 1 := by
  have hone : bitsPoly (1 : Byte) = 1 := by
    ext k
    simp [bitsPoly_coeff, coeff_one]
  rw [residue_eq_mk, hone, map_one]

@[simp] theorem residue_xor (f : BitVec 9) (a b : Byte) : residue f (a ^^^ b) = residue f a + residue f b := by
  simp only [residue_eq_mk, bitsPoly_xor, map_add]

/-- `clmulmod` is the product of residues (10 R32). -/
theorem residue_clmulmod {f : BitVec 9} (hf : f.getLsbD 8 = true) (a b : Byte) :
    residue f (clmulmod f a b) = residue f a * residue f b := by
  simp only [residue_eq_mk, bitsPoly_clmulmod hf, reduceBy_eq_reduceRounds, mk_reduceRounds f le_rfl, bitsPoly_clmul,
    map_mul]

/-- Different bytes have different residues: their polynomials have a lower degree than `FIELD_POLY`. -/
theorem residue_injective {f : BitVec 9} (hf : f.getLsbD 8 = true) {a b : Byte} (h : residue f a = residue f b) :
    a = b := by
  have hdvd : bitsPoly f ∣ bitsPoly a - bitsPoly b := AdjoinRoot.mk_eq_mk.mp h
  have hle : (8 : WithBot ℕ) ≤ (bitsPoly f).degree := le_degree_of_ne_zero (by rw [bitsPoly_coeff, hf]; decide)
  have hlt : (bitsPoly a - bitsPoly b).degree < 8 :=
    (degree_sub_le _ _).trans_lt (max_lt (bitsPoly_degree_lt a) (bitsPoly_degree_lt b))
  exact bitsPoly_injective (sub_eq_zero.mp (eq_zero_of_dvd_of_degree_lt hdvd (hlt.trans_le hle)))

end Sys2Proof.Machine
end

section
/-! PROOF of the statements of 40 (field operations) about the functions: the tables, `gfexp`, `gflog` and `gfmul`. -/

namespace Sys2Proof.Machine

/-! ### The two tables are inverse to each other -/

theorem gfexp_eq (c : Config) (e : Nat) : gfexp c e = expRom c (e % 255) := rfl

theorem gflog_eq (c : Config) (a : Byte) : gflog c a = logRom c a := rfl

/-- An entry of the antilog table is read within its bounds. -/
theorem expRom_eq_getElem (c : Config) {i : Nat} (hi : i < (expTable c.fieldPoly c.alpha).length) :
    expRom c i = (expTable c.fieldPoly c.alpha)[i] := List.getD_eq_getElem _ _ hi

theorem expTable_getElem? (c : Config) {i : Nat} (hi : i < 255) :
    (expTable c.fieldPoly c.alpha)[i]? = some (expRom c i) := by
  have hlen : i < (expTable c.fieldPoly c.alpha).length := by rwa [expTable_length]
  rw [expRom_eq_getElem c hlen, List.getElem?_eq_getElem hlen]

/-- An entry of the antilog table is not 0 (10 R32). -/
theorem expRom_ne_zero (c : Config) {i : Nat} (hi : i < 255) : expRom c i ≠ 0 :=
  (mem_expTable c _).mp (List.mem_of_getElem? (expTable_getElem? c hi))

/-- `LOG[EXP[i]] = i` (10 R32). -/
theorem logRom_expRom (c : Config) {i : Nat} (hi : i < 255) : logRom c (expRom c i) = i := by
  have hlen : i < (expTable c.fieldPoly c.alpha).length := by rwa [expTable_length]
  rw [expRom_eq_getElem c hlen]
  exact (expTable_nodup c).idxOf_getElem i hlen

/-- The logarithm of a nonzero element is an index of the table (40 R102). -/
theorem logRom_lt (c : Config) {a : Byte} (ha : a ≠ 0) : logRom c a < 255 := by
  rw [← expTable_length c.fieldPoly c.alpha]
  exact List.idxOf_lt_length_of_mem ((mem_expTable c a).mpr ha)

/-- `EXP[LOG[a]] = a` for a nonzero element (10 R32). -/
theorem expRom_logRom (c : Config) {a : Byte} (ha : a ≠ 0) : expRom c (logRom c a) = a := by
  have hget : (expTable c.fieldPoly c.alpha)[logRom c a]? = some a := List.getElem?_idxOf ((mem_expTable c a).mpr ha)
  rw [expTable_getElem? c (logRom_lt c ha)] at hget
  exact Option.some.inj hget

/-- Settles O33: the table has 255 entries, all different, and they are the nonzero bytes. -/
theorem gfexpAndGflogAreInverse : Obligations.GfexpAndGflogAreInverse := by
  unfold Obligations.GfexpAndGflogAreInverse
  intro c
  have hmod (e : Nat) : e % 255 < 255 := Nat.mod_lt e (by decide)
  have hexplog (a : Byte) (ha : a ≠ 0) : gfexp c (gflog c a) = a := by
    rw [gfexp_eq, gflog_eq, Nat.mod_eq_of_lt (logRom_lt c ha), expRom_logRom c ha]
  refine ⟨fun e => expTable_getElem? c (hmod e), fun a ha => ⟨Nat.le_pred_of_lt (logRom_lt c ha), ?_⟩,
    fun h0 => (mem_expTable c 0).mp h0 rfl, expRom_zero c, fun e => logRom_expRom c (hmod e), hexplog⟩
  exact (expTable_getElem? c (logRom_lt c ha)).trans (congrArg some (expRom_logRom c ha))

/-! ### The table is the powers of α -/

/-- Bit 8 of an accepted reduction polynomial is set (00 R6). -/
theorem fieldPoly_bit8 (c : Config) : c.fieldPoly.getLsbD 8 = true := ((acceptsConfig_iff ..).mp c.accepted).1

/-- α is not 0 (00 R7). -/
theorem alpha_ne_zero (c : Config) : c.alpha ≠ 0 := ((acceptsConfig_iff ..).mp c.accepted).2.1

/-- Elements with the same residue are the same. -/
theorem eq_of_residue (c : Config) {a b : Byte} (h : residue c.fieldPoly a = residue c.fieldPoly b) : a = b :=
  residue_injective (fieldPoly_bit8 c) h

/-- Each entry of the antilog table is the one before it times α (10 R32). -/
theorem expRom_succ (c : Config) {i : Nat} (hi : i + 1 < 255) :
    expRom c (i + 1) = clmulmod c.fieldPoly (expRom c i) c.alpha :=
  powersFrom_getD_succ c.fieldPoly c.alpha 255 i 1 hi

/-- `EXP[i]` is α to the power `i` (10 R32). -/
theorem residue_expRom (c : Config) {i : Nat} (hi : i < 255) :
    residue c.fieldPoly (expRom c i) = residue c.fieldPoly c.alpha ^ i := by
  induction i with
  | zero => rw [expRom_zero, residue_one, pow_zero]
  | succ i ih => rw [expRom_succ c hi, residue_clmulmod (fieldPoly_bit8 c), ih (by omega), pow_succ]

/-- A nonzero element is α to the power of its logarithm. -/
theorem residue_eq_pow_logRom (c : Config) {a : Byte} (ha : a ≠ 0) :
    residue c.fieldPoly a = residue c.fieldPoly c.alpha ^ logRom c a := by
  rw [← residue_expRom c (logRom_lt c ha), expRom_logRom c ha]

/-- The first 255 powers of α are different. -/
theorem alpha_pow_injOn (c : Config) {i j : Nat} (hi : i < 255) (hj : j < 255)
    (h : residue c.fieldPoly c.alpha ^ i = residue c.fieldPoly c.alpha ^ j) : i = j := by
  rw [← residue_expRom c hi, ← residue_expRom c hj] at h
  rw [← logRom_expRom c hi, eq_of_residue c h, logRom_expRom c hj]

/-- α has an inverse: `1 + α` is a nonzero element, so it is `α ^ j`, and `j` is not 0, so α divides 1. -/
theorem isUnit_alpha (c : Config) : IsUnit (residue c.fieldPoly c.alpha) := by
  have hne : (1 : Byte) ^^^ c.alpha ≠ 0 := by
    intro h
    have hone : c.alpha = 1 := (BitVec.xor_eq_zero_iff.mp h).symm
    have hpows : residue c.fieldPoly c.alpha ^ 0 = residue c.fieldPoly c.alpha ^ 1 := by
      rw [hone, residue_one, pow_zero, pow_one]
    exact absurd (alpha_pow_injOn c (by decide) (by decide) hpows) (by decide)
  have hpow := residue_eq_pow_logRom c hne
  rw [residue_xor, residue_one] at hpow
  cases hj : logRom c (1 ^^^ c.alpha) with
  | zero =>
    rw [hj, pow_zero, add_eq_left, ← residue_zero] at hpow
    exact absurd (eq_of_residue c hpow) (alpha_ne_zero c)
  | succ j =>
    rw [hj, pow_succ] at hpow
    exact .of_mul_eq_one (residue c.fieldPoly c.alpha ^ j - 1) (by linear_combination -hpow)

/-- The powers of α repeat after 255 (40 R102): `α ^ 255` is one of the 255 powers, and only the first one does not repeat
an earlier power. -/
theorem alpha_pow_255 (c : Config) : residue c.fieldPoly c.alpha ^ 255 = 1 := by
  have hunit := isUnit_alpha c
  have hbyte : residue c.fieldPoly (clmulmod c.fieldPoly (expRom c 254) c.alpha) = residue c.fieldPoly c.alpha ^ 255 := by
    rw [residue_clmulmod (fieldPoly_bit8 c), residue_expRom c (by decide), ← pow_succ]
  have hne : clmulmod c.fieldPoly (expRom c 254) c.alpha ≠ 0 := by
    intro h0
    rw [h0, residue_zero] at hbyte
    have hunit0 : IsUnit (0 : AdjoinRoot (bitsPoly c.fieldPoly)) := hbyte ▸ hunit.pow 255
    have hone : residue c.fieldPoly 0 = residue c.fieldPoly 1 := by
      rw [residue_zero, residue_one, isUnit_zero_iff.mp hunit0]
    exact absurd (eq_of_residue c hone) (by decide)
  rw [residue_eq_pow_logRom c hne] at hbyte
  have hlt := logRom_lt c hne
  cases hj : logRom c (clmulmod c.fieldPoly (expRom c 254) c.alpha) with
  | zero => rw [← hbyte, hj, pow_zero]
  | succ j =>
    rw [hj] at hbyte hlt
    have hcancel := hunit.mul_right_cancel ((pow_succ ..).symm.trans (hbyte.trans (pow_succ ..)))
    have hlast := alpha_pow_injOn c (by omega) (by decide) hcancel
    omega

/-- `gfexp e` is α to the power `e`, for every natural `e` (40 R102). -/
theorem residue_gfexp (c : Config) (e : Nat) : residue c.fieldPoly (gfexp c e) = residue c.fieldPoly c.alpha ^ e := by
  rw [gfexp_eq, residue_expRom c (Nat.mod_lt e (by decide))]
  exact (pow_eq_pow_mod e (alpha_pow_255 c)).symm

/-! ### The product through the tables -/

@[simp] theorem gfmul_zero_left (c : Config) (b : Byte) : gfmul c 0 b = 0 := if_pos (.inl rfl)

@[simp] theorem gfmul_zero_right (c : Config) (a : Byte) : gfmul c a 0 = 0 := if_pos (.inr rfl)

/-- Factors that are not 0 (40 R103). -/
theorem gfmul_of_ne_zero (c : Config) {a b : Byte} (ha : a ≠ 0) (hb : b ≠ 0) :
    gfmul c a b = gfexp c (logRom c a + logRom c b) := if_neg (not_or.mpr ⟨ha, hb⟩)

/-- There are no zero divisors (40 R104). -/
theorem gfmul_eq_zero {c : Config} {a b : Byte} : gfmul c a b = 0 ↔ a = 0 ∨ b = 0 := by
  by_cases h : a = 0 ∨ b = 0
  · exact iff_of_true (if_pos h) h
  · obtain ⟨ha, hb⟩ := not_or.mp h
    rw [gfmul_of_ne_zero c ha hb]
    exact iff_of_false (expRom_ne_zero c (Nat.mod_lt _ (by decide))) h

/-- The product through the tables is the product of residues (40 R104). -/
@[simp] theorem residue_gfmul (c : Config) (a b : Byte) :
    residue c.fieldPoly (gfmul c a b) = residue c.fieldPoly a * residue c.fieldPoly b := by
  by_cases ha : a = 0
  · rw [ha, gfmul_zero_left, residue_zero, zero_mul]
  by_cases hb : b = 0
  · rw [hb, gfmul_zero_right, residue_zero, mul_zero]
  rw [gfmul_of_ne_zero c ha hb, residue_gfexp, pow_add, ← residue_eq_pow_logRom c ha, ← residue_eq_pow_logRom c hb]

theorem gfmul_comm (c : Config) (a b : Byte) : gfmul c a b = gfmul c b a :=
  eq_of_residue c (by simp only [residue_gfmul, mul_comm])

theorem gfmul_assoc (c : Config) (a b d : Byte) : gfmul c (gfmul c a b) d = gfmul c a (gfmul c b d) :=
  eq_of_residue c (by simp only [residue_gfmul, mul_assoc])

theorem gfmul_xor (c : Config) (a b d : Byte) : gfmul c a (b ^^^ d) = gfmul c a b ^^^ gfmul c a d :=
  eq_of_residue c (by simp only [residue_gfmul, residue_xor, mul_add])

@[simp] theorem gfmul_one (c : Config) (a : Byte) : gfmul c a 1 = a :=
  eq_of_residue c (by rw [residue_gfmul, residue_one, mul_one])

@[simp] theorem one_gfmul (c : Config) (a : Byte) : gfmul c 1 a = a := (gfmul_comm c 1 a).trans (gfmul_one c a)

/-- Every nonzero element has an inverse (40 R104). -/
theorem gfmul_inverse (c : Config) {a : Byte} (ha : a ≠ 0) : gfmul c a (gfexp c (255 - gflog c a)) = 1 := by
  apply eq_of_residue c
  have hsum : logRom c a + (255 - logRom c a) = 255 := Nat.add_sub_cancel' (logRom_lt c ha).le
  rw [residue_gfmul, residue_gfexp, residue_eq_pow_logRom c ha, gflog_eq, ← pow_add, hsum, alpha_pow_255, residue_one]

/-- The product through the tables is the product modulo `FIELD_POLY` (40 R104). -/
theorem gfmul_eq_clmulmod (c : Config) (a b : Byte) : gfmul c a b = clmulmod c.fieldPoly a b :=
  eq_of_residue c (by rw [residue_gfmul, residue_clmulmod (fieldPoly_bit8 c)])

/-- The rounds for bits that are not set do nothing. -/
theorem reduceRounds_of_low (f : BitVec 9) (n : Nat) {p : BitVec 15} (hp : ∀ j, 9 ≤ j → p.getLsbD j = false) :
    reduceRounds f (n + 1) p = reduceRound f p 8 := by
  induction n with
  | zero => rfl
  | succ n ih =>
    rw [reduceRounds_succ, reduceRound_of_clear f (hp _ (by omega)), ih]

/-- Multiplying by 2 shifts, and adds `FIELD_POLY` where bit 7 falls out (10 R32, 40 R104). -/
theorem clmulmod_two (f : BitVec 9) (a : Byte) :
    clmulmod f a 2 = (a <<< 1) ^^^ (if a.getLsbD 7 then f.extractLsb' 0 8 else 0) := by
  have hproduct : clmul a 2 = a.setWidth 15 <<< 1 := by simp [clmul]
  have hhigh (k : Nat) (hk : 9 ≤ k) : (a.setWidth 15 <<< 1).getLsbD k = false := by
    simp [BitVec.getLsbD_of_ge a (k - 1) (by omega)]
  have hshift : (a.setWidth 15 <<< 1).setWidth 8 = a <<< 1 := by
    ext i hi
    simp
  have hlow : (f.setWidth 15).setWidth 8 = f.extractLsb' 0 8 := by
    ext i hi
    simp
  have hbit : (a.setWidth 15 <<< 1).getLsbD 8 = a.getLsbD 7 := by simp
  rw [clmulmod, hproduct, reduceBy_eq_reduceRounds, reduceRounds_of_low f 6 hhigh]
  cases h : a.getLsbD 7 with
  | false =>
    rw [reduceRound_of_clear f (hbit.trans h), hshift]
    exact BitVec.xor_zero.symm
  | true =>
    rw [reduceRound_of_set (n := 0) f (hbit.trans h), BitVec.shiftLeft_zero, BitVec.setWidth_xor, hshift, hlow]
    rfl

/-- Settles O34: the residues are a commutative ring in which the table product and `clmulmod` are both the product, and the
nonzero residues are the powers of α. -/
theorem fieldLawsHoldInEveryConfiguration : Obligations.FieldLawsHoldInEveryConfiguration := by
  unfold Obligations.FieldLawsHoldInEveryConfiguration
  refine ⟨fun c a b d => ⟨BitVec.xor_comm a b, BitVec.xor_assoc a b d, gfmul_comm c a b, gfmul_assoc c a b d, gfmul_xor c a b d,
    gfmul_one c a, gfmul_zero_right c a, BitVec.xor_zero, gfmul_eq_zero, gfmul_inverse c, gfmul_eq_clmulmod c a b, ?_⟩,
    fun a => ?_⟩
  · rw [gfmul_comm, gfmul_eq_clmulmod]
  · rw [gfmul_comm, gfmul_eq_clmulmod]
    exact clmulmod_two Config.default.fieldPoly a

end Sys2Proof.Machine
end

section
/-! PROOF of the statements of 40 (field operations) about the commands: NOP, GF.ADD, GF.MUL, GF.LOG and GF.EXP. -/

namespace Sys2Proof.Machine

/-! ### Words -/

/-- A packed word as a disjunction of its shifted fields (30 R86). -/
theorem packFields_eq_or (op : BitVec 4) (fa fb : Byte) :
    packFields op fa fb = op.setWidth 32 <<< 28 ||| fa.setWidth 32 <<< 8 ||| fb.setWidth 32 := by
  have h := BitVec.setWidth_append_append_append_eq_shiftLeft_setWidth_or (w'''' := 32) (b := op) (b' := 0#12) (b'' := fa)
    (b''' := fb)
  rw [BitVec.setWidth_zero, BitVec.zero_shiftLeft, BitVec.or_zero] at h
  exact (BitVec.setWidth_eq _).symm.trans h

/-- A packed word without a second operand. -/
theorem packFields_zero_eq_or (op : BitVec 4) (fa : Byte) :
    packFields op fa 0 = op.setWidth 32 <<< 28 ||| fa.setWidth 32 <<< 8 :=
  (packFields_eq_or op fa 0).trans BitVec.or_zero

/-- A word whose opcode uses FA and FB is refused only for RSV (30 R84). -/
theorem illegalWord_iff_of_binary {w : Word}
    (h : w.extractLsb' 28 4 = 1 ∨ w.extractLsb' 28 4 = 2 ∨ w.extractLsb' 28 4 = 5) :
    illegalWord w ↔ w.extractLsb' 16 12 ≠ 0 := by
  unfold illegalWord
  rcases h with h | h | h <;> simp [h]

/-- A word whose opcode uses FA alone is refused only for RSV or FB (30 R84). -/
theorem illegalWord_iff_of_unary {w : Word}
    (h : w.extractLsb' 28 4 = 3 ∨ w.extractLsb' 28 4 = 4 ∨ w.extractLsb' 28 4 = 6) :
    illegalWord w ↔ w.extractLsb' 16 12 ≠ 0 ∨ w.extractLsb' 0 8 ≠ 0 := by
  unfold illegalWord
  rcases h with h | h | h <;> simp [h]

/-- A legal word whose opcode uses FA alone has RSV = 0 and FB = 0 (30 R84). -/
theorem fields_of_legal_unary {w : Word} (h : w.extractLsb' 28 4 = 3 ∨ w.extractLsb' 28 4 = 4 ∨ w.extractLsb' 28 4 = 6)
    (hw : ¬ illegalWord w) : rsvField w = 0 ∧ fbField w = 0 := by
  rw [illegalWord_iff_of_unary h, not_or, not_not, not_not] at hw
  exact hw

/-- With OP = 0 every word but 0 is illegal (30 R84, 40 R105). -/
theorem illegalWord_of_opcode_zero {w : Word} (h : w.extractLsb' 28 4 = 0) (hw : w ≠ 0) : illegalWord w := by
  by_contra hlegal
  obtain ⟨i, hi⟩ := exists_decode_of_not_illegalWord hlegal
  have hop : opField w = 0 := congrArg BitVec.toNat h
  obtain ⟨-, hcmd⟩ := decode_ok.mp hi
  rcases hcmd with ⟨-, -, -, rfl⟩ | hcmd
  · exact hw (decode_eq_nop_iff.mp hi)
  · simp [hop] at hcmd

/-! ### What a scalar command does -/

/-- A command that writes an element completes with it (40 R106 to R109). -/
theorem exec_eq_finishScalar {i : Instr} {s : State} {v : Byte} (h : scalarResult s.cfg i = some v) :
    exec i s = .next (finishScalar v s) := by
  cases i with
  | gfAdd | gfMul | gfExp =>
    obtain rfl := Option.some.inj h
    rfl
  | gfLog a =>
    obtain ⟨ha, hv⟩ := Option.ite_none_left_eq_some.mp h
    obtain rfl := Option.some.inj hv
    exact if_neg ha
  | nop | polyMul | polyGen => cases h

/-- Completing with an element leaves all but STATUS and RESULT (40 R110). -/
theorem finishScalar_frame (v : Byte) (s : State) : ScalarFrame s (finishScalar v s) :=
  ⟨rfl, rfl, rfl, fun _ _ => rfl, ⟨rfl, rfl, rfl, rfl⟩⟩

/-- A command that writes an element: RESULT as the host reads it, the flags, and what is left (40 R106 to R110). -/
theorem exec_scalar {i : Instr} {s : State} {v : Byte} (h : scalarResult s.cfg i = some v) :
    ∃ t, exec i s = .next t ∧ readReg t .result = v.setWidth 32 ∧ t.status = s.status ||| 0b00001 ∧ ScalarFrame s t :=
  ⟨_, exec_eq_finishScalar h, rfl, setFlag_done s.status, finishScalar_frame v s⟩

/-- RESULT after a command that writes an element. -/
theorem result_of_exec {i : Instr} {s t : State} {v : Byte} (h : exec i s = .next t) (hv : scalarResult s.cfg i = some v) :
    t.result = v := by
  rw [exec_result h, hv, Option.getD_some]

/-- GF.LOG of a nonzero element writes its logarithm (40 R108). -/
theorem scalarResult_gfLog (c : Config) {a : Byte} (ha : a ≠ 0) :
    scalarResult c (.gfLog a) = some (BitVec.ofNat 8 (logRom c a)) := if_neg ha

/-! ### NOP and GF.ADD -/

/-- Settles O8: NOP only completes, and of the words with OP = 0 only 0 is legal. -/
theorem nopOnlySetsDone : Obligations.NopOnlySetsDone := by
  unfold Obligations.NopOnlySetsDone
  refine ⟨rfl, fun s => ⟨complete s, rfl, setFlag_done s.status, rfl, rfl, rfl, rfl, fun _ _ => rfl, rfl, rfl, rfl, rfl⟩,
    fun s w hop hw => ?_⟩
  obtain ⟨e, he⟩ := (decode_error w).mpr (illegalWord_of_opcode_zero hop hw)
  exact ⟨_, issue_of_decode_error _ he, by simp, rfl, rfl, rfl, fun _ _ => rfl⟩

/-- Settles O9: GF.ADD completes with the XOR of its operands. -/
theorem gfAddWritesTheXor : Obligations.GfAddWritesTheXor := by
  unfold Obligations.GfAddWritesTheXor
  refine ⟨packFields_eq_or 1, fun s a b => exec_scalar rfl,
    fun w hop => ⟨illegalWord_iff_of_binary (.inl hop), fun hrsv => ?_⟩,
    fun s t a => ⟨fun h => ?_, fun h => ?_⟩, fun s => ⟨rfl, _, exec_eq_finishScalar rfl, rfl⟩⟩
  · exact decode_ok.mpr ⟨hrsv, .inr (.inl ⟨congrArg BitVec.toNat hop, rfl⟩)⟩
  · exact (result_of_exec h rfl).trans BitVec.xor_self
  · exact (result_of_exec h rfl).trans BitVec.xor_zero

/-! ### GF.MUL -/

/-- Settles O10: GF.MUL completes with the product through the tables. -/
theorem gfMulWritesTheFieldProduct : Obligations.GfMulWritesTheFieldProduct := by
  unfold Obligations.GfMulWritesTheFieldProduct
  refine ⟨packFields_eq_or 2, fun s a b => exec_scalar rfl,
    fun w hop => ⟨illegalWord_iff_of_binary (.inr (.inl hop)), fun hrsv => ?_⟩,
    fun s t a b h => ⟨fun hzero => ?_, fun hone => ?_, fun ha hb => ?_⟩,
    fun s t hs => ⟨fun h => ?_, fun h => ?_, fun h => ?_⟩, rfl⟩
  · exact decode_ok.mpr ⟨hrsv, .inr (.inr (.inl ⟨congrArg BitVec.toNat hop, rfl⟩))⟩
  · exact (result_of_exec h rfl).trans (gfmul_eq_zero.mpr hzero)
  · rw [result_of_exec h rfl, hone, one_gfmul]
  · rw [result_of_exec h rfl, hb, gfmul_inverse s.cfg ha]
  all_goals
    rw [result_of_exec h rfl, hs, gfmul_eq_clmulmod]
    decide

/-! ### GF.LOG and GF.EXP -/

/-- A logarithm fits a byte. -/
theorem logRom_toNat (c : Config) {a : Byte} (ha : a ≠ 0) : (BitVec.ofNat 8 (logRom c a)).toNat = logRom c a := by
  rw [BitVec.toNat_ofNat, Nat.mod_eq_of_lt ((logRom_lt c ha).trans (by decide))]

/-- A logarithm, from the entry of the antilog table at which the element stands. -/
theorem logRom_eq_of_expRom (c : Config) {a : Byte} {i : Nat} (hi : i < 255) (h : expRom c i = a) : logRom c a = i :=
  h ▸ logRom_expRom c hi

/-- The logarithm of 1 is 0 (40 R108). -/
theorem logRom_one (c : Config) : logRom c 1 = 0 := logRom_eq_of_expRom c (by decide) (expRom_zero c)

/-- The entry of the antilog table after 1 is α (10 R32). -/
theorem expRom_one (c : Config) : expRom c 1 = c.alpha :=
  eq_of_residue c (by rw [residue_expRom c (by decide), pow_one])

/-- The logarithm of α is 1 (40 R108). -/
theorem logRom_alpha (c : Config) : logRom c c.alpha = 1 := logRom_eq_of_expRom c (by decide) (expRom_one c)

/-- The element that α turns into 1 has the largest logarithm (40 R108). -/
theorem logRom_of_gfmul_alpha {c : Config} {a : Byte} (h : gfmul c a c.alpha = 1) : logRom c a = 254 := by
  have hinverse : gfmul c c.alpha (gfexp c (255 - 1)) = 1 := logRom_alpha c ▸ gfmul_inverse c (alpha_ne_zero c)
  apply logRom_eq_of_expRom c (by decide)
  calc expRom c 254 = gfmul c (gfmul c a c.alpha) (gfexp c (255 - 1)) := by rw [h, one_gfmul]; rfl
    _ = a := by rw [gfmul_assoc, hinverse, gfmul_one]

/-- Settles O11: GF.LOG completes with the index of a nonzero element, and raises ERR_LOG0 for 0. -/
theorem gfLogWritesTheLogarithm : Obligations.GfLogWritesTheLogarithm := by
  unfold Obligations.GfLogWritesTheLogarithm
  have hresult {s t : State} {a : Byte} (ha : a ≠ 0) (h : exec (.gfLog a) s = .next t) :
      t.result = BitVec.ofNat 8 (logRom s.cfg a) := result_of_exec h (scalarResult_gfLog s.cfg ha)
  refine ⟨packFields_zero_eq_or 3, fun s a ha => ?_, fun s => ?_,
    fun w hop => ⟨illegalWord_iff_of_unary (.inl hop), fun hw => ?_⟩,
    fun s t => ⟨fun h => ?_, fun h => ?_, fun a ha h h255 => ?_⟩, fun s t hs => ⟨fun h => ?_, fun h => ?_⟩, rfl⟩
  · obtain ⟨t, ht, hres, hstatus, hframe⟩ := exec_scalar (scalarResult_gfLog s.cfg ha)
    have hlt := logRom_lt s.cfg ha
    have hbyte := BitVec.setWidth_ofNat_of_le_of_lt (v := 32) (w := 8) (by decide) (hlt.trans (by decide))
    exact ⟨t, ht, hres.trans hbyte, Nat.le_pred_of_lt hlt, hstatus, hframe⟩
  · exact ⟨raise (.log0 0x30000000) s, rfl, BitVec.or_assoc .., rfl, rfl, rfl, rfl, fun _ _ => rfl, rfl, rfl, rfl, rfl⟩
  · obtain ⟨hrsv, hfb⟩ := fields_of_legal_unary (.inl hop) hw
    exact decode_ok.mpr ⟨hrsv, .inr (.inr (.inr (.inl ⟨congrArg BitVec.toNat hop, hfb, rfl⟩)))⟩
  · rw [hresult (by decide) h, logRom_one]
    rfl
  · rw [hresult (alpha_ne_zero s.cfg) h, logRom_alpha]
    rfl
  · have hlt := logRom_lt s.cfg ha
    rw [hresult ha h] at h255
    rw [← logRom_toNat s.cfg ha, h255] at hlt
    exact absurd hlt (by decide)
  · have hinverse : gfmul Config.default 0x8E Config.default.alpha = 1 := by
      rw [gfmul_eq_clmulmod]
      decide
    rw [hresult (by decide) h, hs, logRom_of_gfmul_alpha hinverse]
    rfl
  · rw [hresult (by decide) h, hs, logRom_eq_of_expRom (i := 0xCE) Config.default (by decide) (by decide)]
    rfl

/-- Settles O12: GF.EXP completes with the entry of the antilog table at its exponent modulo 255. -/
theorem gfExpWritesThePowerOfAlpha : Obligations.GfExpWritesThePowerOfAlpha := by
  unfold Obligations.GfExpWritesThePowerOfAlpha
  refine ⟨fun e he => ?_, fun s e _ => exec_scalar rfl,
    fun w hop => ⟨illegalWord_iff_of_unary (.inr (.inl hop)), fun hw => ?_⟩,
    fun s t => ⟨fun h => ?_, fun h => ?_, fun e _ h => ?_⟩, fun s t hs h => ?_, rfl⟩
  · have hfield : (toField e).setWidth 32 = BitVec.ofNat 32 e := BitVec.setWidth_ofNat_of_le_of_lt (by decide) he
    rw [← hfield]
    exact packFields_zero_eq_or 4 (toField e)
  · obtain ⟨hrsv, hfb⟩ := fields_of_legal_unary (.inr (.inl hop)) hw
    exact decode_ok.mpr ⟨hrsv, .inr (.inr (.inr (.inr (.inl ⟨congrArg BitVec.toNat hop, hfb, rfl⟩))))⟩
  · exact (result_of_exec h rfl).trans (expRom_zero s.cfg)
  · exact (result_of_exec h rfl).trans (expRom_zero s.cfg)
  · rw [result_of_exec h rfl]
    exact expRom_ne_zero s.cfg (Nat.mod_lt e (by decide))
  · rw [result_of_exec h rfl, hs]
    decide

end Sys2Proof.Machine
end

section
/-! PROOF layer of 41 (polynomial operations): coefficient vectors as polynomials over the residues, with the entry of index
`i` as the coefficient of `X ^ i`. `polymul` is then the product of polynomials, so the ring's laws are those of
`polymul`. -/

namespace Sys2Proof.Machine

open Polynomial

/-! ### Coefficient vectors as polynomials -/

/-- The polynomial of a coefficient vector: the residue of entry `i` at `X ^ i`. -/
noncomputable def vecPoly (c : Config) (A : List Byte) : (AdjoinRoot (bitsPoly c.fieldPoly))[X] :=
  ∑ i ∈ Finset.range A.length, monomial i (residue c.fieldPoly (A.getD i 0))

theorem vecPoly_coeff (c : Config) (A : List Byte) (k : Nat) :
    (vecPoly c A).coeff k = residue c.fieldPoly (A.getD k 0) := by
  simp only [vecPoly, finsetSum_coeff, coeff_monomial, Finset.sum_ite_eq', Finset.mem_range]
  split
  · rfl
  · rw [List.getD_eq_default _ _ (by omega), residue_zero]

theorem vecPoly_nil (c : Config) : vecPoly c [] = 0 := rfl

theorem vecPoly_cons (c : Config) (a : Byte) (A : List Byte) :
    vecPoly c (a :: A) = C (residue c.fieldPoly a) + X * vecPoly c A := by
  ext k
  cases k with
  | zero => rw [vecPoly_coeff, coeff_add, coeff_C_zero, coeff_X_mul_zero, add_zero, List.getD_cons_zero]
  | succ k => rw [vecPoly_coeff, coeff_add, coeff_C_succ, coeff_X_mul, vecPoly_coeff, zero_add, List.getD_cons_succ]

/-- A vector of two coefficients. -/
theorem vecPoly_pair (c : Config) (b d : Byte) :
    vecPoly c [b, d] = C (residue c.fieldPoly b) + X * C (residue c.fieldPoly d) := by
  rw [vecPoly_cons, vecPoly_cons, vecPoly_nil, mul_zero, add_zero]

/-- Vectors of one length with the same polynomial are the same. -/
theorem eq_of_vecPoly (c : Config) {A B : List Byte} (hlen : A.length = B.length) (h : vecPoly c A = vecPoly c B) :
    A = B := by
  refine List.ext_getElem hlen fun i hA hB => ?_
  rw [← List.getD_eq_getElem A 0 hA, ← List.getD_eq_getElem B 0 hB]
  exact eq_of_residue c (by rw [← vecPoly_coeff, h, vecPoly_coeff])

theorem vecPoly_natDegree_le (c : Config) (A : List Byte) : (vecPoly c A).natDegree ≤ A.length - 1 := by
  rw [natDegree_le_iff_coeff_eq_zero]
  intro k hk
  rw [vecPoly_coeff, List.getD_eq_default _ _ (by omega), residue_zero]

/-- Reversing a vector reverses its polynomial. -/
theorem vecPoly_reverse (c : Config) (A : List Byte) : vecPoly c A.reverse = (vecPoly c A).reflect (A.length - 1) := by
  ext k
  rw [coeff_reflect, vecPoly_coeff, vecPoly_coeff]
  by_cases hk : k < A.length
  · rw [List.getD_reverse k hk, revAt_le (by omega)]
  · have hout : A.length ≤ revAt (A.length - 1) k := by
      rw [← revAtFun_eq, revAtFun]
      split <;> omega
    rw [List.getD_eq_default _ _ (by rw [List.length_reverse]; omega), List.getD_eq_default _ _ hout]

/-! ### The coefficients of a product -/

/-- A fold whose steps each add a term adds up the terms. -/
theorem residue_foldl {ι : Type} (f : BitVec 9) {step : Byte → ι → Byte} {g : ι → AdjoinRoot (bitsPoly f)}
    (h : ∀ t x, residue f (step t x) = residue f t + g x) (l : List ι) (t : Byte) :
    residue f (l.foldl step t) = residue f t + (l.map g).sum := by
  induction l generalizing t with
  | nil => simp
  | cons x l ih => rw [List.foldl_cons, ih, h, List.map_cons, List.sum_cons, add_assoc]

/-- Coefficient `k` of a product of polynomials: over all pairs of indices that add up to `k`. -/
theorem coeff_vecPoly_mul (c : Config) (A B : List Byte) (k : Nat) :
    (vecPoly c A * vecPoly c B).coeff k =
      ∑ p ∈ (Finset.range A.length ×ˢ Finset.range B.length).filter fun p => p.1 + p.2 = k,
        residue c.fieldPoly (A.getD p.1 0) * residue c.fieldPoly (B.getD p.2 0) := by
  rw [vecPoly, vecPoly, Finset.sum_mul_sum, ← Finset.sum_product', Finset.sum_filter]
  simp only [monomial_mul_monomial, finsetSum_coeff, coeff_monomial]

/-- The convolution is coefficient `k` of the product (41 R130). -/
theorem residue_convolution (c : Config) (A B : List Byte) (k : Nat) :
    residue c.fieldPoly (convolution c A B k) = (vecPoly c A * vecPoly c B).coeff k := by
  have hnodup : ((List.range A.length).product (List.range B.length)).Nodup := List.nodup_range.product List.nodup_range
  have hset : (((List.range A.length).product (List.range B.length)).filter fun p => p.1 + p.2 == k).toFinset =
      (Finset.range A.length ×ˢ Finset.range B.length).filter fun p => p.1 + p.2 = k := by
    ext ⟨i, j⟩
    simp
  rw [convolution, residue_foldl _ fun t p => by rw [residue_xor, residue_gfmul], residue_zero, zero_add,
    ← List.sum_toFinset _ (hnodup.filter _), hset, coeff_vecPoly_mul]

/-- The model's inner loop is coefficient `k` of the product (41 R130). -/
theorem residue_polyCoeff (c : Config) (A B : List Byte) (k : Nat) :
    residue c.fieldPoly (polyCoeff c A B k) = (vecPoly c A * vecPoly c B).coeff k := by
  have hstep (t : Byte) (i : Nat) :
      residue c.fieldPoly (if i ≤ k ∧ k - i < B.length then gfadd t (gfmul c (A.getD i 0) (B.getD (k - i) 0)) else t) =
        residue c.fieldPoly t + ∑ j ∈ Finset.range B.length, if i + j = k then
          residue c.fieldPoly (A.getD i 0) * residue c.fieldPoly (B.getD j 0) else 0 := by
    by_cases hi : i ≤ k
    · have hj : ∀ j, i + j = k ↔ k - i = j := by omega
      simp only [hi, true_and, hj, Finset.sum_ite_eq, Finset.mem_range]
      split
      · exact (residue_xor ..).trans (congrArg _ (residue_gfmul ..))
      · rw [add_zero]
    · have hj : ∀ j, ¬ i + j = k := by omega
      simp [hi, hj]
  rw [polyCoeff, residue_foldl _ hstep, residue_zero, zero_add, ← List.sum_toFinset _ List.nodup_range,
    List.toFinset_range, coeff_vecPoly_mul, Finset.sum_filter, Finset.sum_product]

theorem polyCoeff_eq_convolution (c : Config) (A B : List Byte) (k : Nat) : polyCoeff c A B k = convolution c A B k :=
  eq_of_residue c ((residue_polyCoeff c A B k).trans (residue_convolution c A B k).symm)

/-- `polymul` is the product of polynomials (41 R130). -/
theorem vecPoly_polymul (c : Config) (A B : List Byte) : vecPoly c (polymul c A B) = vecPoly c A * vecPoly c B := by
  ext k
  rw [vecPoly_coeff]
  by_cases hk : k < A.length + B.length - 1
  · rw [polymul_getD c A B k hk, residue_polyCoeff]
  · rw [List.getD_eq_default _ _ (by rw [polymul_length]; omega), residue_zero, coeff_vecPoly_mul,
      Finset.filter_false_of_mem, Finset.sum_empty]
    intro p hp
    simp only [Finset.mem_product, Finset.mem_range] at hp
    omega

end Sys2Proof.Machine
end

section
/-! PROOF of the statements of 41 (polynomial operations) about the functions: `polymul`, `genpoly` and `polyeval`. -/

namespace Sys2Proof.Machine

open Polynomial

/-! ### Products -/

/-- Leading zero entries are a power of X that divides the polynomial. -/
theorem X_pow_dvd_vecPoly {c : Config} {A : List Byte} {m : Nat} (h : ∀ i, i < m → A.getD i 0 = 0) :
    X ^ m ∣ vecPoly c A := by
  rw [X_pow_dvd_iff]
  intro i hi
  rw [vecPoly_coeff, h i hi, residue_zero]

/-- Leading zero coefficients of the factors are kept (41 R130). -/
theorem polymul_leading_zeros {c : Config} {A B : List Byte} {m n k : Nat} (hA : ∀ i, i < m → A.getD i 0 = 0)
    (hB : ∀ j, j < n → B.getD j 0 = 0) (hk : k < m + n) : (polymul c A B).getD k 0 = 0 := by
  have hdvd : X ^ (m + n) ∣ vecPoly c (polymul c A B) := by
    rw [vecPoly_polymul, pow_add]
    exact mul_dvd_mul (X_pow_dvd_vecPoly hA) (X_pow_dvd_vecPoly hB)
  apply eq_of_residue c
  rw [← vecPoly_coeff, X_pow_dvd_iff.mp hdvd k hk, residue_zero]

/-- Settles O35: the inner loop of `polymul` and the convolution are one coefficient of one product of polynomials. -/
theorem polymulIsTheConvolution : Obligations.PolymulIsTheConvolution := by
  unfold Obligations.PolymulIsTheConvolution
  intro c A B _ _
  exact ⟨polymul_length c A B, fun k hk => (polymul_getD c A B k hk).trans (polyCoeff_eq_convolution c A B k),
    fun m n hA hB k hk => polymul_leading_zeros hA hB hk⟩

/-! ### The laws of polynomials -/

theorem polymul_comm (c : Config) (A B : List Byte) : polymul c A B = polymul c B A :=
  eq_of_vecPoly c (by rw [polymul_length, polymul_length, add_comm]) (by rw [vecPoly_polymul, vecPoly_polymul, mul_comm])

theorem polymul_assoc (c : Config) {A B D : List Byte} (hA : A ≠ []) (hB : B ≠ []) (hD : D ≠ []) :
    polymul c (polymul c A B) D = polymul c A (polymul c B D) := by
  have := List.length_pos_of_ne_nil hA
  have := List.length_pos_of_ne_nil hB
  have := List.length_pos_of_ne_nil hD
  refine eq_of_vecPoly c (by simp only [polymul_length]; omega) ?_
  rw [vecPoly_polymul, vecPoly_polymul, vecPoly_polymul, vecPoly_polymul, mul_assoc]

/-- The constant 1 is the one-entry vector `[1]`. -/
theorem vecPoly_one (c : Config) : vecPoly c [1] = 1 := by
  rw [vecPoly_cons, vecPoly_nil, mul_zero, add_zero, residue_one, C_1]

theorem polymul_one (c : Config) (A : List Byte) : polymul c A [1] = A :=
  eq_of_vecPoly c (by simp) (by rw [vecPoly_polymul, vecPoly_one, mul_one])

theorem one_polymul (c : Config) (A : List Byte) : polymul c [1] A = A := (polymul_comm c [1] A).trans (polymul_one c A)

/-- A zero entry at the end changes the length alone. -/
theorem vecPoly_append_zero (c : Config) (A : List Byte) : vecPoly c (A ++ [0]) = vecPoly c A := by
  induction A with
  | nil => rw [List.nil_append, vecPoly_cons, vecPoly_nil, residue_zero, C_0, mul_zero, add_zero]
  | cons a A ih => rw [List.cons_append, vecPoly_cons, vecPoly_cons, ih]

/-- Multiplying by x appends a zero constant term (41 R131). -/
theorem polymul_x (c : Config) (A : List Byte) : polymul c A [1, 0] = A ++ [0] := by
  have hx : vecPoly c [1, 0] = 1 := (vecPoly_append_zero c [1]).trans (vecPoly_one c)
  exact eq_of_vecPoly c (by simp) (by rw [vecPoly_polymul, vecPoly_append_zero, hx, mul_one])

/-- Reversing both factors reverses the product (41 R131). -/
theorem polymul_reverse (c : Config) {A B : List Byte} (hA : A ≠ []) (hB : B ≠ []) :
    polymul c A.reverse B.reverse = (polymul c A B).reverse := by
  have hApos := List.length_pos_of_ne_nil hA
  have hBpos := List.length_pos_of_ne_nil hB
  have hdegree : (polymul c A B).length - 1 = (A.length - 1) + (B.length - 1) := by
    rw [polymul_length]
    omega
  refine eq_of_vecPoly c (by simp) ?_
  rw [vecPoly_reverse, hdegree, vecPoly_polymul, vecPoly_polymul, vecPoly_reverse, vecPoly_reverse,
    reflect_mul _ _ (vecPoly_natDegree_le c A) (vecPoly_natDegree_le c B)]

/-- The first coefficient is the product of the first coefficients (41 R131). -/
theorem polymul_getD_zero (c : Config) (A B : List Byte) :
    (polymul c A B).getD 0 0 = gfmul c (A.getD 0 0) (B.getD 0 0) := by
  apply eq_of_residue c
  rw [← vecPoly_coeff, vecPoly_polymul, mul_coeff_zero, vecPoly_coeff, vecPoly_coeff, residue_gfmul]

/-- The last coefficient is the product of the last coefficients (41 R131). -/
theorem polymul_getD_last (c : Config) (A B : List Byte) :
    (polymul c A B).getD ((A.length - 1) + (B.length - 1)) 0 =
      gfmul c (A.getD (A.length - 1) 0) (B.getD (B.length - 1) 0) := by
  apply eq_of_residue c
  rw [← vecPoly_coeff, vecPoly_polymul,
    coeff_mul_add_eq_of_natDegree_le (vecPoly_natDegree_le c A) (vecPoly_natDegree_le c B), vecPoly_coeff, vecPoly_coeff,
    residue_gfmul]

/-! ### Products with two coefficients -/

/-- The product with `[b, d]`, for a vector that comes after the coefficient `p`. -/
theorem vecPoly_zipWith_shift (c : Config) (b d p : Byte) (A : List Byte) :
    vecPoly c ((A ++ [0]).zipWith (fun a p => gfmul c a b ^^^ gfmul c p d) (p :: A)) =
      C (residue c.fieldPoly (gfmul c p d)) + vecPoly c A * vecPoly c [b, d] := by
  induction A generalizing p with
  | nil =>
    rw [List.nil_append, List.zipWith_cons_cons, List.zipWith_nil_left, vecPoly_cons, vecPoly_nil, mul_zero, zero_mul,
      residue_xor, gfmul_zero_left, residue_zero, zero_add]
  | cons a A ih =>
    have hhead : residue c.fieldPoly (gfmul c a b ^^^ gfmul c p d) =
        residue c.fieldPoly a * residue c.fieldPoly b + residue c.fieldPoly (gfmul c p d) := by
      rw [residue_xor, residue_gfmul]
    rw [List.cons_append, List.zipWith_cons_cons, vecPoly_cons, ih, hhead, residue_gfmul c a d, vecPoly_cons c a A,
      vecPoly_pair, C_add, C_mul, C_mul]
    ring

/-- A product with two coefficients takes each coefficient with the one before it; `clmulmod` computes it without the
tables (40 R104). -/
theorem polymul_pair (c : Config) (A : List Byte) (b d : Byte) : polymul c A [b, d] =
    (A ++ [0]).zipWith (fun a p => clmulmod c.fieldPoly a b ^^^ clmulmod c.fieldPoly p d) (0 :: A) := by
  have hterm : (fun a p => clmulmod c.fieldPoly a b ^^^ clmulmod c.fieldPoly p d) =
      fun a p => gfmul c a b ^^^ gfmul c p d := by
    funext a p
    rw [gfmul_eq_clmulmod, gfmul_eq_clmulmod]
  refine eq_of_vecPoly c (by simp) ?_
  rw [hterm, vecPoly_polymul, vecPoly_zipWith_shift, gfmul_zero_left, residue_zero, C_0, zero_add]

/-- The product of two monic factors of degree 1. -/
theorem polymul_linear (c : Config) (a b : Byte) : polymul c [1, a] [1, b] = [1, a ^^^ b, gfmul c a b] := by
  refine eq_of_vecPoly c (polymul_length ..) ?_
  rw [vecPoly_polymul, vecPoly_pair, vecPoly_pair, vecPoly_cons, vecPoly_pair, residue_one, residue_xor, residue_gfmul,
    C_1, map_add, map_mul]
  ring

/-- The example of 41 R134. -/
theorem polymul_example : polymul Config.default [0x12, 0x34, 0x56] [0x78, 0x9A] = [0x23, 0xE9, 0x18, 0x67] := by
  rw [polymul_pair]
  decide

/-- Settles O36: the laws of the ring of polynomials over the residues, and lengths. -/
theorem polymulObeysTheLawsOfPolynomials : Obligations.PolymulObeysTheLawsOfPolynomials := by
  unfold Obligations.PolymulObeysTheLawsOfPolynomials
  intro c A B D x hA hB hD
  have hApos := List.length_pos_of_ne_nil hA
  have hBpos := List.length_pos_of_ne_nil hB
  have hlast : A.length + B.length - 2 = (A.length - 1) + (B.length - 1) := by omega
  refine ⟨polymul_comm c A B, polymul_assoc c hA hB hD, polymul_one c A, polymul_x c A, polymul_reverse c hA hB,
    polymul_getD_zero c A B, ?_, ?_⟩
  · rw [hlast, polymul_getD_last]
  · rw [polymul_linear, BitVec.xor_self]
    rfl

/-! ### The generator polynomial -/

theorem genpoly_succ (c : Config) (n : Nat) : genpoly c (n + 1) = polymul c (genpoly c n) [1, gfexp c n] := rfl

/-- The generator polynomial is built by its factors in rising order (41 R132). -/
theorem foldl_range_eq_genpoly (c : Config) (n : Nat) :
    (List.range n).foldl (fun G i => polymul c G [1, gfexp c i]) [1] = genpoly c n := by
  induction n with
  | zero => rfl
  | succ n ih => rw [List.range_succ, List.foldl_append, ih]; rfl

/-- Two factors may be exchanged. -/
theorem polymul_right_comm (c : Config) {A B D : List Byte} (hB : B ≠ []) (hD : D ≠ []) :
    polymul c (polymul c A B) D = polymul c (polymul c A D) B := by
  have := List.length_pos_of_ne_nil hB
  have := List.length_pos_of_ne_nil hD
  refine eq_of_vecPoly c (by simp only [polymul_length]; omega) ?_
  rw [vecPoly_polymul, vecPoly_polymul, vecPoly_polymul, vecPoly_polymul, mul_right_comm]

/-- Settles O37: two factors may be exchanged, so every order of the factors gives the product in rising order. -/
theorem genpolyIsTheProductOfItsFactors : Obligations.GenpolyIsTheProductOfItsFactors := by
  unfold Obligations.GenpolyIsTheProductOfItsFactors
  refine fun c => ⟨rfl, fun _ => rfl, genpoly_length c, fun n order horder => ?_⟩
  have hexchange : ∀ i ∈ order, ∀ j ∈ order, ∀ G : List Byte, polymul c (polymul c G [1, gfexp c i]) [1, gfexp c j] =
      polymul c (polymul c G [1, gfexp c j]) [1, gfexp c i] :=
    fun i _ j _ G => polymul_right_comm c (List.cons_ne_nil 1 _) (List.cons_ne_nil 1 _)
  exact (horder.foldl_eq' hexchange [1]).trans (foldl_range_eq_genpoly c n)

/-! ### The roots of the generator polynomial -/

theorem polyeval_append (c : Config) (P : List Byte) (p x : Byte) :
    polyeval c (P ++ [p]) x = gfmul c (polyeval c P x) x ^^^ p := List.foldl_append

/-- Horner's rule evaluates the polynomial whose coefficients are read from the last one (41 R133). -/
theorem residue_polyeval (c : Config) (P : List Byte) (x : Byte) :
    residue c.fieldPoly (polyeval c P x) = (vecPoly c P.reverse).eval (residue c.fieldPoly x) := by
  induction P using List.reverseRecOn with
  | nil => exact (residue_zero _).trans eval_zero.symm
  | append_singleton P p ih =>
    rw [polyeval_append, List.reverse_concat, vecPoly_cons, residue_xor, residue_gfmul, ih, eval_add, eval_C, eval_mul,
      eval_X]
    ring

/-- The value of a product is the product of the values. -/
theorem polyeval_polymul (c : Config) {A B : List Byte} (hA : A ≠ []) (hB : B ≠ []) (x : Byte) :
    polyeval c (polymul c A B) x = gfmul c (polyeval c A x) (polyeval c B x) := by
  apply eq_of_residue c
  rw [residue_polyeval, residue_gfmul, residue_polyeval, residue_polyeval, ← polymul_reverse c hA hB, vecPoly_polymul,
    eval_mul]

/-- `x - a` vanishes at `a`. -/
theorem polyeval_linear_self (c : Config) (a : Byte) : polyeval c [1, a] a = 0 := by
  have hone : gfmul c 0 a ^^^ 1 = 1 := by rw [gfmul_zero_left]; rfl
  show gfmul c (gfmul c 0 a ^^^ 1) a ^^^ a = 0
  rw [hone, one_gfmul]
  exact BitVec.xor_self

theorem genpoly_ne_nil (c : Config) (n : Nat) : genpoly c n ≠ [] := List.ne_nil_of_length_eq_add_one (genpoly_length c n)

/-- The generator polynomial vanishes at the powers of α it is built from (41 R133). -/
theorem polyeval_genpoly (c : Config) {n i : Nat} (hi : i < n) : polyeval c (genpoly c n) (gfexp c i) = 0 := by
  induction n with
  | zero => omega
  | succ n ih =>
    rw [genpoly_succ, polyeval_polymul c (genpoly_ne_nil c n) (List.cons_ne_nil 1 _)]
    rcases Nat.lt_succ_iff_lt_or_eq.mp hi with hlt | rfl
    · rw [ih hlt, gfmul_zero_left]
    · rw [polyeval_linear_self, gfmul_zero_right]

/-- The generator polynomial is monic (41 R133). -/
theorem genpoly_monic (c : Config) (n : Nat) : (genpoly c n).getD 0 0 = 1 := by
  induction n with
  | zero => rfl
  | succ n ih => rw [genpoly_succ, polymul_getD_zero, ih, one_gfmul]; rfl

/-- `α ^ d * α ^ e = α ^ (d + e)` (40 R103). -/
theorem gfmul_gfexp (c : Config) (d e : Nat) : gfmul c (gfexp c d) (gfexp c e) = gfexp c (d + e) :=
  eq_of_residue c (by rw [residue_gfmul, residue_gfexp, residue_gfexp, residue_gfexp, pow_add])

/-- The constant term is `α ^ (0 + 1 + … + (n - 1))` (41 R133). -/
theorem genpoly_constant_term (c : Config) (n : Nat) : (genpoly c n).getD n 0 = gfexp c (n * (n - 1) / 2) := by
  induction n with
  | zero => exact (expRom_zero c).symm
  | succ n ih =>
    have hlast := polymul_getD_last c (genpoly c n) [1, gfexp c n]
    rw [genpoly_length] at hlast
    calc (genpoly c (n + 1)).getD (n + 1) 0
      _ = gfmul c ((genpoly c n).getD n 0) (gfexp c n) := hlast
      _ = gfexp c (n * (n - 1) / 2 + n) := by rw [ih, gfmul_gfexp]
      _ = gfexp c ((n + 1) * (n + 1 - 1) / 2) := by rw [Nat.triangle_succ]

theorem genpoly_one (c : Config) : genpoly c 1 = [1, gfexp c 0] := one_polymul c _

theorem genpoly_two (c : Config) : genpoly c 2 = [1, gfexp c 0 ^^^ gfexp c 1, gfexp c 1] := by
  rw [genpoly_succ, genpoly_one, polymul_linear, gfmul_gfexp]

/-- One more factor, computed from the coefficients so far. -/
theorem genpoly_succ_of_eq {c : Config} {n : Nat} {e : Byte} {G T : List Byte} (hG : genpoly c n = G)
    (he : gfexp c n = e)
    (hT : (G ++ [0]).zipWith (fun a p => clmulmod c.fieldPoly a 1 ^^^ clmulmod c.fieldPoly p e) (0 :: G) = T) :
    genpoly c (n + 1) = T := by
  rw [genpoly_succ, hG, he, polymul_pair, hT]

theorem genpoly_default_two : genpoly Config.default 2 = [0x01, 0x03, 0x02] := by
  rw [genpoly_two, gfexp_eq, gfexp_eq, expRom_zero, expRom_one]
  rfl

/-- The example of 41 R135, factor by factor. -/
theorem genpoly_example : genpoly Config.default 7 = [0x01, 0x7F, 0x7A, 0x9A, 0xA4, 0x0B, 0x44, 0x75] := by
  have h3 : genpoly Config.default 3 = [0x01, 0x07, 0x0E, 0x08] :=
    genpoly_succ_of_eq (e := 0x04) genpoly_default_two (by decide) (by decide)
  have h4 : genpoly Config.default 4 = [0x01, 0x0F, 0x36, 0x78, 0x40] :=
    genpoly_succ_of_eq (e := 0x08) h3 (by decide) (by decide)
  have h5 : genpoly Config.default 5 = [0x01, 0x1F, 0xC6, 0x3F, 0x93, 0x74] :=
    genpoly_succ_of_eq (e := 0x10) h4 (by decide) (by decide)
  have h6 : genpoly Config.default 6 = [0x01, 0x3F, 0x01, 0xDA, 0x20, 0xE3, 0x26] :=
    genpoly_succ_of_eq (e := 0x20) h5 (by decide) (by decide)
  exact genpoly_succ_of_eq (e := 0x40) h6 (by decide) (by decide)

/-- Settles O38: by induction on the factors, of which the last one vanishes at its own root. -/
theorem genpolyHasItsRoots : Obligations.GenpolyHasItsRoots := by
  unfold Obligations.GenpolyHasItsRoots
  refine ⟨fun c n _ => ⟨genpoly_monic c n, genpoly_constant_term c n, fun i hi => polyeval_genpoly c hi, ?_, genpoly_two c⟩,
    fun c P p x => ⟨rfl, polyeval_append c P p x⟩, genpoly_default_two⟩
  rw [genpoly_one, gfexp_eq, expRom_zero]

end Sys2Proof.Machine
end

section
/-! PROOF of the statements of 41 (polynomial operations) about the commands: POLY.MUL and POLY.GEN. -/

namespace Sys2Proof.Machine

/-! ### What a polynomial command does -/

/-- An integer operand as the 32 bits of its field (30 R86). -/
theorem toField_setWidth {n : Nat} (hn : n < 256) : (toField n).setWidth 32 = BitVec.ofNat 32 n :=
  BitVec.setWidth_ofNat_of_le_of_lt (by decide) hn

/-- POLY.MUL with lengths that it accepts (41 R134). -/
theorem exec_polyMul_of_fits {s : State} {la lb : Nat} (ha : 1 ≤ la) (hb : 1 ≤ lb) (hfits : la + lb - 1 ≤ s.cfg.polyMax) :
    exec (.polyMul la lb) s = .next (finishPoly (polymul s.cfg (s.entries .pa la) (s.entries .pb lb)) s) := by
  refine if_neg fun hbad => ?_
  have := of_decide_eq_true hbad
  omega

/-- POLY.GEN with a degree that it accepts (41 R135). -/
theorem exec_polyGen_of_fits {s : State} {n : Nat} (hfits : n + 1 ≤ s.cfg.polyMax) :
    exec (.polyGen n) s = .next (finishPoly (genpoly s.cfg n) s) :=
  if_neg fun hbad => (of_decide_eq_true hbad).not_ge hfits

/-- A written entry of PR is its coefficient. -/
theorem entry_finishPoly_of_lt {T : List Byte} {k : Nat} (s : State) (hk : k < T.length) :
    (finishPoly T s).entry .pr k = T.getD k 0 := (entry_finishPoly_pr s T k).trans (if_pos hk)

/-- The written entries of PR are the coefficients. -/
theorem entries_finishPoly (s : State) (T : List Byte) : (finishPoly T s).entries .pr T.length = T := by
  rw [State.entries]
  refine List.ext_getElem (by rw [List.length_map, List.length_range]) fun k _ hk => ?_
  rw [List.getElem_map, List.getElem_range, entry_finishPoly_of_lt s hk, List.getD_eq_getElem _ _ hk]

/-- Completing with coefficients: RLEN as the host reads it, the flags, and what is left (10 R29, R35). -/
theorem finishPoly_effect {s : State} {T : List Byte} {n : Nat} (hlen : T.length = n) (hfits : n ≤ s.cfg.polyMax) :
    (readReg (finishPoly T s) .rlen).toNat = n ∧ (finishPoly T s).status = s.status ||| 0b00001 ∧
      PolyFrame n s (finishPoly T s) := by
  have hmax := (polyMax_bounds s.cfg).2
  have hpr : ∀ i, n ≤ i → (finishPoly T s).entry .pr i = s.entry .pr i :=
    fun i hi => (entry_finishPoly_pr s T i).trans (if_neg (by omega))
  refine ⟨?_, setFlag_done s.status, rfl, rfl, rfl, fun _ => rfl, fun _ => rfl, hpr, rfl, rfl, rfl, rfl⟩
  show ((BitVec.ofNat 7 T.length).setWidth 32).toNat = n
  rw [BitVec.toNat_setWidth, BitVec.toNat_ofNat]
  omega

/-- Raising ERR_LEN: the flags, ERRCMD, and what is left (60 R162). -/
theorem raise_len_effect (w : Word) (s : State) :
    (raise (.len w) s).status = s.status ||| 0b00101 ∧ (raise (.len w) s).errcmd = w ∧ ErrorFrame s (raise (.len w) s) := by
  refine ⟨?_, rfl, rfl, rfl, rfl, fun _ _ => rfl, rfl, rfl, rfl, rfl⟩
  show s.status ||| 0b00100 ||| 0b00001 = _
  exact BitVec.or_assoc ..

/-! ### POLY.MUL -/

/-- Settles O13: POLY.MUL completes with the product, whose coefficients are the convolution, or raises ERR_LEN. -/
theorem polyMulWritesTheProduct : Obligations.PolyMulWritesTheProduct := by
  unfold Obligations.PolyMulWritesTheProduct
  refine ⟨fun la lb ha hb => ?_, fun s la lb ha hb hfits => ?_, fun s la lb _ _ hbad => ?_,
    fun w hop => ⟨illegalWord_iff_of_binary (.inr (.inr hop)), fun hrsv => ?_⟩,
    fun s => ⟨_, exec_polyMul_of_fits le_rfl le_rfl (polyMax_bounds s.cfg).1, ?_, ?_⟩, fun s b i => entry_unwritten,
    fun s t hs hA hB h => ?_, rfl⟩
  · rw [← toField_setWidth ha, ← toField_setWidth hb]
    exact packFields_eq_or 5 (toField la) (toField lb)
  · have hlen : (polymul s.cfg (s.entries .pa la) (s.entries .pb lb)).length = la + lb - 1 := by
      rw [polymul_length, entries_length, entries_length]
    refine ⟨_, exec_polyMul_of_fits ha hb hfits, fun k hk => ?_, finishPoly_effect hlen hfits⟩
    rw [entry_finishPoly_of_lt s (by omega), polymul_getD _ _ _ _ (by rwa [entries_length, entries_length]),
      polyCoeff_eq_convolution]
  · exact ⟨_, if_pos (decide_eq_true hbad), raise_len_effect _ s⟩
  · exact decode_ok.2 ⟨hrsv, .inr (.inr (.inr (.inr (.inr (.inl ⟨congrArg BitVec.toNat hop, rfl⟩)))))⟩
  · exact (entry_finishPoly_of_lt s (by simp)).trans (polymul_getD_zero ..)
  · rw [finishPoly_rlen, polymul_length, entries_length, entries_length]
    rfl
  · rw [exec_polyMul_of_fits (by decide) (by decide) (by rw [hs]; decide), hs, hA, hB, polymul_example] at h
    obtain rfl := Host.Outcome.next.inj h
    exact ⟨entries_finishPoly s _, rfl⟩

/-! ### POLY.GEN -/

/-- Settles O14: POLY.GEN completes with the generator polynomial or raises ERR_LEN. -/
theorem polyGenWritesTheGeneratorPolynomial : Obligations.PolyGenWritesTheGeneratorPolynomial := by
  unfold Obligations.PolyGenWritesTheGeneratorPolynomial
  refine ⟨fun n hn => ?_, fun s n hfits => ?_, fun s n _ hbad => ?_,
    fun w hop => ⟨illegalWord_iff_of_unary (.inr (.inr hop)), fun hw => ?_⟩, fun s => ?_, fun s t hs h => ?_, rfl⟩
  · rw [← toField_setWidth hn]
    exact packFields_zero_eq_or 6 (toField n)
  · have hlen := genpoly_length s.cfg n
    refine ⟨_, exec_polyGen_of_fits hfits, ?_, finishPoly_effect hlen hfits⟩
    rw [← hlen]
    exact entries_finishPoly s _
  · exact ⟨_, if_pos (decide_eq_true hbad), raise_len_effect _ s⟩
  · obtain ⟨hrsv, hfb⟩ := fields_of_legal_unary (.inr (.inr hop)) hw
    exact decode_ok.2 ⟨hrsv, .inr (.inr (.inr (.inr (.inr (.inr ⟨congrArg BitVec.toNat hop, hfb, rfl⟩)))))⟩
  · exact ⟨_, exec_polyGen_of_fits (polyMax_bounds s.cfg).1, entry_finishPoly_of_lt s (by simp), rfl⟩
  · rw [exec_polyGen_of_fits (by rw [hs]; decide), hs, genpoly_example] at h
    obtain rfl := Host.Outcome.next.inj h
    exact ⟨entries_finishPoly s _, rfl⟩

end Sys2Proof.Machine
end

section
/-! PROOF of the statements of 60 (exceptions): which flags an event raises, and from which cause. -/

namespace Sys2Proof.Machine

/-! ### Command words -/

/-- A word that decodes is none of those that 60 R163 lists. -/
theorem not_illegalWord_of_decode {w : Word} {i : Instr} (h : decode w = .ok i) : ¬ illegalWord w := by
  rw [← decode_error, h]
  simp

/-- Raising ERR_LOG0 sets its flag and DONE (60 R162, R165). -/
theorem raise_log0_status_eq (w : Word) (s : State) : (raise (.log0 w) s).status = s.status ||| 0b01001 :=
  BitVec.or_assoc s.status 0b01000 0b00001

/-- A word with lengths that 60 R164 lists raises ERR_LEN and does nothing else. -/
theorem issue_of_lengthErrorWord {w : Word} {s : State} (h : lengthErrorWord s.cfg.polyMax w) :
    issue w s = .next (raise (.len w) s) := by
  rcases h with ⟨la, lb, hdec, hbad⟩ | ⟨n, hdec, hbad⟩
  all_goals
    rw [issue_of_decode_ok s hdec, ← encode_of_decode hdec]
    exact if_pos (decide_eq_true hbad)

/-- The word of GF.LOG 0 raises ERR_LOG0 and does nothing else (60 R165). -/
theorem issue_gfLog_zero (s : State) : issue 0x30000000 s = .next (raise (.log0 0x30000000) s) :=
  issue_of_decode_ok s (i := .gfLog 0) (by decide)

/-! ### The flags that an event raises -/

/-- The event raises the flags `m` in a block of capacity `n`: nothing, DONE, DONE with one command error, or ERR_BUS, each
from its own cause (60 R161, R167). -/
def Raises (n : Nat) (e : HostEvent) (m : BitVec 5) : Prop :=
  (m = 0 ∧ refusedAddr n e = none ∧ commandOf? e = none) ∨
  (m = 0b00001 ∧ ∃ w, commandOf? e = some w ∧ ¬ erroneousWord n w) ∨
  (m = 0b00011 ∧ ∃ w, commandOf? e = some w ∧ illegalWord w) ∨
  (m = 0b00101 ∧ ∃ w, commandOf? e = some w ∧ ¬ illegalWord w ∧ lengthErrorWord n w) ∨
  (m = 0b01001 ∧ ∃ w, commandOf? e = some w ∧ ¬ illegalWord w ∧ decode w = .ok (.gfLog 0)) ∨
  (m = 0b10000 ∧ refusedAddr n e ≠ none ∧ commandOf? e = none)

/-- A command word that an event issues adds to STATUS the flags that the event raises, and no others. -/
theorem issue_raises {e : HostEvent} {w : Word} {s t : State} (hc : commandOf? e = some w) (h : issue w s = .next t) :
    ∃ m, Raises s.cfg.polyMax e m ∧ t.status = s.status ||| m := by
  rcases issue_cases h with ⟨herr, rfl⟩ | ⟨i, hi, h⟩
  · exact ⟨_, .inr (.inr (.inl ⟨rfl, w, hc, (decode_error w).mp herr⟩)), congrArg State.status (raise_illegal_eq w s)⟩
  · have hlegal := not_illegalWord_of_decode hi
    have hbad := erroneousWord_of_decode s.cfg hi
    rcases exec_cases h with ⟨rfl, rfl⟩ | ⟨v, hv, rfl⟩ | ⟨la, lb, rfl, hb, rfl⟩ | ⟨n, rfl, hb, rfl⟩ | ⟨rfl, rfl⟩ |
      ⟨la, lb, rfl, hb, rfl⟩ | ⟨n, rfl, hb, rfl⟩
    · exact ⟨_, .inr (.inl ⟨rfl, w, hc, by simp [hbad]⟩), setFlag_done _⟩
    · exact ⟨_, .inr (.inl ⟨rfl, w, hc, by simp [hbad, hv]⟩), setFlag_done _⟩
    · exact ⟨_, .inr (.inl ⟨rfl, w, hc, by simp [hbad, polyLength_polyMul_of_ok hb]⟩), setFlag_done _⟩
    · exact ⟨_, .inr (.inl ⟨rfl, w, hc, by simp [hbad, polyLength_polyGen_of_ok hb]⟩), setFlag_done _⟩
    · exact ⟨_, .inr (.inr (.inr (.inr (.inl ⟨rfl, w, hc, hlegal, hi⟩)))), raise_log0_status_eq _ s⟩
    · have hlen : lengthErrorWord s.cfg.polyMax w := .inl ⟨la, lb, hi, of_decide_eq_true hb⟩
      exact ⟨_, .inr (.inr (.inr (.inl ⟨rfl, w, hc, hlegal, hlen⟩))), (raise_len_effect _ s).1⟩
    · have hlen : lengthErrorWord s.cfg.polyMax w := .inr ⟨n, hi, of_decide_eq_true hb⟩
      exact ⟨_, .inr (.inr (.inr (.inl ⟨rfl, w, hc, hlegal, hlen⟩))), (raise_len_effect _ s).1⟩

/-- The one event that issues a word is its full-word write to CMD (10 R26). -/
theorem eq_write_of_commandOf? {e : HostEvent} {w : Word} (h : commandOf? e = some w) : e = .write 0x008 0b1111 w := by
  cases e with
  | write addr be v =>
    obtain ⟨⟨rfl, rfl⟩, hv⟩ := Option.ite_none_right_eq_some.mp h
    exact congrArg _ (Option.some.inj hv)
  | read | reset | resetDuringCommand => cases h

/-- An event but a reset and a write to STATUS adds to STATUS the flags that it raises, and no others (60 R167). -/
theorem step_offer_raises {e : HostEvent} {s t : State} (he : isReset e = false)
    (hclear : ∀ v : Word, e ≠ .write 0x00C 0b1111 v) (h : step (s.offer e) = .next t) :
    ∃ m, Raises s.cfg.polyMax e m ∧ t.status = s.status ||| m := by
  rw [step_offer] at h
  rcases perform_cases h with ⟨hr, -⟩ | ⟨addr, r, ha, hc, rfl⟩ | ⟨addr, g, rfl, ha, -, rfl⟩ | ⟨v, rfl, -, -⟩ |
    ⟨b, i, v, -, -, -, ha, hc, rfl⟩ | ⟨w, rfl, -, hi⟩
  · simp [he] at hr
  · exact ⟨_, .inr (.inr (.inr (.inr (.inr ⟨rfl, by simp [ha], hc⟩)))), setFlag_errBus _⟩
  · exact ⟨_, .inl ⟨rfl, ha, rfl⟩, BitVec.or_zero.symm⟩
  · exact absurd rfl (hclear v)
  · exact ⟨_, .inl ⟨rfl, ha, hc⟩, (writeEntry_status ..).trans BitVec.or_zero.symm⟩
  · exact issue_raises (s := { s with response := some .written }) rfl hi

/-- A reset clears STATUS (10 R38). -/
theorem step_offer_reset_status {e : HostEvent} {s t : State} (he : isReset e = true) (h : step (s.offer e) = .next t) :
    t.status = 0 := by
  cases e with
  | reset | resetDuringCommand =>
    obtain rfl := Host.Outcome.next.inj h
    rfl
  | read | write => cases he

/-- A full-word write to STATUS clears the flags written as 1 (10 R27). -/
theorem step_offer_clear_status {s t : State} {v : Word} (h : step (s.offer (.write 0x00C 0b1111 v)) = .next t) :
    t.status = clearFlags v s.status := by
  rw [step_offer, perform_clear] at h
  obtain rfl := Host.Outcome.next.inj h
  rfl

/-- A flag that an event sets where it was clear is one that the event raises: a reset and a write to STATUS set none. -/
theorem raises_of_newly_set {e : HostEvent} {s t : State} {b : StatusBit} (h : step (s.offer e) = .next t)
    (hs : flagIsSet s.status b = false) (ht : flagIsSet t.status b = true) :
    ∃ m, Raises s.cfg.polyMax e m ∧ flagIsSet m b = true := by
  cases he : isReset e with
  | true =>
    rw [step_offer_reset_status he h] at ht
    simp [flagIsSet] at ht
  | false =>
    by_cases hclear : ∃ v : Word, e = .write 0x00C 0b1111 v
    · obtain ⟨v, rfl⟩ := hclear
      rw [step_offer_clear_status h, flagIsSet_clearFlags, hs] at ht
      cases ht
    · obtain ⟨m, hm, hstatus⟩ := step_offer_raises he (not_exists.mp hclear) h
      have hor : flagIsSet t.status b = (flagIsSet s.status b || flagIsSet m b) := by
        rw [hstatus]
        exact BitVec.getLsbD_or
      exact ⟨m, hm, by rwa [hor, hs, Bool.false_or] at ht⟩

/-! ### The statements -/

/-- Settles O15: a word with bad lengths only raises ERR_LEN, and no other cause raises that flag. -/
theorem errLenIsRaisedByBadLengthsOnly : Obligations.ErrLenIsRaisedByBadLengthsOnly := by
  unfold Obligations.ErrLenIsRaisedByBadLengthsOnly
  refine fun s e _ => ⟨fun w hw hlen => ?_, fun t h hs ht => ?_⟩
  · obtain rfl := eq_write_of_commandOf? hw
    exact ⟨_, issue_of_lengthErrorWord hlen, by simp, rfl, rfl, fun _ => rfl⟩
  · obtain ⟨m, hm, hset⟩ := raises_of_newly_set h hs ht
    rcases hm with ⟨rfl, -⟩ | ⟨rfl, -⟩ | ⟨rfl, -⟩ | ⟨rfl, w, hw, -, hlen⟩ | ⟨rfl, -⟩ | ⟨rfl, -⟩
    case inr.inr.inr.inl => exact ⟨w, hw, hlen⟩
    all_goals cases hset

/-- Settles O16: GF.LOG 0 raises ERR_LOG0, no other cause does, and the command has one word. -/
theorem errLog0IsRaisedByTheLogarithmOfZeroOnly : Obligations.ErrLog0IsRaisedByTheLogarithmOfZeroOnly := by
  unfold Obligations.ErrLog0IsRaisedByTheLogarithmOfZeroOnly
  refine ⟨fun s => ⟨_, issue_gfLog_zero _, by simp, rfl⟩, fun s t e h hs ht => ?_⟩
  obtain ⟨m, hm, hset⟩ := raises_of_newly_set h hs ht
  rcases hm with ⟨rfl, -⟩ | ⟨rfl, -⟩ | ⟨rfl, -⟩ | ⟨rfl, -⟩ | ⟨rfl, w, hw, -, hdec⟩ | ⟨rfl, -⟩
  case inr.inr.inr.inr.inl =>
    obtain rfl := encode_of_decode hdec
    exact eq_write_of_commandOf? hw
  all_goals cases hset

/-- Settles O17: the flags an event raises, by cause; a write at CMD's word that is not the full word at 0x008 is refused. -/
theorem atMostOneErrorPerEvent : Obligations.AtMostOneErrorPerEvent := by
  unfold Obligations.AtMostOneErrorPerEvent
  refine ⟨fun s t e h => ⟨fun he => step_offer_reset_status he h, fun v he => ?_, fun he hclear => ?_⟩,
    fun s addr be w haddr hbad => ?_⟩
  · subst he
    exact step_offer_clear_status h
  · obtain ⟨m, hm, hstatus⟩ := step_offer_raises he hclear h
    exact ⟨m, hstatus, hm⟩
  · have hrefused : addr.toNat % 4 ≠ 0 ∨ isWritable s.cfg.polyMax addr.toNat = false ∨ be ≠ 0b1111 := by
      refine hbad.imp (fun hne => ?_) .inr
      have hne' : addr.toNat ≠ 8 := fun h8 => hne (BitVec.eq_of_toNat_eq h8)
      omega
    exact step_write_refused (refusedAddr_write.mpr ⟨hrefused, rfl⟩)

end Sys2Proof.Machine
end

section
/-! PROOF of the statement of 70 (reset): the configuration along a step (R192). Its tables are functions
of it, so they are kept with it. -/

namespace Sys2Proof.Machine

/-- Performing an event keeps the configuration: a reset copies it, and no other outcome of an event writes it. -/
theorem perform_cfg {e : HostEvent} {s t : State} (h : perform e s = .next t) : t.cfg = s.cfg := by
  rcases perform_cases h with ⟨-, rfl⟩ | ⟨addr, r, -, -, rfl⟩ | ⟨addr, g, -, -, -, rfl⟩ | ⟨v, -, -, rfl⟩ |
    ⟨b, i, v, -, -, -, -, -, rfl⟩ | ⟨w, -, -, hissue⟩
  case inr.inr.inr.inr.inl => exact writeEntry_cfg ..
  case inr.inr.inr.inr.inr => exact (issue_surroundings hissue).1
  all_goals rfl

/-- A step keeps the configuration. -/
theorem step_cfg {s t : State} (h : step s = .next t) : t.cfg = s.cfg := by
  rcases step_cases s with ⟨-, hidle⟩ | ⟨e, rest, -, hperform⟩
  · obtain rfl := Host.Outcome.next.inj (hidle.symm.trans h)
    rfl
  · exact perform_cfg (s := { s with pending := rest }) (hperform.symm.trans h)

/-- Settles O42: a step keeps the configuration, of which the tables are functions. -/
theorem noEventChangesTheConfiguration : Obligations.NoEventChangesTheConfiguration := by
  unfold Obligations.NoEventChangesTheConfiguration
  intro s t h
  have hcfg := step_cfg h
  exact ⟨hcfg, fun i a => ⟨congrArg (expRom · i) hcfg, congrArg (logRom · a) hcfg⟩⟩

end Sys2Proof.Machine
end

section
/-! PROOF of the statements of 30 (encoding): the decoder against the encoder and against the table of 30 R82. -/

namespace Sys2Proof.Machine

/-! ### The decoder and the encoder -/

/-- An integer operand that fits its field is read back from it (30 R81, R86). -/
theorem toNat_toField {n : Nat} (h : fitsField n = true) : (toField n).toNat = n := by
  rw [toField, BitVec.toNat_ofNat, Nat.mod_eq_of_lt (of_decide_eq_true h)]

/-- The number in an operand field fits the field (30 R81). -/
theorem fitsField_toNat (f : Byte) : fitsField f.toNat = true := decide_eq_true f.isLt

/-- A well-formed command is read back from its word. -/
theorem decode_encode {i : Instr} (h : i.wf = true) : decode (encode i) = .ok i := by
  rw [decode_ok]
  cases i with
  | nop => exact ⟨rfl, .inl ⟨rfl, rfl, rfl, rfl⟩⟩
  | gfAdd a b => simp [encode]
  | gfMul a b => simp [encode]
  | gfLog a => simp [encode]
  | gfExp e => simp [encode, toNat_toField h]
  | polyMul la lb =>
    obtain ⟨ha, hb⟩ := Bool.and_eq_true_iff.mp h
    simp [encode, toNat_toField ha, toNat_toField hb]
  | polyGen n => simp [encode, toNat_toField h]

/-- Settles O1: the fields of a packed word are the ones packed, and an operand that fits its field is kept by it. -/
theorem encodeThenDecodeGivesTheCommand : Obligations.EncodeThenDecodeGivesTheCommand := by
  unfold Obligations.EncodeThenDecodeGivesTheCommand
  exact fun i h => decode_encode h

/-- A decoded command is well-formed: its integer operands come from fields. -/
theorem wf_of_decode {w : Word} {i : Instr} (h : decode w = .ok i) : i.wf = true := by
  obtain ⟨-, hcmd⟩ := decode_ok.mp h
  rcases hcmd with ⟨-, -, -, rfl⟩ | ⟨-, rfl⟩ | ⟨-, rfl⟩ | ⟨-, -, rfl⟩ | ⟨-, -, rfl⟩ | ⟨-, rfl⟩ | ⟨-, -, rfl⟩
  case inr.inr.inr.inr.inl => exact fitsField_toNat _
  case inr.inr.inr.inr.inr.inl => exact Bool.and_eq_true_iff.mpr ⟨fitsField_toNat _, fitsField_toNat _⟩
  case inr.inr.inr.inr.inr.inr => exact fitsField_toNat _
  all_goals rfl

/-- Settles O2: operands read from fields fit them, and a word that decodes has no bit outside the fields it uses. -/
theorem decodeThenEncodeGivesTheWord : Obligations.DecodeThenEncodeGivesTheWord := by
  unfold Obligations.DecodeThenEncodeGivesTheWord
  exact fun w i h => ⟨wf_of_decode h, encode_of_decode h⟩

/-- Settles O4: each word is the encoding of its command. -/
theorem writtenOutWordsDecode : Obligations.WrittenOutWordsDecode := by
  unfold Obligations.WrittenOutWordsDecode
  exact ⟨decode_encode (i := .nop) rfl, decode_encode (i := .gfAdd 0x53 0xCA) rfl, decode_encode (i := .gfMul 0x53 0xCA) rfl,
    decode_encode (i := .gfLog 0x53) rfl, decode_encode (i := .gfExp 8) rfl, decode_encode (i := .polyMul 3 2) rfl,
    decode_encode (i := .polyGen 7) rfl⟩

/-! ### The match and mask table -/

/-- Two concatenations of the same widths are the same exactly when both parts are. -/
theorem append_eq_append_iff {m n : Nat} {a c : BitVec m} {b d : BitVec n} : a ++ b = c ++ d ↔ a = c ∧ b = d := by
  refine ⟨fun h => ⟨?_, ?_⟩, fun ⟨ha, hb⟩ => by rw [ha, hb]⟩
  · simpa only [BitVec.extractLsb'_append_eq_left] using congrArg (BitVec.extractLsb' n m) h
  · simpa only [BitVec.extractLsb'_append_eq_right] using congrArg (BitVec.extractLsb' 0 n) h

/-- A masked concatenation of four fields is a given one exactly when each masked field is the given one. -/
theorem append_and_append_eq_iff {k l m n : Nat} {a a' a'' : BitVec k} {b b' b'' : BitVec l} {c c' c'' : BitVec m}
    {d d' d'' : BitVec n} :
    (a ++ b ++ c ++ d) &&& (a' ++ b' ++ c' ++ d') = a'' ++ b'' ++ c'' ++ d'' ↔
      a &&& a' = a'' ∧ b &&& b' = b'' ∧ c &&& c' = c'' ∧ d &&& d' = d'' := by
  simp only [BitVec.and_append, append_eq_append_iff, and_assoc]

/-- A word is its four fields, one after the other (30 R80). -/
theorem append_fields (w : Word) : w.extractLsb' 28 4 ++ rsvField w ++ faField w ++ fbField w = w := by
  apply BitVec.eq_of_toNat_eq
  have hop : (w.extractLsb' 28 4).toNat = opField w := rfl
  rw [BitVec.toNat_append, BitVec.toNat_append, BitVec.toNat_append, ← Nat.shiftLeft_add_eq_or_of_lt (rsvField w).isLt,
    ← Nat.shiftLeft_add_eq_or_of_lt (faField w).isLt, ← Nat.shiftLeft_add_eq_or_of_lt (fbField w).isLt, hop,
    word_toNat_fields w]
  simp only [Nat.shiftLeft_eq]
  omega

/-- Which words a row selects, field by field: its mask keeps OP and RSV, and of FA and FB the bits of `fa` and `fb`, and its
pattern is the opcode alone (30 R82). -/
theorem selects_iff {m : String} {w : Word} (op : BitVec 4) (fa fb : Byte) :
    OpcodeRow.selects ⟨m, packFields op 0 0, 0xF#4 ++ 0xFFF#12 ++ fa ++ fb⟩ w = true ↔
      opField w = op.toNat ∧ rsvField w = 0 ∧ faField w &&& fa = 0 ∧ fbField w &&& fb = 0 := by
  have hop : w.extractLsb' 28 4 &&& 0xF#4 = op ↔ opField w = op.toNat := by
    rw [show 0xF#4 = BitVec.allOnes 4 from rfl, BitVec.and_allOnes]
    exact BitVec.toNat_inj.symm
  have hrsv : rsvField w &&& 0xFFF#12 = rsvField w := BitVec.and_allOnes
  rw [← hop, ← hrsv, OpcodeRow.selects, beq_iff_eq]
  conv_lhs => rw [← append_fields w]
  exact append_and_append_eq_iff

/-- A mask that keeps a whole operand field selects the words in which the field is zero. -/
theorem and_ones_eq_zero {f : Byte} : f &&& 0xFF = 0 ↔ f = 0 := by
  rw [show (0xFF : Byte) = BitVec.allOnes 8 from rfl, BitVec.and_allOnes]

/-- A word that a row selects decodes to a command with the row's mnemonic. -/
theorem exists_decode_of_selects {w : Word} {r : OpcodeRow} (hr : r ∈ opcodeRows) (h : r.selects w = true) :
    ∃ i, decode w = .ok i ∧ i.mnemonic = r.mnemonic := by
  simp only [opcodeRows, List.mem_cons, List.not_mem_nil, or_false] at hr
  rcases hr with rfl | rfl | rfl | rfl | rfl | rfl | rfl
  · obtain ⟨hop, hrsv, hfa, hfb⟩ := (selects_iff 0 0xFF 0xFF).mp h
    exact ⟨_, decode_ok.mpr ⟨hrsv, .inl ⟨hop, and_ones_eq_zero.mp hfa, and_ones_eq_zero.mp hfb, rfl⟩⟩, rfl⟩
  · obtain ⟨hop, hrsv, -⟩ := (selects_iff 1 0 0).mp h
    exact ⟨_, decode_ok.mpr ⟨hrsv, .inr (.inl ⟨hop, rfl⟩)⟩, rfl⟩
  · obtain ⟨hop, hrsv, -⟩ := (selects_iff 2 0 0).mp h
    exact ⟨_, decode_ok.mpr ⟨hrsv, .inr (.inr (.inl ⟨hop, rfl⟩))⟩, rfl⟩
  · obtain ⟨hop, hrsv, -, hfb⟩ := (selects_iff 3 0 0xFF).mp h
    exact ⟨_, decode_ok.mpr ⟨hrsv, .inr (.inr (.inr (.inl ⟨hop, and_ones_eq_zero.mp hfb, rfl⟩)))⟩, rfl⟩
  · obtain ⟨hop, hrsv, -, hfb⟩ := (selects_iff 4 0 0xFF).mp h
    exact ⟨_, decode_ok.mpr ⟨hrsv, .inr (.inr (.inr (.inr (.inl ⟨hop, and_ones_eq_zero.mp hfb, rfl⟩))))⟩, rfl⟩
  · obtain ⟨hop, hrsv, -⟩ := (selects_iff 5 0 0).mp h
    exact ⟨_, decode_ok.mpr ⟨hrsv, .inr (.inr (.inr (.inr (.inr (.inl ⟨hop, rfl⟩)))))⟩, rfl⟩
  · obtain ⟨hop, hrsv, -, hfb⟩ := (selects_iff 6 0 0xFF).mp h
    exact ⟨_, decode_ok.mpr ⟨hrsv, .inr (.inr (.inr (.inr (.inr (.inr ⟨hop, and_ones_eq_zero.mp hfb, rfl⟩)))))⟩, rfl⟩

/-- A word that decodes is selected by the row of its command. -/
theorem exists_selects_of_decode {w : Word} {i : Instr} (h : decode w = .ok i) :
    ∃ r ∈ opcodeRows, r.mnemonic = i.mnemonic ∧ r.selects w = true := by
  have unmasked (f : Byte) : f &&& 0 = 0 := BitVec.and_zero
  obtain ⟨hrsv, hcmd⟩ := decode_ok.mp h
  rcases hcmd with ⟨hop, hfa, hfb, rfl⟩ | ⟨hop, rfl⟩ | ⟨hop, rfl⟩ | ⟨hop, hfb, rfl⟩ | ⟨hop, hfb, rfl⟩ | ⟨hop, rfl⟩ |
    ⟨hop, hfb, rfl⟩
  · exact ⟨_, .head _, rfl, (selects_iff 0 0xFF 0xFF).mpr ⟨hop, hrsv, and_ones_eq_zero.mpr hfa, and_ones_eq_zero.mpr hfb⟩⟩
  · exact ⟨_, .tail _ (.head _), rfl, (selects_iff 1 0 0).mpr ⟨hop, hrsv, unmasked _, unmasked _⟩⟩
  · exact ⟨_, .tail _ (.tail _ (.head _)), rfl, (selects_iff 2 0 0).mpr ⟨hop, hrsv, unmasked _, unmasked _⟩⟩
  · exact ⟨_, .tail _ (.tail _ (.tail _ (.head _))), rfl,
      (selects_iff 3 0 0xFF).mpr ⟨hop, hrsv, unmasked _, and_ones_eq_zero.mpr hfb⟩⟩
  · exact ⟨_, .tail _ (.tail _ (.tail _ (.tail _ (.head _)))), rfl,
      (selects_iff 4 0 0xFF).mpr ⟨hop, hrsv, unmasked _, and_ones_eq_zero.mpr hfb⟩⟩
  · exact ⟨_, .tail _ (.tail _ (.tail _ (.tail _ (.tail _ (.head _))))), rfl,
      (selects_iff 5 0 0).mpr ⟨hop, hrsv, unmasked _, unmasked _⟩⟩
  · exact ⟨_, .tail _ (.tail _ (.tail _ (.tail _ (.tail _ (.tail _ (.head _)))))), rfl,
      (selects_iff 6 0 0xFF).mpr ⟨hop, hrsv, unmasked _, and_ones_eq_zero.mpr hfb⟩⟩

/-- A row of the table is named by its mnemonic. -/
theorem eq_of_mnemonic_eq {r r' : OpcodeRow} (hr : r ∈ opcodeRows) (hr' : r' ∈ opcodeRows) (h : r.mnemonic = r'.mnemonic) :
    r = r' := by
  have hnodup : (opcodeRows.map OpcodeRow.mnemonic).Nodup := by simp [opcodeRows]
  exact List.inj_on_of_nodup_map hnodup hr hr' h

/-- Settles O3: the rows select the words that decode, by mnemonic, and a word decodes to at most one command. -/
theorem decodeFollowsTheMatchAndMaskTable : Obligations.DecodeFollowsTheMatchAndMaskTable := by
  unfold Obligations.DecodeFollowsTheMatchAndMaskTable
  refine fun w => ⟨fun i => exists_selects_of_decode, fun r => exists_decode_of_selects, fun r hr r' hr' hw hw' => ?_,
    fun hno s => ?_⟩
  · obtain ⟨i, hi, hm⟩ := exists_decode_of_selects hr hw
    obtain ⟨j, hj, hm'⟩ := exists_decode_of_selects hr' hw'
    obtain rfl := Except.ok.inj (hi.symm.trans hj)
    exact eq_of_mnemonic_eq hr hr' (hm.symm.trans hm')
  · cases hd : decode w with
    | error e => exact issue_of_decode_error s hd
    | ok i =>
      obtain ⟨r, hr, -, hsel⟩ := exists_selects_of_decode hd
      exact absurd hsel (by simp [hno r hr])

end Sys2Proof.Machine
end

section
/-! PROOF of the statements about the step (20 R60, R61, 30 R85, 70 R206), about the flags of STATUS (10 R27) and about the
operand buffers (10 R34). -/

namespace Sys2Proof.Machine

/-! ### The step -/

/-- A step performs the oldest pending event. -/
theorem step_of_pending {s : State} {e : HostEvent} {rest : List HostEvent} (h : s.pending = e :: rest) :
    step s = perform e { s with pending := rest } := by
  simp only [step, h]

/-- Settles O5: the event is a write to CMD, whose word decodes. -/
theorem stepRunsTheDecodedCommand : Obligations.StepRunsTheDecodedCommand := by
  unfold Obligations.StepRunsTheDecodedCommand
  intro s w i rest hp hdec
  rw [step_of_pending hp, perform_cmd, issue_of_decode_ok _ hdec]

/-- Performing an event answers a next state, always (60 R178). -/
theorem perform_next (e : HostEvent) (s : State) : ∃ t, perform e s = .next t := by
  cases e with
  | write addr be v => exact busWrite_next addr be v s
  | read | reset | resetDuringCommand => exact ⟨_, rfl⟩

/-- Performing an event leaves the host's later events. -/
theorem perform_pending {e : HostEvent} {s t : State} (h : perform e s = .next t) : t.pending = s.pending := by
  rcases perform_cases h with ⟨-, rfl⟩ | ⟨addr, r, -, -, rfl⟩ | ⟨addr, g, -, -, -, rfl⟩ | ⟨v, -, -, rfl⟩ |
    ⟨b, i, v, -, -, -, -, -, rfl⟩ | ⟨w, -, -, hissue⟩
  case inr.inr.inr.inr.inl => cases b <;> rfl
  case inr.inr.inr.inr.inr =>
    obtain ⟨-, -, hpending, -⟩ := issue_surroundings hissue
    exact hpending
  all_goals rfl

/-- The product of two accepted lengths: the lengths add up to at most POLY_MAX + 1 (70 R206). -/
theorem mul_le_of_goodMulLengths {n la lb : Nat} (h : badMulLengths n la lb = false) : 4 * (la * lb) ≤ (n + 1) ^ 2 := by
  have hgood := of_decide_eq_false h
  have hsum : la + lb ≤ n + 1 := by omega
  calc 4 * (la * lb) = 4 * la * lb := (mul_assoc 4 la lb).symm
    _ ≤ (la + lb) ^ 2 := four_mul_le_sq_add la lb
    _ ≤ (n + 1) ^ 2 := Nat.pow_le_pow_left hsum 2

/-- Settles O6: performing an event always answers and leaves the rest of the stream. -/
theorem everyEventCompletes : Obligations.EveryEventCompletes := by
  unfold Obligations.EveryEventCompletes
  refine ⟨fun s => ?_, fun n la lb => mul_le_of_goodMulLengths⟩
  rcases step_cases s with ⟨hnil, hidle⟩ | ⟨e, rest, hp, hperform⟩
  · exact ⟨s, hidle, fun _ => rfl, by rw [hnil]; rfl⟩
  · obtain ⟨t, ht⟩ := perform_next e { s with pending := rest }
    refine ⟨t, hperform.trans ht, fun hnil => ?_, ?_⟩
    · rw [hp] at hnil
      cases hnil
    · rw [perform_pending ht, hp]
      rfl

/-! ### Flags -/

/-- A flag of a disjunction of flags. -/
theorem flagIsSet_or (st m : BitVec 5) (b : StatusBit) : flagIsSet (st ||| m) b = (flagIsSet st b || flagIsSet m b) :=
  BitVec.getLsbD_or

/-- Every command word that is issued ends with DONE (60 R169). -/
theorem issue_done {w : Word} {s t : State} (h : issue w s = .next t) : flagIsSet t.status .done = true := by
  rcases issue_cases h with ⟨-, rfl⟩ | ⟨i, -, hx⟩
  · simp
  · rcases exec_cases hx with ⟨-, rfl⟩ | ⟨v, -, rfl⟩ | ⟨la, lb, -, -, rfl⟩ | ⟨n, -, -, rfl⟩ | ⟨-, rfl⟩ |
      ⟨la, lb, -, -, rfl⟩ | ⟨n, -, -, rfl⟩ <;> simp

/-- An event that raises DONE issues a command word. -/
theorem exists_commandOf?_of_raises_done {n : Nat} {e : HostEvent} {m : BitVec 5} (h : Raises n e m)
    (hm : flagIsSet m .done = true) : ∃ w, commandOf? e = some w := by
  rcases h with ⟨rfl, -⟩ | ⟨-, w, hw, -⟩ | ⟨-, w, hw, -⟩ | ⟨-, w, hw, -⟩ | ⟨-, w, hw, -⟩ | ⟨rfl, -⟩
  case inl | inr.inr.inr.inr.inr => cases hm
  all_goals exact ⟨w, hw⟩

/-- Settles O28: an event adds flags to STATUS, but for a reset and a write to STATUS, which clears those written as 1. -/
theorem flagsStayUntilTheHostClearsThem : Obligations.FlagsStayUntilTheHostClearsThem := by
  unfold Obligations.FlagsStayUntilTheHostClearsThem
  refine ⟨fun s t e b he h hset hkept => ?_, fun s w => ?_, fun s t e h hs ht => ?_⟩
  · by_cases hclear : ∃ v : Word, e = .write 0x00C 0b1111 v
    · obtain ⟨v, rfl⟩ := hclear
      rw [step_offer_clear_status h, flagIsSet_clearFlags, hset, hkept v rfl]
      rfl
    · obtain ⟨m, -, hstatus⟩ := step_offer_raises he (not_exists.mp hclear) h
      rw [hstatus, flagIsSet_or, hset, Bool.true_or]
  · obtain ⟨t, ht⟩ := issue_next w { s with response := some .written }
    exact ⟨t, ht, issue_done ht⟩
  · obtain ⟨m, hm, hdone⟩ := raises_of_newly_set h hs ht
    exact exists_commandOf?_of_raises_done hm hdone

/-! ### The operand buffers -/

/-- Writing an entry leaves the entries of the other buffers. -/
theorem entry_writeEntry_other_buffer (s : State) {b b' : BufferId} (i j : Nat) (v : Byte) (h : b ≠ b') :
    (s.writeEntry b' i v).entry b j = s.entry b j := by
  cases b' with
  | pa => cases b with
    | pa => exact absurd rfl h
    | pb | pr => rfl
  | pb => cases b with
    | pb => exact absurd rfl h
    | pa | pr => rfl
  | pr => cases b with
    | pr => exact absurd rfl h
    | pa | pb => rfl

/-- Settles O29: of the events but a reset only a host write to an entry of PA or PB writes these buffers, and it writes that
entry. -/
theorem operandBuffersAreWrittenByTheHostOnly : Obligations.OperandBuffersAreWrittenByTheHostOnly := by
  unfold Obligations.OperandBuffersAreWrittenByTheHostOnly
  intro s t e b i he hb hi h
  constructor
  · rintro v rfl
    obtain rfl := Host.Outcome.next.inj ((step_write_entry s v hb hi).symm.trans h)
    exact entry_writeEntry_same ..
  · intro hother
    rcases perform_cases h with ⟨hr, -⟩ | ⟨addr, r, -, -, rfl⟩ | ⟨addr, g, -, -, -, rfl⟩ | ⟨v, -, -, rfl⟩ |
      ⟨b', j, v, -, -, rfl, -, -, rfl⟩ | ⟨w, -, -, hissue⟩
    · rw [he] at hr
      cases hr
    · exact sameEntries_of rfl rfl rfl rfl b i
    · exact sameEntries_of rfl rfl rfl rfl b i
    · exact sameEntries_of rfl rfl rfl rfl b i
    · by_cases hbb : b = b'
      · subst hbb
        have hij : i ≠ j := fun hij => hother v (hij ▸ rfl)
        exact entry_writeEntry_other { s with response := some .written } b _ hij
      · exact entry_writeEntry_other_buffer { s with response := some .written } _ _ _ hbb
    · obtain ⟨-, hdraws, -, -, -, hpa, hpb⟩ := issue_surroundings hissue
      cases b with
      | pa => exact entry_congr .pa i hpa hdraws
      | pb => exact entry_congr .pb i hpb hdraws
      | pr => exact absurd rfl hb

end Sys2Proof.Machine
end

section
/-! PROOF of the statement about the tables (10 R32): `clmulmod` by division of polynomials, and the recurrence of the
tables. -/

namespace Sys2Proof.Machine

open Polynomial

/-- `clmulmod` of two bytes differs from their product by a multiple of the reduction polynomial (10 R32). -/
theorem exists_bitsPoly_mul_eq {f : BitVec 9} (hf : f.getLsbD 8 = true) (a b : Byte) :
    ∃ q : (ZMod 2)[X], bitsPoly a * bitsPoly b = bitsPoly f * q + bitsPoly (clmulmod f a b) := by
  have hresidue : AdjoinRoot.mk (bitsPoly f) (bitsPoly a * bitsPoly b) =
      AdjoinRoot.mk (bitsPoly f) (bitsPoly (clmulmod f a b)) := by
    rw [map_mul]
    exact (residue_clmulmod hf a b).symm
  obtain ⟨q, hq⟩ := AdjoinRoot.mk_eq_mk.mp hresidue
  exact ⟨q, sub_eq_iff_eq_add.mp hq⟩

/-- Settles O32: the product of residues is that of polynomials modulo `FIELD_POLY`, and the tables are those of the
configuration, which every step keeps. -/
theorem tablesFollowTheirRecurrence : Obligations.TablesFollowTheirRecurrence := by
  unfold Obligations.TablesFollowTheirRecurrence
  refine ⟨fun f hf => exists_bitsPoly_mul_eq hf, fun c => ⟨expTable_length .., expRom_zero c, fun i hi => ?_, fun i hi => ?_, ?_⟩,
    fun s t h => (noEventChangesTheConfiguration s t h).2, fun f a _ => clmulmod_two f a⟩
  · exact expRom_succ c (by omega)
  · exact logRom_expRom c (by omega)
  · exact fun h0 => (mem_expTable c 0).mp h0 rfl

end Sys2Proof.Machine
end

section
/-! PROOF of the statements about the state after reset and about the invariant (10 R29, R30, R34, R35, R38; 70 R190). -/

namespace Sys2Proof.Machine

/-! ### Reset -/

/-- What a reset leaves depends on the configuration, the number of the draw and the host's stream alone. -/
theorem resetBlock_congr {s t : State} (hcfg : t.cfg = s.cfg) (hdraws : t.draws = s.draws) (hpending : t.pending = s.pending) :
    resetBlock t = resetBlock s := by
  simp only [resetBlock, hcfg, hdraws, hpending]

/-- After a reset every entry of the buffers is a draw (10 R38). -/
theorem entry_resetBlock (s : State) (b : BufferId) (i : Nat) :
    (resetBlock s).entry b i = Config.bufInit (resetBlock s).draws b i := by
  cases b <;> exact entry_unwritten rfl

/-- Both reset events reset the block (70 R190). -/
theorem step_offer_reset {s : State} {e : HostEvent} (he : isReset e = true) : step (s.offer e) = .next (resetBlock s) := by
  cases e with
  | reset | resetDuringCommand => rfl
  | read | write => cases he

/-- Settles O40: a reset writes every register and buffer, and a command leaves what a reset reads. -/
theorem resetLeavesTheListedValues : Obligations.ResetLeavesTheListedValues := by
  unfold Obligations.ResetLeavesTheListedValues
  refine ⟨fun s e he => ?_, fun s t w h => ⟨?_, rfl⟩⟩
  · exact ⟨_, step_offer_reset he, rfl, rfl, rfl, rfl, rfl, rfl, rfl, rfl, entry_resetBlock s, rfl⟩
  · obtain ⟨hcfg, hdraws, hpending, -⟩ := issue_surroundings (s := { s with response := some .written }) h
    exact congrArg Host.Outcome.next (resetBlock_congr hcfg hdraws hpending)

/-- Settles O41: the registers of `State.reset`, and its buffers with nothing written. -/
theorem resetStateIsAsListed : Obligations.ResetStateIsAsListed := by
  unfold Obligations.ResetStateIsAsListed
  have hparam : readReg State.reset .param = 0x00021D20 := paramReportsTheConfiguration.2 State.reset rfl
  refine ⟨rfl, hparam, rfl, rfl, rfl, rfl, rfl, rfl, fun b i => ?_⟩
  cases b <;> exact entry_unwritten rfl

/-! ### The invariant -/

/-- A state with nothing written and no error recorded meets the invariant. -/
theorem inv_of_cleared {s : State} (hpa : s.pa = []) (hpb : s.pb = []) (hpr : s.pr = []) (hrlen : s.rlen = 0)
    (herrcmd : s.errcmd = 0) (hstatus : s.status = 0) : s.Inv where
  pa_wf := by rw [hpa, wf_nil]
  pb_wf := by rw [hpb, wf_nil]
  pr_wf := by rw [hpr, wf_nil]
  rlen_le := by simp [hrlen]
  pr_written := by simp [hrlen]
  errcmd_word := .inl herrcmd
  error_recorded := by simp [hstatus, flagIsSet]

/-- Settles O43: in the state after reset nothing is written and no error recorded. -/
theorem invariantHoldsAfterReset : Obligations.InvariantHoldsAfterReset := by
  unfold Obligations.InvariantHoldsAfterReset
  exact inv_of_cleared rfl rfl rfl rfl rfl rfl

section

variable {s t : State} (hs : s.Inv)
include hs

/-- A state with the same buffers and RLEN meets the invariant when it records its errors as the invariant says. -/
theorem State.Inv.of_recorded (hcfg : t.cfg = s.cfg) (hpa : t.pa = s.pa) (hpb : t.pb = s.pb) (hpr : t.pr = s.pr)
    (hrlen : t.rlen = s.rlen) (hword : t.errcmd = 0 ∨ erroneousWord s.cfg.polyMax t.errcmd)
    (hrecorded : ∀ b, b ≠ .done → b ≠ .errBus → flagIsSet t.status b = true → erroneousWord s.cfg.polyMax t.errcmd) :
    t.Inv where
  pa_wf := by rw [hcfg, hpa]; exact hs.pa_wf
  pb_wf := by rw [hcfg, hpb]; exact hs.pb_wf
  pr_wf := by rw [hcfg, hpr]; exact hs.pr_wf
  rlen_le := by rw [hcfg, hrlen]; exact hs.rlen_le
  pr_written := by rw [hpr, hrlen]; exact hs.pr_written
  errcmd_word := by rw [hcfg]; exact hword
  error_recorded := by
    rw [hcfg]
    rintro (h | h | h)
    · exact hrecorded .errIllegal nofun nofun h
    · exact hrecorded .errLen nofun nofun h
    · exact hrecorded .errLog0 nofun nofun h

/-- A command error keeps the invariant: it records the erroneous word and writes no buffer and not RLEN (60 R162). -/
theorem State.Inv.of_erroneous (hcfg : t.cfg = s.cfg) (hpa : t.pa = s.pa) (hpb : t.pb = s.pb) (hpr : t.pr = s.pr)
    (hrlen : t.rlen = s.rlen) (hw : erroneousWord s.cfg.polyMax t.errcmd) : t.Inv :=
  hs.of_recorded hcfg hpa hpb hpr hrlen (.inr hw) fun _ _ _ _ => hw

/-- A command error that is flagged has its word in ERRCMD. -/
theorem State.Inv.erroneousWord_of_flag {b : StatusBit} (hdone : b ≠ .done) (hbus : b ≠ .errBus)
    (h : flagIsSet s.status b = true) : erroneousWord s.cfg.polyMax s.errcmd := by
  cases b with
  | done => exact absurd rfl hdone
  | errIllegal => exact hs.error_recorded (.inl h)
  | errLen => exact hs.error_recorded (.inr (.inl h))
  | errLog0 => exact hs.error_recorded (.inr (.inr h))
  | errBus => exact absurd rfl hbus

/-- The invariant only sees the configuration, the buffers, RLEN, ERRCMD and STATUS, and of STATUS that no command error is
set anew. -/
theorem State.Inv.of_kept (hcfg : t.cfg = s.cfg) (hpa : t.pa = s.pa) (hpb : t.pb = s.pb) (hpr : t.pr = s.pr)
    (hrlen : t.rlen = s.rlen) (herrcmd : t.errcmd = s.errcmd)
    (hstatus : ∀ b, b ≠ .done → b ≠ .errBus → flagIsSet t.status b = true → flagIsSet s.status b = true) : t.Inv :=
  hs.of_recorded hcfg hpa hpb hpr hrlen (herrcmd.symm ▸ hs.errcmd_word)
    fun b hdone hbus h => herrcmd.symm ▸ hs.erroneousWord_of_flag hdone hbus (hstatus b hdone hbus h)

/-- The invariant does not see the answer on the bus. -/
theorem State.Inv.with_response (r : Option Response) : State.Inv { s with response := r } :=
  hs.of_kept rfl rfl rfl rfl rfl rfl fun _ _ _ => id

/-- The invariant does not see the host's stream. -/
theorem State.Inv.with_pending (p : List HostEvent) : State.Inv { s with pending := p } :=
  hs.of_kept rfl rfl rfl rfl rfl rfl fun _ _ _ => id

/-- The invariant does not see RESULT. -/
theorem State.Inv.with_result (v : Byte) : State.Inv { s with result := v } :=
  hs.of_kept rfl rfl rfl rfl rfl rfl fun _ _ _ => id

/-- DONE is no command error. -/
theorem State.Inv.complete : (complete s).Inv :=
  hs.of_kept rfl rfl rfl rfl rfl rfl fun b hb _ h => by simpa [Ne.symm hb] using h

/-- A refused access sets ERR_BUS and ERRADDR, which the invariant does not speak of. -/
theorem State.Inv.raise_bus (addr : Addr) : (raise (.bus addr) s).Inv :=
  hs.of_kept rfl rfl rfl rfl rfl rfl fun b _ hb h => by simpa [Ne.symm hb] using h

/-- A write to STATUS keeps the invariant: it only clears flags. -/
theorem State.Inv.clearFlags (v : Word) : State.Inv { s with status := clearFlags v s.status } :=
  hs.of_kept rfl rfl rfl rfl rfl rfl fun b _ _ h => (Bool.and_eq_true_iff.mp (flagIsSet_clearFlags s.status v b ▸ h)).1

/-- A host write to an entry within a buffer keeps the buffer's canonical form (10 R34). -/
theorem State.Inv.writeEntry {b : BufferId} {i : Nat} (v : Byte) (hb : b ≠ .pr) (hi : i < s.cfg.polyMax) :
    (s.writeEntry b i v).Inv := by
  obtain ⟨hpa, hpb, hpr, hrlen, hwritten, hword, hrecorded⟩ := hs
  cases b with
  | pa => exact ⟨wf_insertCell _ _ _ _ hpa hi, hpb, hpr, hrlen, hwritten, hword, hrecorded⟩
  | pb => exact ⟨hpa, wf_insertCell _ _ _ _ hpb hi, hpr, hrlen, hwritten, hword, hrecorded⟩
  | pr => exact absurd rfl hb

/-- A result keeps the invariant: it writes the entries of PR that RLEN then counts (10 R29, R35). -/
theorem State.Inv.finishPoly {T : List Byte} {i : Instr} (hT : polyLength s.cfg.polyMax i = some T.length) :
    (finishPoly T s).Inv := by
  have hfits := (polyLength_bounds hT).2
  have hrlen := finishPoly_rlen_toNat s hT
  obtain ⟨hpa, hpb, hpr, -, -, hword, hrecorded⟩ := hs.complete
  refine ⟨hpa, hpb, wf_insertCells _ _ _ _ hpr (by rwa [Nat.zero_add]), ?_, fun k hk => ?_, hword, hrecorded⟩
  · rw [hrlen]
    exact hfits
  · rw [hrlen] at hk
    simp [lookup_insertCells, hk]

/-- Issuing a word keeps the invariant: a word that raises an error records itself as erroneous, and any other completes with
nothing, an element or a result. -/
theorem State.Inv.issue {w : Word} (h : issue w s = .next t) : t.Inv := by
  rcases issue_cases h with ⟨herr, rfl⟩ | ⟨i, hi, hx⟩
  · exact hs.of_erroneous rfl rfl rfl rfl rfl (.inl ((decode_error w).mp herr))
  · have hw := encode_of_decode hi
    have hbad := erroneousWord_of_decode s.cfg hi
    rcases exec_cases hx with ⟨-, rfl⟩ | ⟨v, -, rfl⟩ | ⟨la, lb, rfl, hb, rfl⟩ | ⟨n, rfl, hb, rfl⟩ | ⟨rfl, rfl⟩ |
      ⟨la, lb, rfl, hb, rfl⟩ | ⟨n, rfl, hb, rfl⟩
    · exact hs.complete
    · exact (hs.with_result v).complete
    · exact hs.finishPoly (i := .polyMul la lb) (by rw [polyLength_polyMul_of_ok hb, polymul_length, entries_length, entries_length])
    · exact hs.finishPoly (i := .polyGen n) (by rw [polyLength_polyGen_of_ok hb, genpoly_length])
    · exact hs.of_erroneous rfl rfl rfl rfl rfl (hw.symm ▸ hbad.mpr ⟨nofun, rfl, rfl⟩)
    · exact hs.of_erroneous rfl rfl rfl rfl rfl (hw.symm ▸ hbad.mpr ⟨nofun, rfl, polyLength_polyMul_of_bad hb⟩)
    · exact hs.of_erroneous rfl rfl rfl rfl rfl (hw.symm ▸ hbad.mpr ⟨nofun, rfl, polyLength_polyGen_of_bad hb⟩)

/-- Every event keeps the invariant. -/
theorem State.Inv.perform {e : HostEvent} (h : perform e s = .next t) : t.Inv := by
  rcases perform_cases h with ⟨-, rfl⟩ | ⟨addr, r, -, -, rfl⟩ | ⟨addr, g, -, -, -, rfl⟩ | ⟨v, -, -, rfl⟩ |
    ⟨b, i, v, hb, hi, -, -, -, rfl⟩ | ⟨w, -, -, hissue⟩
  · exact inv_of_cleared rfl rfl rfl rfl rfl rfl
  · exact (hs.raise_bus addr).with_response _
  · exact hs.with_response _
  · exact (hs.clearFlags v).with_response _
  · exact (hs.with_response _).writeEntry _ hb hi
  · exact (hs.with_response _).issue hissue

end

/-- Settles O44: a step does nothing or performs one event on the state with the event taken off the stream. -/
theorem everyStepKeepsTheInvariant : Obligations.EveryStepKeepsTheInvariant := by
  unfold Obligations.EveryStepKeepsTheInvariant
  intro s t hs h
  rcases step_cases s with ⟨-, hidle⟩ | ⟨e, rest, -, hperform⟩
  · exact Host.Outcome.next.inj (hidle.symm.trans h) ▸ hs
  · exact (hs.with_pending rest).perform (hperform.symm.trans h)

end Sys2Proof.Machine
end

section
/-! PROOF of the statement about the texts of operands (30 R86): which characters are digits, and which number digits
write. -/

namespace Sys2Proof.Machine

/-! ### Digits -/

/-- In a list whose members each have a partner, the partners make a list. -/
theorem exists_forall₂ {α β : Type} {R : α → β → Prop} {l : List α} (h : ∀ x ∈ l, ∃ y, R x y) :
    ∃ m, List.Forall₂ R l m := by
  induction l with
  | nil => exact ⟨[], .nil⟩
  | cons x l ih =>
    obtain ⟨y, hy⟩ := h x List.mem_cons_self
    obtain ⟨m, hm⟩ := ih fun x hx => h x (List.mem_cons_of_mem _ hx)
    exact ⟨y :: m, .cons hy hm⟩

/-- The characters of a digit's value, in a base up to 16. -/
theorem digitValue_eq_some {base d : Nat} {c : Char} (hbase : base ≤ 16) :
    digitValue base c = some d ↔ d < base ∧ (c = Nat.digitChar d ∨ c = (Nat.digitChar d).toUpper) := by
  constructor
  · intro h
    have hchar : c = Char.ofNat c.toNat := (Char.ofNat_toNat c).symm
    obtain ⟨hlt, hd⟩ := Option.ite_none_right_eq_some.mp h
    obtain rfl := Option.some.inj hd
    refine ⟨hlt, ?_⟩
    generalize c.toNat = n at *
    subst hchar
    split_ifs at hlt ⊢ with hdec hlow hup
    · obtain ⟨h1, h2⟩ := hdec
      interval_cases n <;> exact .inl rfl
    · obtain ⟨h1, h2⟩ := hlow
      interval_cases n <;> exact .inl rfl
    · obtain ⟨h1, h2⟩ := hup
      interval_cases n <;> exact .inr rfl
    · exact absurd hlt (lt_irrefl base)
  · rintro ⟨hd, hc⟩
    have hd16 : d < 16 := hd.trans_le hbase
    interval_cases d <;> rcases hc with rfl | rfl <;> exact if_pos hd

/-- A decimal digit has one character. -/
theorem toUpper_digitChar {d : Nat} (hd : d < 10) : (Nat.digitChar d).toUpper = Nat.digitChar d := by
  interval_cases d <;> rfl

/-- A space is no digit, in any base. -/
theorem digitValue_space (base : Nat) : digitValue base ' ' = none := if_neg (lt_irrefl base)

/-- An `x` is no digit, in any base. -/
theorem digitValue_x (base : Nat) : digitValue base 'x' = none := if_neg (lt_irrefl base)

section

variable {base : Nat} {text : List Char} {ds : List (Fin base)}
  (h : List.Forall₂ (fun c (d : Fin base) => digitValue base c = some d.val) text ds)
include h

/-- The number that digits write, the last one least significant (30 R86). -/
theorem digitsValue_of_forall₂ : digitsValue base 0 text = some (Nat.ofDigits base (ds.reverse.map Fin.val)) := by
  have hval := digitsValue_eq_ofDigits (List.forall₂_map_right_iff.mpr h) 0
  rw [hval, Nat.mul_zero, Nat.zero_add, List.map_reverse]

/-- Each character of a text of digits has its value. -/
theorem exists_digitValue_of_mem {c : Char} (hc : c ∈ text) : ∃ d, digitValue base c = some d :=
  digitValue_of_digitsValue (digitsValue_of_forall₂ h) c hc

end

/-- A text whose characters are digits of a base is a list of digits of that base. -/
theorem exists_digits {base acc n : Nat} {text : List Char} (hbase : base ≤ 16) (h : digitsValue base acc text = some n) :
    ∃ ds : List (Fin base), List.Forall₂ (fun c d => c = Nat.digitChar d.val ∨ c = (Nat.digitChar d.val).toUpper) text ds := by
  refine exists_forall₂ fun c hc => ?_
  obtain ⟨d, hd⟩ := digitValue_of_digitsValue h c hc
  obtain ⟨hlt, hchar⟩ := (digitValue_eq_some hbase).mp hd
  exact ⟨⟨d, hlt⟩, hchar⟩

/-- Characters of digits have the digits as their values. -/
theorem forall₂_digitValue {base : Nat} {text : List Char} {ds : List (Fin base)} (hbase : base ≤ 16)
    (h : List.Forall₂ (fun c d => c = Nat.digitChar d.val ∨ c = (Nat.digitChar d.val).toUpper) text ds) :
    List.Forall₂ (fun c d => digitValue base c = some d.val) text ds :=
  h.imp fun _ d hc => (digitValue_eq_some hbase).mpr ⟨d.isLt, hc⟩

/-! ### Operand texts -/

/-- A text without a space is its own trimmed text. -/
theorem trimSpaces_of_notMem {l : List Char} (h : ' ' ∉ l) : trimSpaces l = l :=
  trimSpaces_of_head_of_reverse (fun hh => h (List.mem_of_mem_head? hh))
    fun hh => h (List.mem_reverse.mp (List.mem_of_mem_head? hh))

/-- The value of an operand's text that has no space and writes a number (30 R86). -/
theorem operandValue_of_numberValue {l : List Char} {n : Nat} (hspace : ' ' ∉ l) (hn : numberValue l = some n) :
    operandValue l = if n ≤ 255 then some n else none := by
  rw [operandValue, trimSpaces_of_notMem hspace, hn]
  rfl

/-- A text of decimal digits is read as decimal: its second character is not `x`. -/
theorem numberValue_decimal {text : List Char} (hne : text ≠ []) (h : ∀ c ∈ text, ∃ d, digitValue 10 c = some d) :
    numberValue text = digitsValue 10 0 text := by
  have hx : 'x' ∉ text := by
    intro hmem
    obtain ⟨d, hd⟩ := h 'x' hmem
    simp [digitValue_x] at hd
  unfold numberValue
  split
  · exact absurd rfl hne
  · simp at hx
  · simp at hx
  · rfl

/-- A text of `0x` and hexadecimal digits is read as hexadecimal. -/
theorem numberValue_hex {text : List Char} (hne : text ≠ []) : numberValue ('0' :: 'x' :: text) = digitsValue 16 0 text := by
  cases text with
  | nil => exact absurd rfl hne
  | cons => rfl

/-- The value of a text of decimal digits. -/
theorem operandValue_decimal {text : List Char} {ds : List (Fin 10)} (hne : text ≠ [])
    (h : List.Forall₂ (fun c d => digitValue 10 c = some d.val) text ds) :
    operandValue text =
      if Nat.ofDigits 10 (ds.reverse.map Fin.val) ≤ 255 then some (Nat.ofDigits 10 (ds.reverse.map Fin.val)) else none := by
  have hdigit := fun c (hc : c ∈ text) => exists_digitValue_of_mem h hc
  have hspace : ' ' ∉ text := by
    intro hmem
    obtain ⟨d, hd⟩ := hdigit ' ' hmem
    simp [digitValue_space] at hd
  exact operandValue_of_numberValue hspace ((numberValue_decimal hne hdigit).trans (digitsValue_of_forall₂ h))

/-- The value of a text of `0x` and hexadecimal digits. -/
theorem operandValue_hex {text : List Char} {ds : List (Fin 16)} (hne : text ≠ [])
    (h : List.Forall₂ (fun c d => digitValue 16 c = some d.val) text ds) :
    operandValue ('0' :: 'x' :: text) =
      if Nat.ofDigits 16 (ds.reverse.map Fin.val) ≤ 255 then some (Nat.ofDigits 16 (ds.reverse.map Fin.val)) else none := by
  have hspace : ' ' ∉ '0' :: 'x' :: text := by
    intro hmem
    obtain ⟨d, hd⟩ := exists_digitValue_of_mem h (by simpa using hmem)
    simp [digitValue_space] at hd
  exact operandValue_of_numberValue hspace ((numberValue_hex hne).trans (digitsValue_of_forall₂ h))

/-- A text of decimal digits is the text of these digits: a decimal digit has no upper case. -/
theorem eq_map_digitChar {text : List Char} {ds : List (Fin 10)}
    (h : List.Forall₂ (fun c d => c = Nat.digitChar d.val ∨ c = (Nat.digitChar d.val).toUpper) text ds) :
    text = ds.map fun d => Nat.digitChar d.val := by
  rw [← List.forall₂_eq_eq_eq, List.forall₂_map_right_iff]
  exact h.imp fun c d hc => hc.elim id fun hup => hup.trans (toUpper_digitChar d.isLt)

/-- Settles O47: the characters of a digit's value are those of `Nat.digitChar`, in either case, and trimming takes off the
spaces. -/
theorem operandTextsAreReadAsTheirNumbers : Obligations.OperandTextsAreReadAsTheirNumbers := by
  unfold Obligations.OperandTextsAreReadAsTheirNumbers
  refine ⟨fun ds hne => ?_, fun text ds hne h => ?_, operandValue_replicate, fun p hp => ?_⟩
  · refine operandValue_decimal (by simpa using hne) (forall₂_digitValue (by omega) ?_)
    exact List.forall₂_map_left_iff.mpr (List.forall₂_same.mpr fun _ _ => .inl rfl)
  · refine operandValue_hex ?_ (forall₂_digitValue le_rfl h)
    rintro rfl
    exact hne (List.forall₂_nil_left_iff.mp h)
  · obtain ⟨j, k, hspaces⟩ := exists_trimSpaces p
    obtain ⟨n, hn⟩ := Option.ne_none_iff_exists'.mp hp
    obtain ⟨m, hm, -⟩ := Option.bind_eq_some_iff.mp hn
    refine ⟨j, k, trimSpaces p, hspaces, ?_⟩
    rcases numberValue_cases hm with ⟨hex, hne, hp0x, hv⟩ | ⟨hne, hv⟩
    · obtain ⟨ds, hds⟩ := exists_digits le_rfl hv
      refine .inr ⟨hex, ds, ?_, hp0x, hds⟩
      rintro rfl
      exact hne (List.forall₂_nil_right_iff.mp hds)
    · obtain ⟨ds, hds⟩ := exists_digits (by omega) hv
      have htext := eq_map_digitChar hds
      refine .inl ⟨ds, ?_, htext⟩
      rintro rfl
      exact hne htext

end Sys2Proof.Machine
end

section
/-! PROOF of the statement about the assembler (30 R86, R87): the word of each line, and the lines that are refused. -/

namespace Sys2Proof.Machine

/-! ### Mnemonics and the number of their operands -/

/-- No mnemonic stands in the tables twice, in one or in two of them. -/
theorem mnemonics_nodup : (plainMnemonics.map Prod.fst ++ (unaryMnemonics.map Prod.fst ++ binaryMnemonics.map Prod.fst)).Nodup := by
  simp [plainMnemonics, unaryMnemonics, binaryMnemonics]

/-- A string holds no space when its characters are none. -/
theorem space_notMem_toList_ofList {l : List Char} (h : ' ' ∉ l) : ' ' ∉ (String.ofList l).toList := by
  rwa [String.toList_ofList]

/-- A mnemonic is not empty and holds no space. -/
theorem mnemonic_spaceless {m : String}
    (hm : m ∈ plainMnemonics.map Prod.fst ++ (unaryMnemonics.map Prod.fst ++ binaryMnemonics.map Prod.fst)) :
    m ≠ "" ∧ ' ' ∉ m.toList := by
  simp only [plainMnemonics, unaryMnemonics, binaryMnemonics, List.map_cons, List.map_nil, List.cons_append, List.nil_append,
    List.mem_cons, List.not_mem_nil, or_false] at hm
  rcases hm with rfl | rfl | rfl | rfl | rfl | rfl | rfl | rfl | rfl | rfl | rfl | rfl
  all_goals exact ⟨by simp, space_notMem_toList_ofList (by simp)⟩

/-- A mnemonic is not found in a table that does not name it. -/
theorem findMnemonic_eq_none {α : Type} {m : String} {table : List (String × α)} (h : m ∉ table.map Prod.fst) :
    findMnemonic m.toList table = none := by
  rw [findMnemonic, Option.map_eq_none_iff, List.find?_eq_none]
  exact fun r hr he => h (List.mem_map.mpr ⟨r, hr, String.toList_inj.mp (beq_iff_eq.mp he)⟩)

section

variable {m : String} {ns : List Nat}

/-- A mnemonic of two operands has no command with fewer or more. -/
theorem commandOf_binary_eq_none (hm : m ∈ binaryMnemonics.map Prod.fst) (hlen : ns.length ≠ 2) :
    commandOf m.toList ns = none := by
  obtain ⟨-, hrest, hplain⟩ := List.nodup_append'.mp mnemonics_nodup
  obtain ⟨-, -, hunary⟩ := List.nodup_append'.mp hrest
  match ns, hlen with
  | [], _ => exact findMnemonic_eq_none fun h => hplain h (List.mem_append_right _ hm)
  | [_], _ => rw [commandOf, findMnemonic_eq_none fun h => hunary h hm, Option.map_none]
  | [_, _], hlen => exact absurd rfl hlen
  | _ :: _ :: _ :: _, _ => rfl

/-- A mnemonic of one operand has no command with none or more. -/
theorem commandOf_unary_eq_none (hm : m ∈ unaryMnemonics.map Prod.fst) (hlen : ns.length ≠ 1) :
    commandOf m.toList ns = none := by
  obtain ⟨-, hrest, hplain⟩ := List.nodup_append'.mp mnemonics_nodup
  obtain ⟨-, -, hbinary⟩ := List.nodup_append'.mp hrest
  match ns, hlen with
  | [], _ => exact findMnemonic_eq_none fun h => hplain h (List.mem_append_left _ hm)
  | [_], hlen => exact absurd rfl hlen
  | [_, _], _ => rw [commandOf, findMnemonic_eq_none fun h => hbinary hm h, Option.map_none]
  | _ :: _ :: _ :: _, _ => rfl

/-- A mnemonic without operands has no command with one or more. -/
theorem commandOf_plain_eq_none (hm : m ∈ plainMnemonics.map Prod.fst) (hne : ns ≠ []) : commandOf m.toList ns = none := by
  obtain ⟨-, -, hother⟩ := List.nodup_append'.mp mnemonics_nodup
  match ns, hne with
  | [], hne => exact absurd rfl hne
  | [_], _ => rw [commandOf, findMnemonic_eq_none fun h => hother hm (List.mem_append_left _ h), Option.map_none]
  | [_, _], _ => rw [commandOf, findMnemonic_eq_none fun h => hother hm (List.mem_append_right _ h), Option.map_none]
  | _ :: _ :: _ :: _, _ => rfl

end

/-! ### Words -/

/-- A word with two integer operands (30 R86). -/
theorem packFields_toField {a b : Nat} (op : BitVec 4) (ha : a ≤ 255) (hb : b ≤ 255) :
    packFields op (toField a) (toField b) = op.setWidth 32 <<< 28 ||| BitVec.ofNat 32 a <<< 8 ||| BitVec.ofNat 32 b := by
  rw [packFields_eq_or, toField_setWidth (Nat.lt_succ_of_le ha), toField_setWidth (Nat.lt_succ_of_le hb)]

/-- A word with one integer operand (30 R86). -/
theorem packFields_toField_zero {a : Nat} (op : BitVec 4) (ha : a ≤ 255) :
    packFields op (toField a) 0 = op.setWidth 32 <<< 28 ||| BitVec.ofNat 32 a <<< 8 := by
  rw [packFields_zero_eq_or, toField_setWidth (Nat.lt_succ_of_le ha)]

/-- The word of each mnemonic of 30 R86, for operands in 0..255. -/
theorem commandOf_words {a b : Nat} (ha : a ≤ 255) (hb : b ≤ 255) :
    (commandOf "nop".toList []).map encode = some 0x00000000 ∧
    (commandOf "gf.add".toList [a, b]).map encode = some (0x10000000 ||| BitVec.ofNat 32 a <<< 8 ||| BitVec.ofNat 32 b) ∧
    (commandOf "gf.mul".toList [a, b]).map encode = some (0x20000000 ||| BitVec.ofNat 32 a <<< 8 ||| BitVec.ofNat 32 b) ∧
    (commandOf "gf.log".toList [a]).map encode = some (0x30000000 ||| BitVec.ofNat 32 a <<< 8) ∧
    (commandOf "gf.exp".toList [a]).map encode = some (0x40000000 ||| BitVec.ofNat 32 a <<< 8) ∧
    (commandOf "poly.mul".toList [a, b]).map encode = some (0x50000000 ||| BitVec.ofNat 32 a <<< 8 ||| BitVec.ofNat 32 b) ∧
    (commandOf "poly.gen".toList [a]).map encode = some (0x60000000 ||| BitVec.ofNat 32 a <<< 8) := by
  rw [commandOf_nop, commandOf_gfAdd, commandOf_gfMul, commandOf_gfLog, commandOf_gfExp, commandOf_polyMul, commandOf_polyGen]
  exact ⟨rfl, congrArg some (packFields_toField 1 ha hb), congrArg some (packFields_toField 2 ha hb),
    congrArg some (packFields_toField_zero 3 ha), congrArg some (packFields_toField_zero 4 ha),
    congrArg some (packFields_toField 5 ha hb), congrArg some (packFields_toField_zero 6 ha)⟩

/-! ### Lines that assemble -/

section

variable {m : String} {p q : List Char} {a b : Nat}

/-- The word of a line with a mnemonic alone. -/
theorem assemble_plain (hm : m ∈ plainMnemonics.map Prod.fst) :
    assemble (lineOf m []) = (commandOf m.toList []).map encode :=
  assemble_lineOf_nil (mnemonic_spaceless (List.mem_append_left _ hm)).2

/-- The word of a line with one operand. -/
theorem assemble_unary (hm : m ∈ unaryMnemonics.map Prod.fst) (hp : operandValue p = some a) :
    assemble (lineOf m [p]) = (commandOf m.toList [a]).map encode := by
  obtain ⟨hne, hs⟩ := mnemonic_spaceless (List.mem_append_right _ (List.mem_append_left _ hm))
  exact assemble_lineOf_values hne hs (.cons hp .nil)

/-- The word of a line with two operands. -/
theorem assemble_binary (hm : m ∈ binaryMnemonics.map Prod.fst) (hp : operandValue p = some a) (hq : operandValue q = some b) :
    assemble (lineOf m [p, q]) = (commandOf m.toList [a, b]).map encode := by
  obtain ⟨hne, hs⟩ := mnemonic_spaceless (List.mem_append_right _ (List.mem_append_right _ hm))
  exact assemble_lineOf_values hne hs (.cons hp (.cons hq .nil))

end

/-- The word of each line of 30 R86, and of each line of 30 R87 that of its expansion, for operand texts that are read as `a`
and `b`. -/
theorem assemble_lines {p q : List Char} {a b : Nat} (hp : operandValue p = some a) (hq : operandValue q = some b) :
    assemble (lineOf "nop" []) = some 0x00000000 ∧
    assemble (lineOf "gf.add" [p, q]) = some (0x10000000 ||| BitVec.ofNat 32 a <<< 8 ||| BitVec.ofNat 32 b) ∧
    assemble (lineOf "gf.mul" [p, q]) = some (0x20000000 ||| BitVec.ofNat 32 a <<< 8 ||| BitVec.ofNat 32 b) ∧
    assemble (lineOf "gf.log" [p]) = some (0x30000000 ||| BitVec.ofNat 32 a <<< 8) ∧
    assemble (lineOf "gf.exp" [p]) = some (0x40000000 ||| BitVec.ofNat 32 a <<< 8) ∧
    assemble (lineOf "poly.mul" [p, q]) = some (0x50000000 ||| BitVec.ofNat 32 a <<< 8 ||| BitVec.ofNat 32 b) ∧
    assemble (lineOf "poly.gen" [p]) = some (0x60000000 ||| BitVec.ofNat 32 a <<< 8) ∧
    assemble (lineOf "gf.sub" [p, q]) = assemble (lineOf "gf.add" [p, q]) ∧
    assemble (lineOf "gf.mov" [p]) = assemble (lineOf "gf.add" [p, ['0']]) ∧
    assemble (lineOf "gf.clr" []) = assemble (lineOf "gf.add" [['0'], ['0']]) ∧
    assemble (lineOf "gf.one" []) = assemble (lineOf "gf.exp" [['0']]) ∧
    assemble (lineOf "gf.sq" [p]) = assemble (lineOf "gf.mul" [p, p]) := by
  have hzero : operandValue ['0'] = some 0 := rfl
  obtain ⟨hnop, hadd, hmul, hlog, hexp, hpmul, hpgen⟩ := commandOf_words (operandValue_le hp) (operandValue_le hq)
  refine ⟨(assemble_plain (.head _)).trans hnop, (assemble_binary (.head _) hp hq).trans hadd,
    (assemble_binary (.tail _ (.head _)) hp hq).trans hmul, (assemble_unary (.head _) hp).trans hlog,
    (assemble_unary (.tail _ (.head _)) hp).trans hexp, (assemble_binary (.tail _ (.tail _ (.head _))) hp hq).trans hpmul,
    (assemble_unary (.tail _ (.tail _ (.head _))) hp).trans hpgen, ?_, ?_, ?_, ?_, ?_⟩
  · rw [assemble_binary (.tail _ (.tail _ (.tail _ (.head _)))) hp hq, assemble_binary (.head _) hp hq, commandOf_gfSub,
      commandOf_gfAdd]
  · rw [assemble_unary (.tail _ (.tail _ (.tail _ (.head _)))) hp, assemble_binary (.head _) hp hzero, commandOf_gfMov,
      commandOf_gfAdd]
    rfl
  · rw [assemble_plain (.tail _ (.head _)), assemble_binary (.head _) hzero hzero, commandOf_gfClr, commandOf_gfAdd]
    rfl
  · rw [assemble_plain (.tail _ (.tail _ (.head _))), assemble_unary (.tail _ (.head _)) hzero, commandOf_gfOne,
      commandOf_gfExp]
  · rw [assemble_unary (.tail _ (.tail _ (.tail _ (.tail _ (.head _))))) hp, assemble_binary (.tail _ (.head _)) hp hp,
      commandOf_gfSq, commandOf_gfMul]

/-- The operands of a line are in 0..255 (30 R86). -/
theorem operandValues_le {ps : List (List Char)} {ns : List Nat} (h : operandValues ps = some ns) : ∀ n ∈ ns, n ≤ 255 := by
  have hvalues := operandValues_eq_some.mp h
  clear h
  induction hvalues with
  | nil => simp
  | cons hp _ ih => exact List.forall_mem_cons.mpr ⟨operandValue_le hp, ih⟩

/-- What assembles is well-formed: an accepted operand fits its field. -/
theorem wf_of_assembleLine {line : List Char} {i : Instr} (h : assembleLine line = some i) : i.wf = true := by
  obtain ⟨ns, hns, hi⟩ := Option.bind_eq_some_iff.mp h
  refine commandOf_wf hi ?_
  split at hns
  · obtain rfl := Option.some.inj hns
    simp
  · exact operandValues_le hns

/-- Spaces around a line do not matter. -/
theorem assembleLine_replicate (j k : Nat) (line : List Char) :
    assembleLine (List.replicate j ' ' ++ line ++ List.replicate k ' ') = assembleLine line := by
  simp only [assembleLine, trimSpaces_replicate]

/-! ### Lines that are refused -/

section

variable {m : String} {ops : List (List Char)} (hm : m ≠ "") (hs : ' ' ∉ m.toList)
include hm hs

/-- A line with operands that its mnemonic has no command for, by their number, is refused (30 R86). -/
theorem assemble_lineOf_eq_none (hops : ∀ p ∈ ops, operandValue p ≠ none)
    (hnone : ∀ ns : List Nat, ops.length = ns.length → commandOf m.toList ns = none) : assemble (lineOf m ops) = none := by
  obtain ⟨ns, hns⟩ := exists_forall₂ fun p hp => Option.ne_none_iff_exists'.mp (hops p hp)
  rw [assemble_lineOf_values hm hs hns, hnone ns hns.length_eq, Option.map_none]

/-- A line with an operand that is no number in 0..255 is refused (30 R86). -/
theorem assemble_lineOf_bad_operand (hcomma : ∀ p ∈ ops, ',' ∉ p) (hbad : ∃ p ∈ ops, operandValue p = none)
    (htext : 2 ≤ ops.length ∨ ∃ p ∈ ops, ∃ c ∈ p, c ≠ ' ') : assemble (lineOf m ops) = none := by
  have hne : ops ≠ [] := by
    rintro rfl
    simp at hbad
  rw [assemble_lineOf hm hs hne hcomma (trimSpaces_intercalate_ne_nil htext), operandValues_eq_none hbad]
  rfl

/-- A line whose first word has no command at all is refused, whatever follows it. -/
theorem assemble_lineOf_unknown (hnone : ∀ ns, commandOf m.toList ns = none) : assemble (lineOf m ops) = none := by
  by_cases hne : ops = []
  · rw [hne, assemble_lineOf_nil hs, hnone, Option.map_none]
  · have hm' : m.toList ≠ [] := fun h => hm (String.toList_inj.mp h)
    rw [assemble, lineOf, if_neg hne, String.toList_ofList, Option.map_eq_none_iff]
    by_cases hb : trimSpaces (List.intercalate [','] ops) = []
    · rw [List.eq_replicate_of_mem (trimSpaces_eq_nil.mp hb), ← List.replicate_succ, assembleLine_plain hs, hnone]
    · rw [assembleLine_operands hm' hs hb]
      exact Option.bind_eq_none_iff.mpr fun ns _ => hnone ns

end

/-- A line of known mnemonic with operand texts in another number than the mnemonic takes is refused (30 R86, R87). -/
theorem assemble_lineOf_wrong_count {ops : List (List Char)} (hops : ∀ p ∈ ops, operandValue p ≠ none) :
    (∀ m ∈ ["gf.add", "gf.mul", "poly.mul", "gf.sub"], ops.length ≠ 2 → assemble (lineOf m ops) = none) ∧
    (∀ m ∈ ["gf.log", "gf.exp", "poly.gen", "gf.mov", "gf.sq"], ops.length ≠ 1 → assemble (lineOf m ops) = none) ∧
    (∀ m ∈ ["nop", "gf.clr", "gf.one"], ops ≠ [] → assemble (lineOf m ops) = none) := by
  refine ⟨fun m hm hlen => ?_, fun m hm hlen => ?_, fun m hm hne => ?_⟩
  · obtain ⟨hne, hs⟩ := mnemonic_spaceless (List.mem_append_right _ (List.mem_append_right _ hm))
    exact assemble_lineOf_eq_none hne hs hops fun ns hns => commandOf_binary_eq_none hm (hns ▸ hlen)
  · obtain ⟨hne, hs⟩ := mnemonic_spaceless (List.mem_append_right _ (List.mem_append_left _ hm))
    exact assemble_lineOf_eq_none hne hs hops fun ns hns => commandOf_unary_eq_none hm (hns ▸ hlen)
  · obtain ⟨hne', hs⟩ := mnemonic_spaceless (List.mem_append_left _ hm)
    refine assemble_lineOf_eq_none hne' hs hops fun ns hns => commandOf_plain_eq_none hm ?_
    rintro rfl
    exact hne (List.length_eq_zero_iff.mp hns)

/-- Settles O45: a line is its mnemonic and the values of its operand texts, and a mnemonic has a command for one number of
operands. -/
theorem assemblerWritesTheCommandWords : Obligations.AssemblerWritesTheCommandWords := by
  unfold Obligations.AssemblerWritesTheCommandWords
  refine ⟨fun a b => commandOf_words, fun l n => operandValue_le, fun ns => ⟨?_, ?_, ?_⟩, ?_, fun line i => wf_of_assembleLine,
    fun p q a b => assemble_lines, fun m ops hm hs => assemble_lineOf_bad_operand hm hs,
    fun ops => assemble_lineOf_wrong_count, fun m ops hm hs hunknown => assemble_lineOf_unknown hm hs (commandOf_of_not_mem hunknown),
    rfl, assembleLine_replicate⟩
  · exact fun m hm => commandOf_binary_eq_none (List.mem_append_left ["gf.sub"] hm)
  · exact fun m hm => commandOf_unary_eq_none (List.mem_append_left ["gf.mov", "gf.sq"] hm)
  · exact commandOf_plain_eq_none (m := "nop") (.head _)
  · rfl

end Sys2Proof.Machine
end
